-- ==== Sys2Proof/Word.lean ====
section
/-! DEFINITION. The word types of the block: characters and bytes, 32-bit registers, cipher blocks.
Rules R13 and R14 (00_scope.md): a character string is a finite sequence of 8-bit ASCII codes, a byte string a
finite sequence of bytes; both are lists of `Byte` here. -/

namespace Sys2Proof

/-- One byte: an ASCII character code of a slot (R13) or one byte of a byte string (R14). -/
abbrev Byte := BitVec 8

/-- One 32-bit register of the window, or one bus word (R22, R61). -/
abbrev Word := BitVec 32

/-- One 8-byte cipher block, or one 8-byte DES key, read big-endian (R8, R14). -/
abbrev Block := BitVec 64

/-- One 16-byte cipher block, read big-endian (R8, R14). -/
abbrev Block16 := BitVec 128

/-- A character string (R13): character `i` at index `i`. -/
abbrev Chars := List Byte

/-- A byte string (R14): byte 0 the most significant. -/
abbrev Bytes := List Byte

end Sys2Proof
end

