-- ==== Sys2Proof/Config.lean ====
section
/-! DEFINITION. What an implementation fixes and the free values: the parameters of rule R10 (00_scope.md).
Every meaning takes them as one argument of type `Params`; the machine runs with `Config.params`, whose values are
opaque constants without a body, so a statement about the machine holds whatever they are (log entries 3 to 9). -/

namespace Sys2Proof

/-- The key types of R18 (00_scope.md). -/
inductive KeyType where
  | tdea2 | tdea3 | aes128 | aes192 | aes256
  deriving DecidableEq, Repr

/-- `keylen(t)` of R18: the byte length of a key of type `t`. -/
def KeyType.keylen : KeyType → Nat
  | .tdea2 => 16
  | .tdea3 => 24
  | .aes128 => 16
  | .aes192 => 24
  | .aes256 => 32

/-- The working-key usages of R19 (00_scope.md). -/
inductive Usage where
  | pin | mac | data
  deriving DecidableEq, Repr

/-- The parameters of R10. The cipher's functions take a DES key as one 8-byte block and an AES key as its 16, 24 or
32 bytes (R8). -/
structure Params where
  /-- `DES_E(k, x)` of R8. -/
  desE : Block → Block → Block
  /-- `DES_D(k, x)` of R8. -/
  desD : Block → Block → Block
  /-- `AES_E(k, x)` of R8. -/
  aesE : Bytes → Block16 → Block16
  /-- `AES_D(k, x)` of R8. -/
  aesD : Bytes → Block16 → Block16
  /-- `DATA_MAX` of R31: the capacity in characters of the DATA slot. -/
  dataMax : Nat
  /-- `DUKPT_STEP(key, x)` of R145: the key is the 16 bytes of `L ‖ R`. -/
  dukptStep : Bytes → Block → Block
  /-- `VARIANT_PIN`, `VARIANT_MAC`, `VARIANT_DATA` of R147. -/
  variant : Usage → Block16
  /-- `AesDukptIK(bdk, type, ksn)` of R152: total, exactly `keylen(type)` bytes. -/
  aesDukptIK : Bytes → (t : KeyType) → Bytes → Vector Byte t.keylen
  /-- `AesDukptWK(bdk, type, ksn, usage, wktype)` of R153: total, exactly `keylen(wktype)` bytes. -/
  aesDukptWK : Bytes → KeyType → Bytes → Usage → (w : KeyType) → Vector Byte w.keylen
  /-- `Rng` of R38: the value of the `n`-th draw since the model's counter was 0. -/
  rng : Nat → Fin 16

/-- All that R8 assumes of the cipher: decryption undoes encryption under the same key. -/
def Params.CipherLawful (P : Params) : Prop :=
  (∀ k x, P.desD k (P.desE k x) = x) ∧ (∀ k x, P.aesD k (P.aesE k x) = x)

/-- DES under each key: some permutation of the 8-byte blocks (R8). No body: nothing fixes which (log entry 3). It takes all
64 bits of the key: R8 assumes nothing of the parity bits, and that they do not affect a result (decision D44 beside R183)
is neither assumed nor excluded (DESIGN CHOICE, safe, log entry 20). -/
opaque Config.des : Block → Equiv.Perm Block

/-- AES under each key: some permutation of the 16-byte blocks (R8). No body: nothing fixes which (log entry 3). -/
opaque Config.aes : Bytes → Equiv.Perm Block16

/-- The free choice behind `DATA_MAX` (R31). No body (log entry 7). -/
opaque Config.dataMaxChoice : Nat

/-- `DATA_MAX` (R10, R31): some even value from 16 to 61440; every such value is `16 + 2 c` for one `c` below 30713. -/
def Config.dataMax : Nat := 16 + 2 * (Config.dataMaxChoice % 30713)

/-- `DUKPT_STEP` (R145), an OPEN parameter. No body (log entry 5). -/
opaque Config.dukptStep : Bytes → Block → Block

/-- The working-key variants (R147), parameters. No body (log entry 6). -/
opaque Config.variant : Usage → Block16

/-- `AesDukptIK` (R152), an OPEN parameter. No body (log entry 8). -/
opaque Config.aesDukptIK : Bytes → (t : KeyType) → Bytes → Vector Byte t.keylen

/-- `AesDukptWK` (R153), an OPEN parameter. No body (log entry 8). -/
opaque Config.aesDukptWK : Bytes → KeyType → Bytes → Usage → (w : KeyType) → Vector Byte w.keylen

/-- `Rng` (R38, R104): the value of each draw, under no law. No body (log entry 9). -/
opaque Config.rng : Nat → Fin 16

/-- The free choice behind `PCB_BASE` (R64). No body (log entry 14). -/
opaque Config.pcbBaseChoice : Nat

/-- `PCB_BASE` (R64): some multiple of 0x10000. -/
def Config.pcbBase : Nat := 0x10000 * Config.pcbBaseChoice

/-- The parameters the machine runs with: each an opaque constant. -/
def Config.params : Params where
  desE k x := Config.des k x
  desD k x := (Config.des k).symm x
  aesE k x := Config.aes k x
  aesD k x := (Config.aes k).symm x
  dataMax := Config.dataMax
  dukptStep := Config.dukptStep
  variant := Config.variant
  aesDukptIK := Config.aesDukptIK
  aesDukptWK := Config.aesDukptWK
  rng := Config.rng

/-- The default of `DATA_MAX` (R10, R31). -/
def defaultDataMax : Nat := 4096

/-- The default working-key variants of the table of R147 (the ANSI X9.24-1 request variants). -/
def defaultVariant : Usage → Block16
  | .pin => 0x00000000000000FF00000000000000FF#128
  | .mac => 0x000000000000FF00000000000000FF00#128
  | .data => 0x0000000000FF00000000000000FF0000#128

end Sys2Proof
end

