-- ==== Sys2Proof/Syntax.lean ====
section
/-! DEFINITION. The syntax of the block: the 43 commands of R83 (30_encoding.md), the host's bus accesses
(R62, R86) and the events of R305 that the machine consumes. -/

namespace Sys2Proof

/-- The commands, one constructor for each row of R83. A command word holds no operand (R80), so no constructor has
an argument: string operands come from the slots, numeric ones from the PARAM fields (R85). -/
inductive Instr where
  -- Control commands (44_control.md)
  /-- NOP, OPCODE 0x00, R276. -/
  | nop
  /-- ZEROIZE, OPCODE 0x01, R277. -/
  | zeroize
  -- PIN block codec (40_pin_block.md)
  /-- PIN_ENC_F0, OPCODE 0x10, R105. -/
  | pinEncF0
  /-- PIN_ENC_F1, OPCODE 0x11, R106. -/
  | pinEncF1
  /-- PIN_ENC_F2, OPCODE 0x12, R107. -/
  | pinEncF2
  /-- PIN_ENC_F3, OPCODE 0x13, R108. -/
  | pinEncF3
  /-- PIN_ENC_F4, OPCODE 0x14, R109. -/
  | pinEncF4
  /-- PIN_DEC_F0, OPCODE 0x18, R111. -/
  | pinDecF0
  /-- PIN_DEC_F1, OPCODE 0x19, R112. -/
  | pinDecF1
  /-- PIN_DEC_F2, OPCODE 0x1A, R113. -/
  | pinDecF2
  /-- PIN_DEC_F3, OPCODE 0x1B, R114. -/
  | pinDecF3
  /-- PIN_DEC_F4, OPCODE 0x1C, R115. -/
  | pinDecF4
  -- DUKPT unit (41_dukpt.md)
  /-- DUKPT_IPEK, OPCODE 0x20, R143. -/
  | dukptIpek
  /-- DUKPT_TK, OPCODE 0x21, R146. -/
  | dukptTk
  /-- DUKPT_TK_IPEK, OPCODE 0x22, R148. -/
  | dukptTkIpek
  /-- DUKPT_WK, OPCODE 0x23, R149. -/
  | dukptWk
  /-- DUKPT_KSN_INC, OPCODE 0x24, R150. -/
  | dukptKsnInc
  /-- DUKPT_AES_IK, OPCODE 0x28, R152. -/
  | dukptAesIk
  /-- DUKPT_AES_WK, OPCODE 0x29, R153. -/
  | dukptAesWk
  /-- DUKPT_AES_KSN_INC, OPCODE 0x2A, R154. -/
  | dukptAesKsnInc
  -- MAC unit (42_mac.md)
  /-- MAC_ALG1, OPCODE 0x30, R184. -/
  | macAlg1
  /-- MAC_ALG2, OPCODE 0x31, R185. -/
  | macAlg2
  /-- MAC_ALG3, OPCODE 0x32, R186. -/
  | macAlg3
  /-- MAC_X99, OPCODE 0x33, R187. -/
  | macX99
  /-- MAC_X919, OPCODE 0x34, R188. -/
  | macX919
  /-- MAC_RETAIL, OPCODE 0x35, R189. -/
  | macRetail
  /-- MAC_TDES_CBC, OPCODE 0x36, R190. -/
  | macTdesCbc
  /-- MAC_AS2805, OPCODE 0x37, R191. -/
  | macAs2805
  /-- MAC_CMAC_AES, OPCODE 0x38, R194. -/
  | macCmacAes
  /-- MAC_CMAC_TDES, OPCODE 0x39, R195. -/
  | macCmacTdes
  -- Card verification unit (43_card_verification.md)
  /-- CVV_GEN, OPCODE 0x40, R222. -/
  | cvvGen
  /-- CVV_GEN_ATC, OPCODE 0x41, R223. -/
  | cvvGenAtc
  /-- CVV_VERIFY, OPCODE 0x42, R224. -/
  | cvvVerify
  /-- CVV_VERIFY_ATC, OPCODE 0x43, R225. -/
  | cvvVerifyAtc
  /-- CSC_V1, OPCODE 0x44, R226. -/
  | cscV1
  /-- CSC_V2, OPCODE 0x45, R227. -/
  | cscV2
  /-- CVC3_GEN, OPCODE 0x48, R229. -/
  | cvc3Gen
  /-- PVV_GEN, OPCODE 0x4A, R232. -/
  | pvvGen
  /-- PVV_PIN, OPCODE 0x4B, R233. -/
  | pvvPin
  /-- IBM_OFFSET, OPCODE 0x4C, R236. -/
  | ibmOffset
  /-- IBM_OFFSET_MASK, OPCODE 0x4D, R237. -/
  | ibmOffsetMask
  /-- IBM_PIN, OPCODE 0x4E, R238. -/
  | ibmPin
  /-- IBM_PIN_MASK, OPCODE 0x4F, R239. -/
  | ibmPinMask
  deriving DecidableEq, Repr

/-- What a host access does (R86): read, or write the 32-bit value. -/
inductive AccessKind where
  | read
  | write (value : Word)
  deriving DecidableEq, Repr

/-- One host access of the window (R60, R62): its width in bytes, its offset from PCB_BASE, its kind. -/
structure Access where
  width : Nat
  offset : BitVec 16
  kind : AccessKind
  deriving DecidableEq, Repr

/-- The machine form `WR offset, value` (R86): `MemWrite(PCB_BASE + offset, 4, value)`. -/
def wr (offset : BitVec 16) (value : Word) : Access := ⟨4, offset, .write value⟩

/-- The machine form `RD offset` (R86): `MemRead(PCB_BASE + offset, 4)`. -/
def rd (offset : BitVec 16) : Access := ⟨4, offset, .read⟩

/-- What can happen next at the block, in the total order of R69 and R305: a host access (its issue, its ignored CMD
write and its bus error among them), a turn of the command engine (R272), or the one reset (R340). -/
inductive Event where
  | access (a : Access)
  | engine
  | reset
  deriving DecidableEq, Repr

end Sys2Proof
end

