-- ==== Sys2Proof/WellFormed.lean ====
section
/-! DEFINITION. The well-formedness checks of the syntax: which OPCODE values are legal (R82, R84, 30_encoding.md),
which command words are (R82), which host accesses are accepted (R62, 20_memory.md) and which parameters are legal
(R10, 00_scope.md). A command itself has no
operand field (R80), so every term of `Instr` is well formed and no check on it is needed. -/

namespace Sys2Proof

/-- The illegal OPCODE ranges as R84 lists them, lowest and highest value of each. -/
def illegalOpcodeRanges : List (Nat × Nat) :=
  [(0x02, 0x0F), (0x15, 0x17), (0x1D, 0x1F), (0x25, 0x27), (0x2B, 0x2F), (0x3A, 0x3F), (0x46, 0x47), (0x49, 0x49),
   (0x50, 0xFF)]

/-- An OPCODE value outside every illegal range of R84. -/
def legalOpcode (op : Byte) : Bool :=
  illegalOpcodeRanges.all fun r => !(decide (r.1 ≤ op.toNat) && decide (op.toNat ≤ r.2))

/-- R82: a command word is legal exactly when RSVD (bits 31:8) is 0 and its OPCODE is legal. -/
def legalCommandWord (w : Word) : Bool :=
  decide (w.toNat / 256 = 0) && legalOpcode (w.setWidth 8)

/-- R62: the window accepts only 32-bit accesses at offsets that are multiples of 4. -/
def Access.accepted (a : Access) : Bool :=
  decide (a.width = 4) && decide (a.offset.toNat % 4 = 0)

/-- R10, R31: `DATA_MAX` is even and lies in 16 to 61440. -/
def legalDataMax (n : Nat) : Bool :=
  decide (n % 2 = 0) && decide (16 ≤ n) && decide (n ≤ 61440)

end Sys2Proof
end

