-- ==== Sys2Proof/Decode.lean ====
section
/-! DEFINITION. The command decoder and, after it, the encoder (30_encoding.md R80 to R84). A command is one 32-bit
word: OPCODE in bits 7:0, the reserved bits 31:8 zero. Decoding is total on any bytes and refuses by name. -/

namespace Sys2Proof

/-- Why bytes are no legal command (R82). -/
inductive DecodeError where
  /-- Fewer than the four bytes of a command word (R81). -/
  | truncated
  /-- A nonzero bit in RSVD, bits 31:8 (R80, R82). -/
  | reservedBitsSet
  /-- An OPCODE value that R83 does not list. -/
  | unlistedOpcode (op : Byte)
  deriving DecidableEq, Repr

/-- The OPCODE field, bits 7:0 (R80). -/
def opcodeField (w : Word) : Byte := w.extractLsb' 0 8

/-- The RSVD field, bits 31:8 (R80). -/
def rsvdField (w : Word) : BitVec 24 := w.extractLsb' 8 24

/-- The opcode map of R83. -/
def opcodeTable : List (Nat × Instr) := [
  (0x00, .nop),
  (0x01, .zeroize),
  (0x10, .pinEncF0),
  (0x11, .pinEncF1),
  (0x12, .pinEncF2),
  (0x13, .pinEncF3),
  (0x14, .pinEncF4),
  (0x18, .pinDecF0),
  (0x19, .pinDecF1),
  (0x1A, .pinDecF2),
  (0x1B, .pinDecF3),
  (0x1C, .pinDecF4),
  (0x20, .dukptIpek),
  (0x21, .dukptTk),
  (0x22, .dukptTkIpek),
  (0x23, .dukptWk),
  (0x24, .dukptKsnInc),
  (0x28, .dukptAesIk),
  (0x29, .dukptAesWk),
  (0x2A, .dukptAesKsnInc),
  (0x30, .macAlg1),
  (0x31, .macAlg2),
  (0x32, .macAlg3),
  (0x33, .macX99),
  (0x34, .macX919),
  (0x35, .macRetail),
  (0x36, .macTdesCbc),
  (0x37, .macAs2805),
  (0x38, .macCmacAes),
  (0x39, .macCmacTdes),
  (0x40, .cvvGen),
  (0x41, .cvvGenAtc),
  (0x42, .cvvVerify),
  (0x43, .cvvVerifyAtc),
  (0x44, .cscV1),
  (0x45, .cscV2),
  (0x48, .cvc3Gen),
  (0x4A, .pvvGen),
  (0x4B, .pvvPin),
  (0x4C, .ibmOffset),
  (0x4D, .ibmOffsetMask),
  (0x4E, .ibmPin),
  (0x4F, .ibmPinMask)]

/-- R82, R273: a command word is legal exactly when RSVD is 0 and OPCODE is listed; nothing falls back to another
operation. -/
def decodeWord (w : Word) : Except DecodeError Instr :=
  if rsvdField w = 0 then
    match opcodeTable.lookup (opcodeField w).toNat with
    | some i => .ok i
    | none => .error (.unlistedOpcode (opcodeField w))
  else .error .reservedBitsSet

/-- The bus word of four bytes, the first at bits 7:0 (20_memory.md R61). -/
def wordOfBytes (b0 b1 b2 b3 : Byte) : Word := b3 ++ b2 ++ b1 ++ b0

/-- The four bytes of a bus word, bits 7:0 first (20_memory.md R61). -/
def bytesOfWord (w : Word) : List Byte :=
  [w.extractLsb' 0 8, w.extractLsb' 8 8, w.extractLsb' 16 8, w.extractLsb' 24 8]

/-- The decoder on bytes as the bus carries them: every command is four bytes (R81); what follows is left over. -/
def decode : List Byte → Except DecodeError (Instr × List Byte)
  | b0 :: b1 :: b2 :: b3 :: rest =>
    match decodeWord (wordOfBytes b0 b1 b2 b3) with
    | .ok i => .ok (i, rest)
    | .error e => .error e
  | _ => .error .truncated

/-- The OPCODE of each command, from the first column of R83. -/
def Instr.opcode : Instr → Byte
  | .nop => 0x00#8
  | .zeroize => 0x01#8
  | .pinEncF0 => 0x10#8
  | .pinEncF1 => 0x11#8
  | .pinEncF2 => 0x12#8
  | .pinEncF3 => 0x13#8
  | .pinEncF4 => 0x14#8
  | .pinDecF0 => 0x18#8
  | .pinDecF1 => 0x19#8
  | .pinDecF2 => 0x1A#8
  | .pinDecF3 => 0x1B#8
  | .pinDecF4 => 0x1C#8
  | .dukptIpek => 0x20#8
  | .dukptTk => 0x21#8
  | .dukptTkIpek => 0x22#8
  | .dukptWk => 0x23#8
  | .dukptKsnInc => 0x24#8
  | .dukptAesIk => 0x28#8
  | .dukptAesWk => 0x29#8
  | .dukptAesKsnInc => 0x2A#8
  | .macAlg1 => 0x30#8
  | .macAlg2 => 0x31#8
  | .macAlg3 => 0x32#8
  | .macX99 => 0x33#8
  | .macX919 => 0x34#8
  | .macRetail => 0x35#8
  | .macTdesCbc => 0x36#8
  | .macAs2805 => 0x37#8
  | .macCmacAes => 0x38#8
  | .macCmacTdes => 0x39#8
  | .cvvGen => 0x40#8
  | .cvvGenAtc => 0x41#8
  | .cvvVerify => 0x42#8
  | .cvvVerifyAtc => 0x43#8
  | .cscV1 => 0x44#8
  | .cscV2 => 0x45#8
  | .cvc3Gen => 0x48#8
  | .pvvGen => 0x4A#8
  | .pvvPin => 0x4B#8
  | .ibmOffset => 0x4C#8
  | .ibmOffsetMask => 0x4D#8
  | .ibmPin => 0x4E#8
  | .ibmPinMask => 0x4F#8

/-- The command word of a command (R80): its OPCODE in bits 7:0, RSVD zero. -/
def encodeWord (i : Instr) : Word := i.opcode.setWidth 32

/-- The bytes of a command word in bus order (20_memory.md R61). -/
def encode (i : Instr) : List Byte := bytesOfWord (encodeWord i)

/-- The command read from the table's bits `w`, of which the lowest `nbits` count: the word is laid out as the bus
carries it and given to the decoder. -/
def decodeTableWord (nbits w : Nat) : Option Instr :=
  match decode (bytesOfWord (BitVec.ofNat 32 (w % 2 ^ nbits))) with
  | .ok (i, _) => some i
  | .error _ => none

end Sys2Proof
end

