-- ==== Sys2Proof/Machine/State.lean ====
section
/-! DEFINITION. The state of the block: every register and buffer of R22 (10_state.md), the snapshot of R36, and
three fields of the model's own (the events still to come, the draw counter, the last bus response). All plain data. -/

namespace Sys2Proof.Machine

/-- The error codes of R300 (60_exceptions.md) by name; their numbers are `ErrCode.code`. -/
inductive ErrCode where
  | invalidPinLength | invalidPanLength | invalidFormatTag | invalidPinBlockLength | invalidKeyLength
  | invalidKsnLength | emptyData | invalidTruncation | invalidPvki | invalidDecimalizationTable | invalidMask
  | invalidCharacter | invalidParameter | invalidFieldLength | invalidDataLength | invalidPinDigit
  | counterExhausted | illegalCommand
  deriving DecidableEq, Repr

/-- Byte storage of the window by offset (R22): RESULT and the slots' data. Canonical form: offsets strictly rising,
no entry 0x00. An unlisted byte reads 0x00, the reset content of R340. -/
abbrev Memory := List Host.Cell

/-- The canonical form of `Memory`. -/
abbrev Memory.wf (m : Memory) : Prop :=
  m.Pairwise (fun c d => c.1 < d.1) ∧ ∀ c ∈ m, c.2 ≠ 0#8

/-- STATUS by its fields (R24). The reserved bits read 0 and are held nowhere. -/
structure Status where
  busy : Bool
  done : Bool
  err : Bool
  /-- The field MATCH of R24. -/
  matched : Bool
  overrun : Bool
  errcode : Byte
  lastOp : Byte
  deriving DecidableEq, Repr

/-- SNAP of R36 and R270 (44_control.md): what a command reads. `data` holds the operand bytes of every slot under
their window offsets. -/
structure Snap where
  word : Word
  param0 : Word
  param1 : Word
  param2 : Word
  slotLen : Vector Word 15
  data : Memory
  deriving DecidableEq, Repr

/-- What a host access is answered (R62, R63, R65): read data, a write taken or ignored without error, or a bus
error with its read data 0x00000000. -/
inductive BusResponse where
  | data (value : Word)
  | written
  | busError (value : Word)
  deriving DecidableEq, Repr

/-- The state of the block. ID (R27) is hard-wired and stands in the read operation. -/
structure State where
  /-- CMD (R23). -/
  cmd : Word
  /-- STATUS (R24). -/
  status : Status
  /-- PARAM0 (R25). -/
  param0 : Word
  /-- PARAM1 (R26). -/
  param1 : Word
  /-- PARAM2 (R28). -/
  param2 : Word
  /-- RESULT_LEN (R29). -/
  resultLen : Word
  /-- RESULT_AUX (R35). -/
  resultAux : Word
  /-- SLOT_LEN[0] to SLOT_LEN[14] (R33). -/
  slotLen : Vector Word 15
  /-- RESULT (R29) and slot data (R30, R31), by window offset. -/
  mem : Memory
  /-- SNAP (R36): present only while a command is in flight. -/
  snap : Option Snap
  /-- The model's own: how many values `Rng` has given (log entry 9). -/
  draws : Nat
  /-- The model's own: the events still to come, in bus order (log entry 1). -/
  events : List Event
  /-- The model's own: what the last host access was answered (log entry 11). -/
  response : Option BusResponse
  deriving DecidableEq, Repr

/-- Why the machine stops with a fault. -/
inductive Fault where
  /-- Raised by a meaning asked to complete a command where SNAP is absent: the spec enables the completion step only
  while BUSY = 1 (R272), when SNAP exists (R36). Safe: the model stops where the spec gives no behaviour (log entry
  12). -/
  | noCommandInFlight
  deriving DecidableEq, Repr

/-- Why a step has no meaning. -/
inductive Refusal where
  /-- Raised by `exec` for a command that has no meaning yet. Safe: the model stops. No arm raises it. -/
  | notModelled (mnemonic : String)
  deriving DecidableEq, Repr

/-- STATUS after reset (R340): 0x00000000. -/
def Status.reset : Status where
  busy := false
  done := false
  err := false
  matched := false
  overrun := false
  errcode := 0x00#8
  lastOp := 0x00#8

/-- The state after reset (R340, 70_reset_and_hazards.md): every register 0, every byte 0x00, SNAP absent. The
model's own fields start at 0 draws, no event and no response (DESIGN CHOICE, log entries 1, 9 and 11). -/
def State.reset : State where
  cmd := 0x00000000#32
  status := Status.reset
  param0 := 0x00000000#32
  param1 := 0x00000000#32
  param2 := 0x00000000#32
  resultLen := 0x00000000#32
  resultAux := 0x00000000#32
  slotLen := Vector.replicate 15 0x00000000#32
  mem := []
  snap := none
  draws := 0
  events := []
  response := none

end Sys2Proof.Machine
end

