-- ==== Sys2Proof/Machine/Memory.lean ====
section
/-! DEFINITION. The operations over the window's byte storage (R22, R61, R340): read one byte, write one byte or
several in canonical form, clear or keep a set of offsets. -/

namespace Sys2Proof.Machine

/-- The byte at an offset; an unlisted byte is 0x00 (R340). -/
def Memory.read : Memory → Nat → Byte
  | [], _ => 0#8
  | c :: m, a => if c.1 = a then c.2 else Memory.read m a

/-- Store one byte and keep the canonical form: a zero byte is not listed. -/
def Memory.write : Memory → Nat → Byte → Memory
  | [], a, b => if b = 0#8 then [] else [(a, b)]
  | c :: m, a, b =>
    if a < c.1 then (if b = 0#8 then c :: m else (a, b) :: c :: m)
    else if a = c.1 then (if b = 0#8 then m else (a, b) :: m)
    else c :: Memory.write m a b

/-- Store consecutive bytes from an offset on. -/
def Memory.writeBytes (m : Memory) (a : Nat) : List Byte → Memory
  | [] => m
  | b :: bs => Memory.writeBytes (Memory.write m a b) (a + 1) bs

/-- Set to 0x00 every byte whose offset satisfies `p`. -/
def Memory.clear (m : Memory) (p : Nat → Bool) : Memory :=
  m.filter fun c => !p c.1

/-- Keep only the bytes whose offset satisfies `p`; the others read 0x00. -/
def Memory.keep (m : Memory) (p : Nat → Bool) : Memory :=
  m.filter fun c => p c.1

end Sys2Proof.Machine
end

