-- ==== Sys2Proof/Machine/Flags.lean ====
section
/-! DEFINITION. STATUS (R24, 10_state.md): its layout as a 32-bit register, what each event of R270, R272 and R274
(44_control.md) writes into it, and the numbers of the error codes (R300, 60_exceptions.md). No command reads a flag
(R39). -/

namespace Sys2Proof.Machine

/-- `code(E)` of R300. -/
def ErrCode.code : ErrCode → Byte
  | .invalidPinLength => 0x01#8
  | .invalidPanLength => 0x02#8
  | .invalidFormatTag => 0x03#8
  | .invalidPinBlockLength => 0x04#8
  | .invalidKeyLength => 0x05#8
  | .invalidKsnLength => 0x06#8
  | .emptyData => 0x07#8
  | .invalidTruncation => 0x08#8
  | .invalidPvki => 0x09#8
  | .invalidDecimalizationTable => 0x0A#8
  | .invalidMask => 0x0B#8
  | .invalidCharacter => 0x10#8
  | .invalidParameter => 0x11#8
  | .invalidFieldLength => 0x12#8
  | .invalidDataLength => 0x13#8
  | .invalidPinDigit => 0x14#8
  | .counterExhausted => 0x15#8
  | .illegalCommand => 0x1F#8

/-- The error classes of R301; the class is not encoded in STATUS. -/
inductive ErrClass where
  | input | range | mismatch | command
  deriving DecidableEq, Repr

/-- The classes each code belongs to, by the table of R300 (E_INVALID_PIN_LENGTH stands in two of them). -/
def ErrCode.classes : ErrCode → List ErrClass
  | .invalidPinLength => [.input, .mismatch]
  | .invalidFormatTag | .invalidPinDigit => [.mismatch]
  | .invalidTruncation | .invalidPvki | .invalidParameter | .counterExhausted => [.range]
  | .illegalCommand => [.command]
  | .invalidPanLength | .invalidPinBlockLength | .invalidKeyLength | .invalidKsnLength | .emptyData
  | .invalidDecimalizationTable | .invalidMask | .invalidCharacter | .invalidFieldLength | .invalidDataLength =>
    [.input]

/-- STATUS as the host reads it (R24): BUSY bit 0, DONE 1, ERR 2, MATCH 3, OVERRUN 4, bits 7:5 zero, ERRCODE 15:8,
LAST_OP 23:16, bits 31:24 zero. -/
def Status.toWord (t : Status) : Word :=
  0#8 ++ t.lastOp ++ t.errcode ++ 0#3 ++ BitVec.ofBool t.overrun ++ BitVec.ofBool t.matched ++ BitVec.ofBool t.err
    ++ BitVec.ofBool t.done ++ BitVec.ofBool t.busy

/-- STATUS at the issue of a command whose OPCODE field is `op` (R270): ERR, ERRCODE and MATCH are cleared, as R24 says
too; the words of R350 that they keep the previous command's values while BUSY = 1 are not followed (DEDUCED, unsafe, log
entry 19). -/
def Status.issued (op : Byte) : Status where
  busy := true
  done := false
  err := false
  matched := false
  overrun := false
  errcode := 0x00#8
  lastOp := op

/-- STATUS at a completion without error (R272); OVERRUN and LAST_OP stay. -/
def Status.completedOk (t : Status) (matched : Bool) : Status :=
  { t with busy := false, done := true, err := false, errcode := 0x00#8, matched := matched }

/-- STATUS at a completion with an error (R272, R302); OVERRUN and LAST_OP stay. -/
def Status.completedErr (t : Status) (e : ErrCode) : Status :=
  { t with busy := false, done := true, err := true, errcode := e.code, matched := false }

/-- STATUS at a CMD write that is not accepted (R274). -/
def Status.overran (t : Status) : Status :=
  { t with overrun := true }

end Sys2Proof.Machine
end

