-- ==== Sys2Proof/Machine/Operands.lean ====
section
/-! DEFINITION. Operands and notation: the conversions of R13, R14 and R16 (00_scope.md), the slots of R30 to R32 and
the check of R34 (10_state.md), the PARAM fields of R25, R26 and R28, the codes of R18 and R19. -/

namespace Sys2Proof.Machine

/-! ## Characters and bytes (R13, R14, R16) -/

/-- `hexchar(v)` of R13 for `v` in 0 to 15. -/
def hexchar (v : Nat) : Byte := BitVec.ofNat 8 (if v < 10 then 0x30 + v else 0x37 + v)

/-- `val(c)` of R13 for a hex character. -/
def val (c : Byte) : Nat := if c.toNat < 0x41 then c.toNat - 0x30 else c.toNat - 0x37

/-- `digit(c)` of R16. -/
def digit (c : Byte) : Nat := c.toNat - 0x30

/-- `dchar(v)` of R16. -/
def dchar (v : Nat) : Byte := BitVec.ofNat 8 (0x30 + v)

/-- The set DEC of R34. -/
def isDec (c : Byte) : Bool := decide (0x30 ≤ c.toNat) && decide (c.toNat ≤ 0x39)

/-- The set HEX of R34: upper case only. -/
def isHex (c : Byte) : Bool := isDec c || (decide (0x41 ≤ c.toNat) && decide (c.toNat ≤ 0x46))

/-- The character `N` of a mask (R235). -/
def charN : Byte := 0x4E#8

/-- The set MASKSET of R34. -/
def isMask (c : Byte) : Bool := isDec c || decide (c = charN)

/-- `right_n(s)` of R13: the last `n` characters of `'0'^n ‖ s`. -/
def right (n : Nat) (s : Chars) : Chars := (List.replicate n (dchar 0) ++ s).drop s.length

/-- `bytes(h)` of R14: byte `i` is `16 val(h[2i]) + val(h[2i+1])`. -/
def bytes : Chars → Bytes
  | a :: b :: h => BitVec.ofNat 8 (16 * val a + val b) :: bytes h
  | _ => []

/-- `hex(b)` of R14, always upper case. -/
def hex : Bytes → Chars
  | [] => []
  | b :: bs => hexchar (b.toNat / 16) :: hexchar (b.toNat % 16) :: hex bs

/-- The integer of a byte string, byte 0 the most significant (R14). -/
def intOf (bs : Bytes) : Nat := bs.foldl (fun v b => v * 256 + b.toNat) 0

/-- The `n`-byte big-endian representation of an integer (`bytes_8n` of R14). -/
def bytesOf (n v : Nat) : Bytes := (List.range n).map fun i => BitVec.ofNat 8 (v >>> (8 * (n - 1 - i)))

/-- A byte string as a bit vector of `w` bits (`int_w` of R14). -/
def toBits (w : Nat) (bs : Bytes) : BitVec w := BitVec.ofNat w (intOf bs)

/-- A bit vector as `w / 8` bytes, the most significant first (R14). -/
def ofBits {w : Nat} (x : BitVec w) : Bytes := bytesOf (w / 8) x.toNat

/-- A bit vector as `w / 4` hex characters, the most significant first (R14). -/
def hexBits {w : Nat} (x : BitVec w) : Chars := hex (ofBits x)

/-- XOR of two hex strings of equal length, nibblewise (R14). -/
def xorHex (a b : Chars) : Chars := List.zipWith (fun x y => hexchar (val x ^^^ val y)) a b

/-- XOR of two byte strings of equal length (R14). -/
def xorBytes (a b : Bytes) : Bytes := List.zipWith (· ^^^ ·) a b

/-- `dchar((a_i + b_i) mod 10)` for each position (R16). -/
def addDigits (a b : Chars) : Chars := List.zipWith (fun x y => dchar ((digit x + digit y) % 10)) a b

/-- `dchar((a_i − b_i + 10) mod 10)` for each position (R16). -/
def subDigits (a b : Chars) : Chars := List.zipWith (fun x y => dchar ((digit x + 10 - digit y) % 10)) a b

/-! ## Slots (R30 to R33) -/

/-- A slot number, 0 to 14 (R30). -/
abbrev Slot := Fin 15

abbrev Slot.key : Slot := 0
abbrev Slot.ksn : Slot := 1
abbrev Slot.pan : Slot := 2
abbrev Slot.pin : Slot := 3
abbrev Slot.pinblk : Slot := 4
abbrev Slot.exp : Slot := 5
abbrev Slot.svc : Slot := 6
abbrev Slot.atc : Slot := 7
abbrev Slot.un : Slot := 8
abbrev Slot.psn : Slot := 9
abbrev Slot.track : Slot := 10
abbrev Slot.check : Slot := 11
abbrev Slot.dectab : Slot := 12
abbrev Slot.mask : Slot := 13
abbrev Slot.data : Slot := 14

/-- `cap(s)` of the table of R30; DATA's is the parameter DATA_MAX (R31). -/
def cap (P : Params) (s : Slot) : Nat :=
  match s.val with
  | 0 => 64
  | 1 => 24
  | 2 => 19
  | 3 => 12
  | 4 => 32
  | 5 => 4
  | 6 => 3
  | 7 => 4
  | 8 => 8
  | 9 => 2
  | 10 => 64
  | 11 => 12
  | 12 => 16
  | 13 => 16
  | _ => P.dataMax

/-- The window offset of character 0 of a slot (R30, R31). -/
def slotBase (s : Slot) : Nat := if s = Slot.data then 0x1000 else 0x200 + 0x40 * s.val

/-- The offsets of slot data (R22): 64 bytes for each of slots 0 to 13, DATA_MAX bytes for slot 14. -/
def isSlotByte (P : Params) (a : Nat) : Bool :=
  (decide (0x200 ≤ a) && decide (a < 0x580)) || (decide (0x1000 ≤ a) && decide (a < 0x1000 + P.dataMax))

/-- The offsets of the bytes a snapshot holds (R270): the first `cap(s)` bytes of each slot. -/
def isOperandByte (P : Params) (a : Nat) : Bool :=
  (decide (0x200 ≤ a) && decide (a < 0x580)
      && decide ((a - 0x200) % 0x40 < cap P (Fin.ofNat 15 ((a - 0x200) / 0x40))))
    || (decide (0x1000 ≤ a) && decide (a < 0x1000 + P.dataMax))

/-- `SNAP.SLOT_LEN[s]` as a number (R32, R33). -/
def Snap.len (n : Snap) (s : Slot) : Nat := (n.slotLen.get s).toNat

/-- The first `k` characters of a slot in the snapshot (R30). -/
def Snap.chars (n : Snap) (s : Slot) (k : Nat) : Chars :=
  (List.range k).map fun i => Memory.read n.data (slotBase s + i)

/-- `slot(s)` of R32: the operand string, or `none` for INVALID. -/
def slot (P : Params) (n : Snap) (s : Slot) : Option Chars :=
  if n.len s ≤ cap P s then some (n.chars s (n.len s)) else none

/-! ## Checks (R15, R34) -/

/-- `require c else e` of R15. -/
def require (c : Bool) (e : ErrCode) : Except ErrCode Unit := if c then .ok () else .error e

/-- The lengths `{lo..hi}`. -/
def between (lo hi n : Nat) : Bool := decide (lo ≤ n) && decide (n ≤ hi)

/-- The lengths of a finite list. -/
def oneOf (ls : List Nat) (n : Nat) : Bool := ls.contains n

/-- `field(s, Ls, CS, E_len)` of R34: the length first, then the characters. An INVALID slot fails the length check
(R32). -/
def field (P : Params) (n : Snap) (s : Slot) (lens : Nat → Bool) (set : Byte → Bool) (eLen : ErrCode) :
    Except ErrCode Chars :=
  match slot P n s with
  | none => .error eLen
  | some str =>
    if lens (n.len s) then (if str.all set then .ok str else .error .invalidCharacter) else .error eLen

/-! ## PARAM fields (R25, R26, R28, R85) and their codes (R18, R19) -/

/-- The 8-bit field of a PARAM register at bit `lo`, zero-extended (R85). -/
def byteField (w : Word) (lo : Nat) : Nat := (w.extractLsb' lo 8).toNat

/-- PARAM0[7:0] (R25). -/
def Snap.trunc (n : Snap) : Nat := byteField n.param0 0
/-- PARAM0[15:8] (R25). -/
def Snap.pvki (n : Snap) : Nat := byteField n.param0 8
/-- PARAM0[23:16] (R25). -/
def Snap.start (n : Snap) : Nat := byteField n.param0 16
/-- PARAM0[31:24] (R25). -/
def Snap.length (n : Snap) : Nat := byteField n.param0 24
/-- PARAM1[7:0] (R26). -/
def Snap.pinlen (n : Snap) : Nat := byteField n.param1 0
/-- PARAM1[15:8] (R26): an ASCII code (R85). -/
def Snap.padchar (n : Snap) : Byte := n.param1.extractLsb' 8 8
/-- PARAM1[23:16] (R26). -/
def Snap.keytype (n : Snap) : Nat := byteField n.param1 16
/-- PARAM1[31:24] (R26). -/
def Snap.usage (n : Snap) : Nat := byteField n.param1 24
/-- PARAM2[7:0] (R28). -/
def Snap.padmethod (n : Snap) : Nat := byteField n.param2 0
/-- PARAM2[15:8] (R28). -/
def Snap.wktype (n : Snap) : Nat := byteField n.param2 8

/-- The key type of a code (R18). -/
def keyTypeOf (code : Nat) : Option KeyType :=
  match code with
  | 0 => some .tdea2
  | 1 => some .tdea3
  | 2 => some .aes128
  | 3 => some .aes192
  | 4 => some .aes256
  | _ => none

/-- The key types R152 and R153 accept for a base derivation key: AES-128, AES-192, AES-256. -/
def aesTypeOf (code : Nat) : Option KeyType :=
  match code with
  | 2 => some .aes128
  | 3 => some .aes192
  | 4 => some .aes256
  | _ => none

/-- The usage of a code (R19). -/
def usageOf (code : Nat) : Option Usage :=
  match code with
  | 0 => some .pin
  | 1 => some .mac
  | 2 => some .data
  | _ => none

/-- `require` a code to stand for something, else `E_INVALID_PARAMETER` (R149, R152, R153). -/
def requireCode {α : Type} : Option α → Except ErrCode α
  | some a => .ok a
  | none => .error .invalidParameter

end Sys2Proof.Machine
end

