-- ==== Sys2Proof/Machine/Ops.lean ====
section
/-! DEFINITION. The operations every command and every host access share: completion with a result or with an error
(R272, R302), the frame of a command (R272), issue (R270), the ignored CMD write (R274), the window's reads and writes
(R61 to R65), the reset (R340, R342), and the fetch of the command in flight (R273).

The error completion is this block's analogue of taking an exception (R307): no state is saved, no mode or vector
exists, and there is no return from it (R308). -/

namespace Sys2Proof.Machine

/-! ## Completion (R272) -/

/-- What a command that ends without error delivers: `ok(r, aux)` of R15, the comparison of a verify command
(R224; false for every other command), and how many values it drew from `Rng`. -/
structure Answer where
  result : Chars
  aux : Word := 0#32
  matched : Bool := false
  drawn : Nat := 0
  deriving DecidableEq, Repr

/-- The offsets of the RESULT buffer (R22, R29). -/
def isResultByte (a : Nat) : Bool := decide (0x100 ≤ a) && decide (a < 0x180)

/-- RESULT holds `r` from offset 0x100 on and 0x00 beyond it (R29, R272). -/
def Memory.setResult (m : Memory) (r : Chars) : Memory :=
  (m.clear isResultByte).writeBytes 0x100 (r.take 128)

/-- The outcome `ok(r, aux)` of R272. -/
def State.completeOk (s : State) (a : Answer) : State :=
  { s with
    mem := s.mem.setResult a.result
    resultLen := BitVec.ofNat 32 a.result.length
    resultAux := a.aux
    status := s.status.completedOk a.matched
    snap := none
    draws := s.draws + a.drawn }

/-- The outcome `raise E` of R272: RESULT zeroed, RESULT_LEN and RESULT_AUX 0, STATUS.ERR and ERRCODE set. -/
def State.completeErr (s : State) (e : ErrCode) : State :=
  { s with
    mem := s.mem.setResult []
    resultLen := 0#32
    resultAux := 0#32
    status := s.status.completedErr e
    snap := none }

/-- Either outcome of R272. -/
def State.complete (s : State) : Except ErrCode Answer → State
  | .ok a => s.completeOk a
  | .error e => s.completeErr e

/-- A command: its rule computes the outcome from the snapshot alone (R272, R279) and the completion step writes it.
Without a snapshot no command is in flight and the step is not enabled. -/
def command (rule : Snap → Except ErrCode Answer) (s : State) : Host.Outcome State Fault Refusal :=
  match s.snap with
  | none => .fault .noCommandInFlight
  | some n => .next (s.complete (rule n))

/-! ## Issue (R270), the ignored CMD write (R274), reset (R340) -/

/-- The snapshot taken at issue (R270). -/
def State.snapshot (P : Params) (s : State) (w : Word) : Snap where
  word := w
  param0 := s.param0
  param1 := s.param1
  param2 := s.param2
  slotLen := s.slotLen
  data := s.mem.keep (isOperandByte P)

/-- Command issue (R270): every word is accepted, legal or not. -/
def State.issue (P : Params) (s : State) (w : Word) : State :=
  { s with
    cmd := w
    snap := some (s.snapshot P w)
    status := Status.issued (opcodeField w) }

/-- A write of CMD: issue while BUSY = 0, else ignored but for OVERRUN (R23, R270, R274). -/
def State.writeCmd (P : Params) (s : State) (w : Word) : State :=
  if s.status.busy then { s with status := s.status.overran } else s.issue P w

/-- The reset (R340, R342): the block's state is the reset state, whatever was in flight. The model's own fields
stay: the events still to come, the draws already taken, the last response (log entry 16). -/
def State.resetBlock (s : State) : State :=
  { State.reset with draws := s.draws, events := s.events, response := s.response }

/-- The slot data and registers ZEROIZE clears (R277): every byte of slot data, every SLOT_LEN, PARAM0 to PARAM2. -/
def State.zeroizeOperands (P : Params) (s : State) : State :=
  { s with
    mem := s.mem.clear (isSlotByte P)
    slotLen := Vector.replicate 15 0#32
    param0 := 0#32
    param1 := 0#32
    param2 := 0#32 }

/-! ## The register window (R22, R61 to R65) -/

/-- What stands at a word offset of the window (R22). -/
inductive Target where
  | cmd | status | param0 | param1 | param2 | resultLen | resultAux | id
  | slotLen (s : Slot)
  | buffer
  | reserved
  deriving DecidableEq, Repr

/-- The register map of R22 for a word-aligned offset. -/
def targetOf (off : Nat) : Target :=
  if off = 0x000 then .cmd
  else if off = 0x004 then .status
  else if off = 0x008 then .param0
  else if off = 0x00C then .param1
  else if off = 0x010 then .param2
  else if off = 0x014 then .resultLen
  else if off = 0x018 then .resultAux
  else if off = 0x01C then .id
  else if off < 0x040 then .reserved
  else if off < 0x07C then .slotLen (Fin.ofNat 15 ((off - 0x040) / 4))
  else if off < 0x100 then .reserved
  else if off < 0x180 then .buffer
  else if off < 0x200 then .reserved
  else if off < 0x580 then .buffer
  else if off < 0x1000 then .reserved
  else .buffer

/-- The value of ID (R3, R27): "HSK1". -/
def idValue : Word := 0x48534B31#32

/-- One byte of a buffer as the window shows it: a stored byte, or 0x00 at a reserved offset (R63). -/
def State.windowByte (P : Params) (s : State) (a : Nat) : Byte :=
  if isResultByte a || isSlotByte P a then Memory.read s.mem a else 0#8

/-- Four bytes of a buffer as one bus word, the byte of lowest offset in bits 7:0 (R61). -/
def State.bufferWord (P : Params) (s : State) (a : Nat) : Word :=
  wordOfBytes (s.windowByte P a) (s.windowByte P (a + 1)) (s.windowByte P (a + 2)) (s.windowByte P (a + 3))

/-- An accepted 32-bit read (R22, R61, R63). It changes nothing (R65). -/
def State.readWord (P : Params) (s : State) (off : Nat) : Word :=
  match targetOf off with
  | .cmd => s.cmd
  | .status => s.status.toWord
  | .param0 => s.param0
  | .param1 => s.param1
  | .param2 => s.param2
  | .resultLen => s.resultLen
  | .resultAux => s.resultAux
  | .id => idValue
  | .slotLen k => s.slotLen.get k
  | .buffer => s.bufferWord P off
  | .reserved => 0#32

/-- Store one byte where slot data stands; RESULT and reserved offsets ignore the write (R63). -/
def Memory.hostWrite (P : Params) (m : Memory) (a : Nat) (b : Byte) : Memory :=
  if isSlotByte P a then m.write a b else m

/-- Store the four bytes of a bus word, bits 7:0 at the lowest offset (R61), where slot data stands (R63). -/
def State.writeBuffer (P : Params) (s : State) (a : Nat) (v : Word) : State :=
  { s with
    mem :=
      (((s.mem.hostWrite P a (v.extractLsb' 0 8)).hostWrite P (a + 1) (v.extractLsb' 8 8)).hostWrite P (a + 2)
        (v.extractLsb' 16 8)).hostWrite P (a + 3) (v.extractLsb' 24 8) }

/-- An accepted 32-bit write (R22, R23, R63, R65). -/
def State.writeWord (P : Params) (s : State) (off : Nat) (v : Word) : State :=
  match targetOf off with
  | .cmd => s.writeCmd P v
  | .param0 => { s with param0 := v }
  | .param1 => { s with param1 := v }
  | .param2 => { s with param2 := v }
  | .slotLen k => { s with slotLen := s.slotLen.set k.val v k.isLt }
  | .buffer => s.writeBuffer P off v
  | .status | .resultLen | .resultAux | .id | .reserved => s

/-- Keep what the access is answered (the model's own field, log entry 11). -/
def State.respond (s : State) (r : BusResponse) : State := { s with response := some r }

/-- One host access (R62, R65, R317): a bus error that changes nothing unless it is 32 bits wide and word aligned. -/
def State.access (P : Params) (s : State) (a : Access) : State :=
  if a.accepted then
    match a.kind with
    | .read => s.respond (.data (s.readWord P a.offset.toNat))
    | .write v => (s.writeWord P a.offset.toNat v).respond .written
  else s.respond (.busError 0#32)

/-- The offset in the window of a bus address (R60, R64): none for an address that is not the block's. -/
def windowOffset (address : Nat) : Option (BitVec 16) :=
  if Config.pcbBase ≤ address ∧ address < Config.pcbBase + 0x10000 then
    some (BitVec.ofNat 16 (address - Config.pcbBase))
  else none

/-- `MemRead(address, 4)` of R15 as an access of the block. -/
def memRead (address : Nat) : Option Access := (windowOffset address).map rd

/-- `MemWrite(address, 4, value)` of R15 as an access of the block. -/
def memWrite (address : Nat) (value : Word) : Option Access := (windowOffset address).map fun o => wr o value

/-! ## Fetch (R273) -/

/-- The word of the command in flight: the block fetches no instruction (R21); the engine reads `SNAP.word` while
BUSY = 1 (R272, R273). -/
def State.fetch (s : State) : Option Word :=
  if s.status.busy then s.snap.map fun n => n.word else none

/-- The state in which command word `w` has just been issued by the host (R270) and the engine's turn comes next. -/
def State.withCommand (s : State) (w : Word) : State :=
  let t := s.issue Config.params w
  { t with events := .engine :: s.events }

end Sys2Proof.Machine
end

