-- ==== Sys2Proof/Machine/Cipher.lean ====
section
/-! DEFINITION. Compositions of the cipher parameter (R8): triple DES (R9, 00_scope.md), the default DUKPT step (R145,
41_dukpt.md), CBC chaining and padding (R180, R181, 42_mac.md), CMAC (R192, R193). -/

namespace Sys2Proof.Machine

/-- `DES_E(k, x)` with the key as bytes: its first 8 (R8). -/
def desE (P : Params) (k : Bytes) (x : Block) : Block := P.desE (toBits 64 (k.take 8)) x

/-- `DES_D(k, x)` with the key as bytes: its first 8 (R8). -/
def desD (P : Params) (k : Bytes) (x : Block) : Block := P.desD (toBits 64 (k.take 8)) x

/-- `k3` of R9: bytes 16 to 23 of a 24-byte key, `k1` for a 16-byte key. -/
def thirdKey (k : Bytes) : Bytes := if k.length = 24 then k.drop 16 else k

/-- `TDES_E(k, x)` of R9, `k` of 16 or 24 bytes. -/
def tdesE (P : Params) (k : Bytes) (x : Block) : Block :=
  desE P (thirdKey k) (desD P (k.drop 8) (desE P k x))

/-- `TDES_D(k, x)` of R9. -/
def tdesD (P : Params) (k : Bytes) (x : Block) : Block :=
  desD P k (desE P (k.drop 8) (desD P (thirdKey k) x))

/-- The default of `DUKPT_STEP` (R145). -/
def defaultDukptStep (P : Params) (k : Bytes) (x : Block) : Block := tdesE P k x

/-- The padding methods of R180 for a block of `b` bytes; `none` for any other PADMETHOD. -/
def pad1 (b : Nat) (m : Bytes) : Bytes := m ++ List.replicate ((b - m.length % b) % b) 0x00#8

/-- Padding method 2 of R180. -/
def pad2 (b : Nat) (m : Bytes) : Bytes :=
  m ++ 0x80#8 :: List.replicate ((b - (m.length + 1) % b) % b) 0x00#8

/-- Padding method 3 of R180. -/
def pad3 (b : Nat) (m : Bytes) : Bytes := bytesOf b (8 * m.length) ++ pad1 b m

/-- The padding method PADMETHOD selects (R180). -/
def padMethod (p b : Nat) (m : Bytes) : Bytes :=
  match p with
  | 1 => pad1 b m
  | 2 => pad2 b m
  | _ => pad3 b m

/-- The first `n` blocks of `b` bytes of a message, each as a bit vector of `w` bits. -/
def blocksOf (w b : Nat) : Nat → Bytes → List (BitVec w)
  | 0, _ => []
  | n + 1, m => toBits w (m.take b) :: blocksOf w b n (m.drop b)

/-- The blocks of a padded message (R181). -/
def toBlocks (w b : Nat) (m : Bytes) : List (BitVec w) := blocksOf w b (m.length / b) m

/-- `CBC(E, d)` of R181: zero IV, the last chaining value. -/
def cbc {w : Nat} (E : BitVec w → BitVec w) (d : List (BitVec w)) : BitVec w :=
  d.foldl (fun h x => E (h ^^^ x)) 0#w

/-- `dbl(x)` of R192. -/
def dbl {w : Nat} (rb : BitVec w) (x : BitVec w) : BitVec w := (x <<< 1) ^^^ (if x.msb then rb else 0#w)

/-- The CMAC subkey `K1` of R192. -/
def cmacK1 {w : Nat} (rb : BitVec w) (E : BitVec w → BitVec w) : BitVec w := dbl rb (E 0#w)

/-- The CMAC subkey `K2` of R192. -/
def cmacK2 {w : Nat} (rb : BitVec w) (E : BitVec w → BitVec w) : BitVec w := dbl rb (cmacK1 rb E)

/-- The last block of `d` XORed with a subkey (R193). -/
def maskLast {w : Nat} (k : BitVec w) : List (BitVec w) → List (BitVec w)
  | [] => []
  | [x] => [x ^^^ k]
  | x :: y :: d => x :: maskLast k (y :: d)

/-- `CMAC(E, b, m)` of R193 for blocks of `b` bytes, `w = 8 b` bits. -/
def cmac {w : Nat} (rb : BitVec w) (b : Nat) (E : BitVec w → BitVec w) (m : Bytes) : BitVec w :=
  if 0 < m.length ∧ m.length % b = 0 then cbc E (maskLast (cmacK1 rb E) (toBlocks w b m))
  else cbc E (maskLast (cmacK2 rb E) (toBlocks w b (pad2 b m)))

end Sys2Proof.Machine
end

