-- ==== Sys2Proof/Machine/Card.lean ====
section
/-! DEFINITION. The card verification unit (43_card_verification.md R220 to R242). -/

namespace Sys2Proof.Machine

/-! ## Common definitions -/

/-- `CV_ENC(K, s)` of R220. -/
def cvEnc (P : Params) (k : Bytes) (s : Chars) : Chars :=
  hexBits (tdesE P k (desE P k (toBits 64 (bytes (s.take 16))) ^^^ toBits 64 (bytes ((s.drop 16).take 16))))

/-- `DIGITS(h, k)` of R221. -/
def digitsOf (h : Chars) (k : Nat) : Chars := (h.filter isDec ++ List.replicate k (dchar 0)).take k

/-- `(s ‖ '0'^32)[0:32]` (R222). -/
def fill32 (s : Chars) : Chars := (s ++ List.replicate 32 (dchar 0)).take 32

/-- A KEY operand of R222, R226 and R229: 32 hex characters. -/
def cardKey (P : Params) (n : Snap) : Except ErrCode Chars :=
  field P n Slot.key (oneOf [32]) isHex .invalidKeyLength

/-- The PAN operand of the card commands but CSC: 12 to 19 digits (R222). -/
def cardPan (P : Params) (n : Snap) : Except ErrCode Chars :=
  field P n Slot.pan (between 12 19) isDec .invalidPanLength

/-- A slot of exactly `k` characters whose length error is `E_INVALID_FIELD_LENGTH`. -/
def fixedField (P : Params) (n : Snap) (s : Slot) (k : Nat) (set : Byte → Bool) : Except ErrCode Chars :=
  field P n s (oneOf [k]) set .invalidFieldLength

/-- The checks of R222 in order, and the block of 32 characters they give with the key. -/
def cvvInput (P : Params) (n : Snap) : Except ErrCode (Bytes × Chars) := do
  let key ← cardKey P n
  let pan ← cardPan P n
  let exp ← fixedField P n Slot.exp 4 isDec
  let svc ← fixedField P n Slot.svc 3 isDec
  return (bytes key, fill32 (right 16 pan ++ exp ++ svc))

/-- The checks of R223 in order, and the block with the ATC. -/
def cvvAtcInput (P : Params) (n : Snap) : Except ErrCode (Bytes × Chars) := do
  let key ← cardKey P n
  let pan ← cardPan P n
  let exp ← fixedField P n Slot.exp 4 isDec
  let svc ← fixedField P n Slot.svc 3 isDec
  let atc ← fixedField P n Slot.atc 4 isDec
  return (bytes key, fill32 (right 16 pan ++ exp ++ svc ++ atc))

/-- The checks of R226 in order, and the CSC block. -/
def cscInput (P : Params) (n : Snap) : Except ErrCode (Bytes × Chars) := do
  let key ← cardKey P n
  let pan ← field P n Slot.pan (oneOf [15]) isDec .invalidPanLength
  let exp ← fixedField P n Slot.exp 4 isDec
  let svc ← fixedField P n Slot.svc 3 isDec
  return (bytes key, fill32 (pan ++ exp ++ svc))

/-- The first `k` decimal digits of a block's encryption: the code every generating command of this unit returns. -/
def cardCode (P : Params) (k : Nat) (input : Bytes × Chars) : Chars := digitsOf (cvEnc P input.1 input.2) k

/-! ## CVV and CSC -/

/-- CVV_GEN (R222). -/
def cvvGen (P : Params) (n : Snap) : Except ErrCode Answer := do
  let i ← cvvInput P n
  return { result := cardCode P 3 i }

/-- CVV_GEN_ATC (R223). -/
def cvvGenAtc (P : Params) (n : Snap) : Except ErrCode Answer := do
  let i ← cvvAtcInput P n
  return { result := cardCode P 3 i }

/-- CVV_VERIFY (R224): every check before the cipher call; the result is empty, the comparison goes to MATCH. -/
def cvvVerify (P : Params) (n : Snap) : Except ErrCode Answer := do
  let i ← cvvInput P n
  let c ← fixedField P n Slot.check 3 isDec
  return { result := [], matched := decide (c = cardCode P 3 i) }

/-- CVV_VERIFY_ATC (R225). -/
def cvvVerifyAtc (P : Params) (n : Snap) : Except ErrCode Answer := do
  let i ← cvvAtcInput P n
  let c ← fixedField P n Slot.check 3 isDec
  return { result := [], matched := decide (c = cardCode P 3 i) }

/-- CSC_V1 (R226). -/
def cscV1 (P : Params) (n : Snap) : Except ErrCode Answer := do
  let i ← cscInput P n
  return { result := cardCode P 4 i }

/-- CSC_V2 (R227). -/
def cscV2 (P : Params) (n : Snap) : Except ErrCode Answer := do
  let i ← cscInput P n
  return { result := cardCode P 12 i }

/-! ## CVC3 -/

/-- `Xs` of R228: the rightmost 16 of PAN, PSN and "01". -/
def cvc3Seed (pan psn : Chars) : Chars := right 16 (pan ++ psn ++ [dchar 0, dchar 1])

/-- `MK` of R228, 16 bytes. -/
def cvc3MasterKey (P : Params) (imk : Bytes) (pan psn : Chars) : Bytes :=
  let x : Block := toBits 64 (bytes (cvc3Seed pan psn))
  ofBits (tdesE P imk x) ++ ofBits (tdesE P imk (x ^^^ 0xFFFFFFFFFFFFFFFF#64))

/-- The block of R229: 20 characters of track data, UN, ATC. -/
def cvc3Block (trk un atc : Chars) : Chars := (trk ++ List.replicate 20 (dchar 0)).take 20 ++ un ++ atc

/-- CVC3_GEN (R229). -/
def cvc3Gen (P : Params) (n : Snap) : Except ErrCode Answer := do
  let imk ← cardKey P n
  let pan ← cardPan P n
  let psn ← fixedField P n Slot.psn 2 isDec
  let trk ← field P n Slot.track (between 1 64) isHex .invalidFieldLength
  let un ← fixedField P n Slot.un 8 isHex
  let atc ← fixedField P n Slot.atc 4 isHex
  return { result := cardCode P 3 (cvc3MasterKey P (bytes imk) pan psn, cvc3Block trk un atc) }

/-! ## Decimalization and Visa PVV -/

/-- The default decimalization table "0123456789012345" of R230. -/
def defaultDectab : Chars :=
  [0x30#8, 0x31#8, 0x32#8, 0x33#8, 0x34#8, 0x35#8, 0x36#8, 0x37#8, 0x38#8, 0x39#8, 0x30#8, 0x31#8, 0x32#8, 0x33#8,
   0x34#8, 0x35#8]

/-- `DECchk()` of R230: empty selects the default; both errors are `E_INVALID_DECIMALIZATION_TABLE`. -/
def decChk (P : Params) (n : Snap) : Except ErrCode Chars :=
  if n.len Slot.dectab = 0 then .ok defaultDectab
  else if n.len Slot.dectab = 16 then
    match slot P n Slot.dectab with
    | none => .error .invalidDecimalizationTable
    | some t => if t.all isDec then .ok t else .error .invalidDecimalizationTable
  else .error .invalidDecimalizationTable

/-- `C` of R231: the encrypted PAN, 16 hex characters. -/
def encryptedPan (P : Params) (pdk : Bytes) (pan : Chars) : Chars :=
  hexBits (tdesE P pdk (toBits 64 (bytes (right 16 pan))))

/-- `NAT` of R231: the table applied to each character of `C`. -/
def naturalDigits (P : Params) (pdk : Bytes) (pan t : Chars) : Chars :=
  (encryptedPan P pdk pan).map fun c => t.getD (val c) (dchar 0)

/-- The PDK operand: 32 or 48 hex characters (R232). -/
def pdkChk (P : Params) (n : Snap) : Except ErrCode Chars :=
  field P n Slot.key (oneOf [32, 48]) isHex .invalidKeyLength

/-- `TSP` of R232: 4 natural digits from index `k`. -/
def tsp (nat : Chars) (k : Nat) : Chars := (nat.drop k).take 4

/-- PVV_GEN (R232). -/
def pvvGen (P : Params) (n : Snap) : Except ErrCode Answer := do
  let pdk ← pdkChk P n
  let pan ← cardPan P n
  let pin ← field P n Slot.pin (oneOf [4]) isDec .invalidPinLength
  let t ← decChk P n
  require (decide (n.pvki ≤ 9)) .invalidPvki
  return { result := addDigits pin (tsp (naturalDigits P (bytes pdk) pan t) n.pvki) }

/-- PVV_PIN (R233). -/
def pvvPin (P : Params) (n : Snap) : Except ErrCode Answer := do
  let pdk ← pdkChk P n
  let pan ← cardPan P n
  let pvv ← fixedField P n Slot.check 4 isDec
  let t ← decChk P n
  require (decide (n.pvki ≤ 9)) .invalidPvki
  return { result := subDigits pvv (tsp (naturalDigits P (bytes pdk) pan t) n.pvki) }

/-! ## IBM 3624 -/

/-- The parameter checks of R234, in order. -/
def vdParamsChk (n : Snap) : Except ErrCode Unit := do
  require (between 4 12 n.pinlen) .invalidParameter
  require (decide (n.start ≤ 15)) .invalidParameter
  require (between 1 n.pinlen n.length && decide (n.start + n.length ≤ 16)) .invalidParameter
  require (isDec n.padchar) .invalidParameter

/-- The validation data of R234: LENGTH natural digits from START, then the pad character to PINLEN digits. -/
def vdParams (n : Snap) (nat : Chars) : Chars :=
  (nat.drop n.start).take n.length ++ List.replicate (n.pinlen - n.length) n.padchar

/-- `MASKchk()` of R235. -/
def maskChk (P : Params) (n : Snap) : Except ErrCode Chars :=
  if between 4 12 (n.len Slot.mask) then
    match slot P n Slot.mask with
    | none => .error .invalidMask
    | some m => if m.all isMask then .ok m else .error .invalidMask
  else .error .invalidMask

/-- `VDmask(m)` of R235: a natural digit at each `N`, the literal elsewhere. -/
def vdMask (m nat : Chars) : Chars := List.zipWith (fun c d => if c = charN then d else c) m nat

/-- IBM_OFFSET (R236). -/
def ibmOffset (P : Params) (n : Snap) : Except ErrCode Answer := do
  let pdk ← pdkChk P n
  let pan ← cardPan P n
  let t ← decChk P n
  vdParamsChk n
  let pin ← field P n Slot.pin (oneOf [n.pinlen]) isDec .invalidPinLength
  return { result := subDigits pin (vdParams n (naturalDigits P (bytes pdk) pan t)) }

/-- IBM_OFFSET_MASK (R237). -/
def ibmOffsetMask (P : Params) (n : Snap) : Except ErrCode Answer := do
  let pdk ← pdkChk P n
  let pan ← cardPan P n
  let t ← decChk P n
  let m ← maskChk P n
  let pin ← field P n Slot.pin (oneOf [m.length]) isDec .invalidPinLength
  return { result := subDigits pin (vdMask m (naturalDigits P (bytes pdk) pan t)) }

/-- IBM_PIN (R238). -/
def ibmPin (P : Params) (n : Snap) : Except ErrCode Answer := do
  let pdk ← pdkChk P n
  let pan ← cardPan P n
  let t ← decChk P n
  vdParamsChk n
  let off ← fixedField P n Slot.check n.pinlen isDec
  return { result := addDigits (vdParams n (naturalDigits P (bytes pdk) pan t)) off }

/-- IBM_PIN_MASK (R239). -/
def ibmPinMask (P : Params) (n : Snap) : Except ErrCode Answer := do
  let pdk ← pdkChk P n
  let pan ← cardPan P n
  let t ← decChk P n
  let m ← maskChk P n
  let off ← fixedField P n Slot.check m.length isDec
  return { result := addDigits (vdMask m (naturalDigits P (bytes pdk) pan t)) off }

/-- CVV_GEN (R222). -/
def execCvvGen (s : State) : Host.Outcome State Fault Refusal := command (cvvGen Config.params) s
/-- CVV_GEN_ATC (R223). -/
def execCvvGenAtc (s : State) : Host.Outcome State Fault Refusal := command (cvvGenAtc Config.params) s
/-- CVV_VERIFY (R224). -/
def execCvvVerify (s : State) : Host.Outcome State Fault Refusal := command (cvvVerify Config.params) s
/-- CVV_VERIFY_ATC (R225). -/
def execCvvVerifyAtc (s : State) : Host.Outcome State Fault Refusal := command (cvvVerifyAtc Config.params) s
/-- CSC_V1 (R226). -/
def execCscV1 (s : State) : Host.Outcome State Fault Refusal := command (cscV1 Config.params) s
/-- CSC_V2 (R227). -/
def execCscV2 (s : State) : Host.Outcome State Fault Refusal := command (cscV2 Config.params) s
/-- CVC3_GEN (R229). -/
def execCvc3Gen (s : State) : Host.Outcome State Fault Refusal := command (cvc3Gen Config.params) s
/-- PVV_GEN (R232). -/
def execPvvGen (s : State) : Host.Outcome State Fault Refusal := command (pvvGen Config.params) s
/-- PVV_PIN (R233). -/
def execPvvPin (s : State) : Host.Outcome State Fault Refusal := command (pvvPin Config.params) s
/-- IBM_OFFSET (R236). -/
def execIbmOffset (s : State) : Host.Outcome State Fault Refusal := command (ibmOffset Config.params) s
/-- IBM_OFFSET_MASK (R237). -/
def execIbmOffsetMask (s : State) : Host.Outcome State Fault Refusal := command (ibmOffsetMask Config.params) s
/-- IBM_PIN (R238). -/
def execIbmPin (s : State) : Host.Outcome State Fault Refusal := command (ibmPin Config.params) s
/-- IBM_PIN_MASK (R239). -/
def execIbmPinMask (s : State) : Host.Outcome State Fault Refusal := command (ibmPinMask Config.params) s

end Sys2Proof.Machine
end

