-- ==== Sys2Proof/Machine/Control.lean ====
section
/-! DEFINITION. The control commands NOP and ZEROIZE (44_control.md R276, R277) and the illegal command (R278). -/

namespace Sys2Proof.Machine

/-- NOP (R276): `ok("", 0)`. -/
def execNop (s : State) : Host.Outcome State Fault Refusal :=
  command (fun _ => .ok { result := [] }) s

/-- ZEROIZE (R277): the live slots and PARAM registers are cleared at completion, SNAP is not read; then
`ok("", 0)`. -/
def execZeroize (s : State) : Host.Outcome State Fault Refusal :=
  command (fun _ => .ok { result := [] }) (s.zeroizeOperands Config.params)

/-- A command word that decodes to no command (R273, R278): it completes with `E_ILLEGAL_COMMAND` and reads no
slot. -/
def execIllegal (s : State) : Host.Outcome State Fault Refusal :=
  command (fun _ => .error .illegalCommand) s

end Sys2Proof.Machine
end

