-- ==== Sys2Proof/Machine/Dukpt.lean ====
section
/-! DEFINITION. The DUKPT key derivation unit (41_dukpt.md R140 to R156). -/

namespace Sys2Proof.Machine

/-! ## Legacy (TDES) DUKPT -/

/-- The transaction counter of a KSN: its 21 least significant bits (R140, R151). -/
def ksnCounter {w : Nat} (k : BitVec w) : BitVec 21 := k.extractLsb' 0 21

/-- `KSN_base(K)` of R141: bits 79:16 with the 5 counter bits among them cleared. -/
def ksnBase (k : BitVec 80) : Block := k.extractLsb' 16 64 &&& 0xFFFFFFFFFFFFFFE0#64

/-- `MASK` of R142. -/
def ipekMask : Bytes :=
  [0xC0#8, 0xC0#8, 0xC0#8, 0xC0#8, 0x00#8, 0x00#8, 0x00#8, 0x00#8,
   0xC0#8, 0xC0#8, 0xC0#8, 0xC0#8, 0x00#8, 0x00#8, 0x00#8, 0x00#8]

/-- `IPEK(B, K)` of R142. -/
def ipek (P : Params) (bdk : Bytes) (k : BitVec 80) : Block16 :=
  tdesE P bdk (ksnBase k) ++ tdesE P (xorBytes bdk ipekMask) (ksnBase k)

/-- The right half of `TK(I, K)` of R144 after the counter bits below `i`, from the lowest up; the left half `l` is
carried unchanged. -/
def tkRight (P : Params) (l : Block) (c : BitVec 21) (r : Block) : Nat → Block
  | 0 => r
  | i + 1 =>
    let r' := tkRight P l c r i
    if c.getLsbD i then P.dukptStep (ofBits l ++ ofBits r') (r' ^^^ BitVec.ofNat 64 (2 ^ i)) else r'

/-- `TK(I, K)` of R144 from the counter of the KSN. -/
def transactionKey (P : Params) (i : Block16) (c : BitVec 21) : Block16 :=
  let l : Block := i.extractLsb' 64 64
  l ++ tkRight P l c (i.extractLsb' 0 64) 21

/-- The KEY operand of the legacy commands: 32 hex characters (R143). -/
def legacyKey (P : Params) (n : Snap) : Except ErrCode Chars :=
  field P n Slot.key (oneOf [32]) isHex .invalidKeyLength

/-- A KSN operand of `k` hex characters (R143, R152). -/
def ksnChk (P : Params) (n : Snap) (k : Nat) : Except ErrCode Chars :=
  field P n Slot.ksn (oneOf [k]) isHex .invalidKsnLength

/-- DUKPT_IPEK (R143). -/
def dukptIpek (P : Params) (n : Snap) : Except ErrCode Answer := do
  let bdk ← legacyKey P n
  let ksn ← ksnChk P n 20
  return { result := hexBits (ipek P (bytes bdk) (toBits 80 (bytes ksn))) }

/-- DUKPT_TK (R146). -/
def dukptTk (P : Params) (n : Snap) : Except ErrCode Answer := do
  let bdk ← legacyKey P n
  let ksn ← ksnChk P n 20
  let k := toBits 80 (bytes ksn)
  return { result := hexBits (transactionKey P (ipek P (bytes bdk) k) (ksnCounter k)) }

/-- DUKPT_TK_IPEK (R148). -/
def dukptTkIpek (P : Params) (n : Snap) : Except ErrCode Answer := do
  let key ← legacyKey P n
  let ksn ← ksnChk P n 20
  return { result := hexBits (transactionKey P (toBits 128 (bytes key)) (ksnCounter (toBits 80 (bytes ksn)))) }

/-- DUKPT_WK (R149). -/
def dukptWk (P : Params) (n : Snap) : Except ErrCode Answer := do
  let bdk ← legacyKey P n
  let ksn ← ksnChk P n 20
  let u ← requireCode (usageOf n.usage)
  let k := toBits 80 (bytes ksn)
  return { result := hexBits (transactionKey P (ipek P (bytes bdk) k) (ksnCounter k) ^^^ P.variant u) }

/-- The counter increment of R150 and R154 on a KSN of `w` bits: the identifier is unchanged, the last counter value
is refused. -/
def ksnIncrement (w : Nat) (ksn : Chars) : Except ErrCode Answer := do
  let k := toBits w (bytes ksn)
  let c := (ksnCounter k).toNat
  require (decide (c < 0x1FFFFF)) .counterExhausted
  return { result := hexBits ((k &&& ~~~(BitVec.ofNat w 0x1FFFFF)) ||| BitVec.ofNat w (c + 1)) }

/-- DUKPT_KSN_INC (R150). -/
def dukptKsnInc (P : Params) (n : Snap) : Except ErrCode Answer := do
  let ksn ← ksnChk P n 20
  ksnIncrement 80 ksn

/-! ## AES DUKPT -/

/-- The KEY operand of the AES DUKPT commands: the length the declared type has (R152). -/
def aesBdk (P : Params) (n : Snap) (t : KeyType) : Except ErrCode Chars :=
  field P n Slot.key (oneOf [2 * t.keylen]) isHex .invalidKeyLength

/-- DUKPT_AES_IK (R152). -/
def dukptAesIk (P : Params) (n : Snap) : Except ErrCode Answer := do
  let t ← requireCode (aesTypeOf n.keytype)
  let bdk ← aesBdk P n t
  let ksn ← ksnChk P n 24
  return { result := hex (P.aesDukptIK (bytes bdk) t (bytes ksn)).toList }

/-- DUKPT_AES_WK (R153). -/
def dukptAesWk (P : Params) (n : Snap) : Except ErrCode Answer := do
  let t ← requireCode (aesTypeOf n.keytype)
  let bdk ← aesBdk P n t
  let ksn ← ksnChk P n 24
  let u ← requireCode (usageOf n.usage)
  let w ← requireCode (keyTypeOf n.wktype)
  return { result := hex (P.aesDukptWK (bytes bdk) t (bytes ksn) u w).toList }

/-- DUKPT_AES_KSN_INC (R154). -/
def dukptAesKsnInc (P : Params) (n : Snap) : Except ErrCode Answer := do
  let ksn ← ksnChk P n 24
  ksnIncrement 96 ksn

/-- DUKPT_IPEK (R143). -/
def execDukptIpek (s : State) : Host.Outcome State Fault Refusal := command (dukptIpek Config.params) s
/-- DUKPT_TK (R146). -/
def execDukptTk (s : State) : Host.Outcome State Fault Refusal := command (dukptTk Config.params) s
/-- DUKPT_TK_IPEK (R148). -/
def execDukptTkIpek (s : State) : Host.Outcome State Fault Refusal := command (dukptTkIpek Config.params) s
/-- DUKPT_WK (R149). -/
def execDukptWk (s : State) : Host.Outcome State Fault Refusal := command (dukptWk Config.params) s
/-- DUKPT_KSN_INC (R150). -/
def execDukptKsnInc (s : State) : Host.Outcome State Fault Refusal := command (dukptKsnInc Config.params) s
/-- DUKPT_AES_IK (R152). -/
def execDukptAesIk (s : State) : Host.Outcome State Fault Refusal := command (dukptAesIk Config.params) s
/-- DUKPT_AES_WK (R153). -/
def execDukptAesWk (s : State) : Host.Outcome State Fault Refusal := command (dukptAesWk Config.params) s
/-- DUKPT_AES_KSN_INC (R154). -/
def execDukptAesKsnInc (s : State) : Host.Outcome State Fault Refusal := command (dukptAesKsnInc Config.params) s

end Sys2Proof.Machine
end

