-- ==== Sys2Proof/Machine/Mac.lean ====
section
/-! DEFINITION. The MAC unit (42_mac.md R180 to R198). The algorithm is selected by the OPCODE alone (R197). -/

namespace Sys2Proof.Machine

/-- `hex(g[0:t])` of R182: the leftmost `t` bytes of the final value. -/
def truncated {w : Nat} (g : BitVec w) (t : Nat) : Chars := hex ((ofBits g).take t)

/-- What the checks of R183 hand to a DES-based MAC: key bytes, padded message, truncation. -/
structure MacInput where
  key : Bytes
  padded : Bytes
  trunc : Nat
  deriving DecidableEq, Repr

/-- The DATA length check of R183, R194 and R195: within DATA_MAX and even. -/
def dataLengthChk (P : Params) (n : Snap) : Except ErrCode Unit :=
  require (decide (n.len Slot.data ≤ P.dataMax) && decide (n.len Slot.data % 2 = 0)) .invalidDataLength

/-- The DATA characters, all in HEX (R183, R194); the length has been checked. -/
def dataChars (P : Params) (n : Snap) : Except ErrCode Chars :=
  match slot P n Slot.data with
  | none => .error .invalidDataLength
  | some dat => if dat.all isHex then .ok dat else .error .invalidCharacter

/-- `MACchk(KL)` of R183. -/
def macChk (P : Params) (n : Snap) (keyLens : List Nat) : Except ErrCode MacInput := do
  let key ← field P n Slot.key (oneOf keyLens) isHex .invalidKeyLength
  dataLengthChk P n
  require (decide (0 < n.len Slot.data)) .emptyData
  let dat ← dataChars P n
  require (oneOf [1, 2, 3] n.padmethod) .invalidParameter
  require (between 1 8 n.trunc) .invalidTruncation
  return ⟨bytes key, padMethod n.padmethod 8 (bytes dat), n.trunc⟩

/-- ISO 9797-1 Algorithm 1 (R184): the CBC value under single DES. -/
def alg1 (P : Params) (k d : Bytes) : Block := cbc (desE P k) (toBlocks 64 8 d)

/-- ISO 9797-1 Algorithm 2 (R185): the CBC value under `K1` encrypted once more under `K2`. -/
def alg2 (P : Params) (k d : Bytes) : Block := desE P (k.drop 8) (alg1 P k d)

/-- ISO 9797-1 Algorithm 3 (R186): the CBC value under `K1`, decrypted under `K2`, encrypted under `K1`. -/
def alg3 (P : Params) (k d : Bytes) : Block := desE P k (desD P (k.drop 8) (alg1 P k d))

/-- Triple-DES CBC-MAC (R190). -/
def tdesCbc (P : Params) (k d : Bytes) : Block := cbc (tdesE P k) (toBlocks 64 8 d)

/-- A DES-based MAC command: the checks of R183, one function of key and padded message, truncation (R182). -/
def desMac (P : Params) (keyLens : List Nat) (mac : Bytes → Bytes → Block) (n : Snap) : Except ErrCode Answer := do
  let i ← macChk P n keyLens
  return { result := truncated (mac i.key i.padded) i.trunc }

/-- `Rb` of R192 for 16-byte blocks. -/
def rb128 : Block16 := 0x87#128

/-- `Rb` of R192 for 8-byte blocks. -/
def rb64 : Block := 0x1B#64

/-- `E` of R195: DES for an 8-byte key, else triple DES. -/
def cmacDes (P : Params) (k : Bytes) (x : Block) : Block := if k.length = 8 then desE P k x else tdesE P k x

/-- A CMAC command (R194, R195): key lengths, the largest TRUNC, the function of key and message. The empty message
is accepted and PADMETHOD is not read. -/
def cmacCommand {w : Nat} (P : Params) (keyLens : List Nat) (maxTrunc : Nat) (mac : Bytes → Bytes → BitVec w)
    (n : Snap) : Except ErrCode Answer := do
  let key ← field P n Slot.key (oneOf keyLens) isHex .invalidKeyLength
  dataLengthChk P n
  let dat ← dataChars P n
  require (between 1 maxTrunc n.trunc) .invalidTruncation
  return { result := truncated (mac (bytes key) (bytes dat)) n.trunc }

/-- MAC_CMAC_AES's function (R194). -/
def cmacAes (P : Params) (k m : Bytes) : Block16 := cmac rb128 16 (P.aesE k) m

/-- MAC_CMAC_TDES's function (R195). -/
def cmacTdes (P : Params) (k m : Bytes) : Block := cmac rb64 8 (cmacDes P k) m

/-- MAC_ALG1 (R184). -/
def execMacAlg1 (s : State) : Host.Outcome State Fault Refusal :=
  command (desMac Config.params [16] (alg1 Config.params)) s
/-- MAC_ALG2 (R185). -/
def execMacAlg2 (s : State) : Host.Outcome State Fault Refusal :=
  command (desMac Config.params [32] (alg2 Config.params)) s
/-- MAC_ALG3 (R186). -/
def execMacAlg3 (s : State) : Host.Outcome State Fault Refusal :=
  command (desMac Config.params [32] (alg3 Config.params)) s
/-- MAC_X99 (R187): as R184. -/
def execMacX99 (s : State) : Host.Outcome State Fault Refusal :=
  command (desMac Config.params [16] (alg1 Config.params)) s
/-- MAC_X919 (R188): as R186. -/
def execMacX919 (s : State) : Host.Outcome State Fault Refusal :=
  command (desMac Config.params [32] (alg3 Config.params)) s
/-- MAC_RETAIL (R189): as R186. -/
def execMacRetail (s : State) : Host.Outcome State Fault Refusal :=
  command (desMac Config.params [32] (alg3 Config.params)) s
/-- MAC_TDES_CBC (R190). -/
def execMacTdesCbc (s : State) : Host.Outcome State Fault Refusal :=
  command (desMac Config.params [32, 48] (tdesCbc Config.params)) s
/-- MAC_AS2805 (R191): as R186. -/
def execMacAs2805 (s : State) : Host.Outcome State Fault Refusal :=
  command (desMac Config.params [32] (alg3 Config.params)) s
/-- MAC_CMAC_AES (R194). -/
def execMacCmacAes (s : State) : Host.Outcome State Fault Refusal :=
  command (cmacCommand Config.params [32, 48, 64] 16 (cmacAes Config.params)) s
/-- MAC_CMAC_TDES (R195). -/
def execMacCmacTdes (s : State) : Host.Outcome State Fault Refusal :=
  command (cmacCommand Config.params [16, 32, 48] 8 (cmacTdes Config.params)) s

end Sys2Proof.Machine
end

