-- ==== Sys2Proof/Machine/PinBlock.lean ====
section
/-! DEFINITION. The PIN block codec (40_pin_block.md R100 to R119). It calls no cipher (R118). -/

namespace Sys2Proof.Machine

/-- `PF16(f, pin, pad)` of R100: tag, length, PIN, pad. -/
def pf16 (f : Nat) (pin pad : Chars) : Chars := hexchar f :: hexchar pin.length :: (pin ++ pad)

/-- `PF32(pin)` of R100: tag 4, a two-digit length, PIN, pad `F`. -/
def pf32 (pin : Chars) : Chars :=
  hexchar 4 :: hexchar (pin.length / 16) :: hexchar (pin.length % 16)
    :: (pin ++ List.replicate (29 - pin.length) (hexchar 15))

/-- `PAN12(pan)` of R101: the 12 digits left of the check digit. -/
def pan12 (pan : Chars) : Chars := (pan.drop (pan.length - 13)).take 12

/-- `PANF16(pan)` of R101. -/
def panF16 (pan : Chars) : Chars := List.replicate 4 (dchar 0) ++ pan12 pan

/-- `PANF32(pan)` of R102. -/
def panF32 (pan : Chars) : Chars := panF16 pan ++ List.replicate 16 (hexchar 15)

/-- `PINchk()` of R103. -/
def pinChk (P : Params) (n : Snap) : Except ErrCode Chars :=
  field P n Slot.pin (between 4 12) isDec .invalidPinLength

/-- `PANchk()` of R103. -/
def panChk (P : Params) (n : Snap) : Except ErrCode Chars :=
  field P n Slot.pan (between 13 19) isDec .invalidPanLength

/-- `BLKchk(k)` of R103. -/
def blkChk (P : Params) (n : Snap) (k : Nat) : Except ErrCode Chars :=
  field P n Slot.pinblk (oneOf [k]) isHex .invalidPinBlockLength

/-- The fixed pad `'F'^(14 − L)` of R105. -/
def padF (l : Nat) : Chars := List.replicate (14 - l) (hexchar 15)

/-- `k` pad nibbles drawn from `Rng`, the first draw being number `d` (R104). -/
def padDraws (P : Params) (d k : Nat) : Chars := (List.range k).map fun i => hexchar (P.rng (d + i)).val

/-- The auxiliary word `f | L << 8` (R35). -/
def auxWord (f l : Nat) : Word := BitVec.ofNat 32 (f + 256 * l)

/-- PIN_ENC_F0 (R105). -/
def pinEncF0 (P : Params) (n : Snap) : Except ErrCode Answer := do
  let pin ← pinChk P n
  let pan ← panChk P n
  return { result := xorHex (pf16 0 pin (padF pin.length)) (panF16 pan), aux := auxWord 0 pin.length }

/-- PIN_ENC_F1 (R106): slot PAN is neither read nor checked (R119). -/
def pinEncF1 (P : Params) (d : Nat) (n : Snap) : Except ErrCode Answer := do
  let pin ← pinChk P n
  let k := 14 - pin.length
  return { result := pf16 1 pin (padDraws P d k), aux := auxWord 1 pin.length, drawn := k }

/-- PIN_ENC_F2 (R107). -/
def pinEncF2 (P : Params) (n : Snap) : Except ErrCode Answer := do
  let pin ← pinChk P n
  let pan ← panChk P n
  return { result := xorHex (pf16 2 pin (padF pin.length)) (panF16 pan), aux := auxWord 2 pin.length }

/-- PIN_ENC_F3 (R108): no draw before the checks have passed (R273). -/
def pinEncF3 (P : Params) (d : Nat) (n : Snap) : Except ErrCode Answer := do
  let pin ← pinChk P n
  let pan ← panChk P n
  let k := 14 - pin.length
  return { result := xorHex (pf16 3 pin (padDraws P d k)) (panF16 pan), aux := auxWord 3 pin.length, drawn := k }

/-- PIN_ENC_F4 (R109). -/
def pinEncF4 (P : Params) (n : Snap) : Except ErrCode Answer := do
  let pin ← pinChk P n
  let pan ← panChk P n
  return { result := xorHex (pf32 pin) (panF32 pan), aux := auxWord 4 pin.length }

/-- Steps (d) to (f) of R110 on a clear PIN field whose tag is `tag`, whose length field reads `l` and whose PIN
starts at nibble `start`. The pad is not checked. -/
def openField (f tag l start : Nat) (p : Chars) : Except ErrCode Answer := do
  require (decide (tag = f)) .invalidFormatTag
  require (between 4 12 l) .invalidPinLength
  let pin := (p.drop start).take l
  require (pin.all isDec) .invalidPinDigit
  return { result := pin, aux := auxWord f l }

/-- The value of nibble `i` of a field. -/
def nibble (p : Chars) (i : Nat) : Nat := val (p.getD i (dchar 0))

/-- Steps (d) to (f) of R110 for the 16-nibble field of formats 0 to 3 (R111). -/
def open16 (f : Nat) (p : Chars) : Except ErrCode Answer := openField f (nibble p 0) (nibble p 1) 2 p

/-- Steps (d) to (f) of R110 for the 32-nibble field of format 4 (R115). -/
def open32 (p : Chars) : Except ErrCode Answer :=
  openField 4 (nibble p 0) (16 * nibble p 1 + nibble p 2) 3 p

/-- PIN_DEC_F0 (R111). -/
def pinDecF0 (P : Params) (n : Snap) : Except ErrCode Answer := do
  let b ← blkChk P n 16
  let pan ← panChk P n
  open16 0 (xorHex b (panF16 pan))

/-- PIN_DEC_F1 (R112): slot PAN is neither read nor checked (R119). -/
def pinDecF1 (P : Params) (n : Snap) : Except ErrCode Answer := do
  let b ← blkChk P n 16
  open16 1 b

/-- PIN_DEC_F2 (R113). -/
def pinDecF2 (P : Params) (n : Snap) : Except ErrCode Answer := do
  let b ← blkChk P n 16
  let pan ← panChk P n
  open16 2 (xorHex b (panF16 pan))

/-- PIN_DEC_F3 (R114). -/
def pinDecF3 (P : Params) (n : Snap) : Except ErrCode Answer := do
  let b ← blkChk P n 16
  let pan ← panChk P n
  open16 3 (xorHex b (panF16 pan))

/-- PIN_DEC_F4 (R115). -/
def pinDecF4 (P : Params) (n : Snap) : Except ErrCode Answer := do
  let b ← blkChk P n 32
  let pan ← panChk P n
  open32 (xorHex b (panF32 pan))

/-- PIN_ENC_F0 (R105). -/
def execPinEncF0 (s : State) : Host.Outcome State Fault Refusal := command (pinEncF0 Config.params) s
/-- PIN_ENC_F1 (R106). -/
def execPinEncF1 (s : State) : Host.Outcome State Fault Refusal := command (pinEncF1 Config.params s.draws) s
/-- PIN_ENC_F2 (R107). -/
def execPinEncF2 (s : State) : Host.Outcome State Fault Refusal := command (pinEncF2 Config.params) s
/-- PIN_ENC_F3 (R108). -/
def execPinEncF3 (s : State) : Host.Outcome State Fault Refusal := command (pinEncF3 Config.params s.draws) s
/-- PIN_ENC_F4 (R109). -/
def execPinEncF4 (s : State) : Host.Outcome State Fault Refusal := command (pinEncF4 Config.params) s
/-- PIN_DEC_F0 (R111). -/
def execPinDecF0 (s : State) : Host.Outcome State Fault Refusal := command (pinDecF0 Config.params) s
/-- PIN_DEC_F1 (R112). -/
def execPinDecF1 (s : State) : Host.Outcome State Fault Refusal := command (pinDecF1 Config.params) s
/-- PIN_DEC_F2 (R113). -/
def execPinDecF2 (s : State) : Host.Outcome State Fault Refusal := command (pinDecF2 Config.params) s
/-- PIN_DEC_F3 (R114). -/
def execPinDecF3 (s : State) : Host.Outcome State Fault Refusal := command (pinDecF3 Config.params) s
/-- PIN_DEC_F4 (R115). -/
def execPinDecF4 (s : State) : Host.Outcome State Fault Refusal := command (pinDecF4 Config.params) s

end Sys2Proof.Machine
end

