-- ==== Sys2Proof/Machine/Dispatch.lean ====
section
/-! DEFINITION. One arm per command of R83: the command rule the completion step runs (R273, 44_control.md). -/

namespace Sys2Proof.Machine

def exec (i : Instr) (s : State) : Host.Outcome State Fault Refusal :=
  match i with
  | .nop => Sys2Proof.Machine.execNop s
  | .zeroize => Sys2Proof.Machine.execZeroize s
  | .pinEncF0 => Sys2Proof.Machine.execPinEncF0 s
  | .pinEncF1 => Sys2Proof.Machine.execPinEncF1 s
  | .pinEncF2 => Sys2Proof.Machine.execPinEncF2 s
  | .pinEncF3 => Sys2Proof.Machine.execPinEncF3 s
  | .pinEncF4 => Sys2Proof.Machine.execPinEncF4 s
  | .pinDecF0 => Sys2Proof.Machine.execPinDecF0 s
  | .pinDecF1 => Sys2Proof.Machine.execPinDecF1 s
  | .pinDecF2 => Sys2Proof.Machine.execPinDecF2 s
  | .pinDecF3 => Sys2Proof.Machine.execPinDecF3 s
  | .pinDecF4 => Sys2Proof.Machine.execPinDecF4 s
  | .dukptIpek => Sys2Proof.Machine.execDukptIpek s
  | .dukptTk => Sys2Proof.Machine.execDukptTk s
  | .dukptTkIpek => Sys2Proof.Machine.execDukptTkIpek s
  | .dukptWk => Sys2Proof.Machine.execDukptWk s
  | .dukptKsnInc => Sys2Proof.Machine.execDukptKsnInc s
  | .dukptAesIk => Sys2Proof.Machine.execDukptAesIk s
  | .dukptAesWk => Sys2Proof.Machine.execDukptAesWk s
  | .dukptAesKsnInc => Sys2Proof.Machine.execDukptAesKsnInc s
  | .macAlg1 => Sys2Proof.Machine.execMacAlg1 s
  | .macAlg2 => Sys2Proof.Machine.execMacAlg2 s
  | .macAlg3 => Sys2Proof.Machine.execMacAlg3 s
  | .macX99 => Sys2Proof.Machine.execMacX99 s
  | .macX919 => Sys2Proof.Machine.execMacX919 s
  | .macRetail => Sys2Proof.Machine.execMacRetail s
  | .macTdesCbc => Sys2Proof.Machine.execMacTdesCbc s
  | .macAs2805 => Sys2Proof.Machine.execMacAs2805 s
  | .macCmacAes => Sys2Proof.Machine.execMacCmacAes s
  | .macCmacTdes => Sys2Proof.Machine.execMacCmacTdes s
  | .cvvGen => Sys2Proof.Machine.execCvvGen s
  | .cvvGenAtc => Sys2Proof.Machine.execCvvGenAtc s
  | .cvvVerify => Sys2Proof.Machine.execCvvVerify s
  | .cvvVerifyAtc => Sys2Proof.Machine.execCvvVerifyAtc s
  | .cscV1 => Sys2Proof.Machine.execCscV1 s
  | .cscV2 => Sys2Proof.Machine.execCscV2 s
  | .cvc3Gen => Sys2Proof.Machine.execCvc3Gen s
  | .pvvGen => Sys2Proof.Machine.execPvvGen s
  | .pvvPin => Sys2Proof.Machine.execPvvPin s
  | .ibmOffset => Sys2Proof.Machine.execIbmOffset s
  | .ibmOffsetMask => Sys2Proof.Machine.execIbmOffsetMask s
  | .ibmPin => Sys2Proof.Machine.execIbmPin s
  | .ibmPinMask => Sys2Proof.Machine.execIbmPinMask s

end Sys2Proof.Machine
end

