-- ==== Sys2Proof/Machine/Step.lean ====
section
/-! DEFINITION. One step of the block: the next event of the bus order (R69, R305), or the command engine's
completion step where none is left (R272, R275). -/

namespace Sys2Proof.Machine

/-- The command engine's turn (R272, R273): while BUSY = 1 it completes the command in flight, an illegal word with
`E_ILLEGAL_COMMAND`; while BUSY = 0 nothing happens. -/
def engineTurn (s : State) : Host.Outcome State Fault Refusal :=
  if s.status.busy then
    match s.fetch with
    | none => .fault .noCommandInFlight
    | some w =>
      match decode (bytesOfWord w) with
      | .ok (i, _) => exec i s
      | .error _ => execIllegal s
  else .next s

/-- One step: the next event, taken from the list; with no event left, the engine's turn. -/
def step (s : State) : Host.Outcome State Fault Refusal :=
  match s.events with
  | [] => engineTurn s
  | .engine :: rest => engineTurn { s with events := rest }
  | .access a :: rest => .next (State.access Config.params { s with events := rest } a)
  | .reset :: rest => .next (State.resetBlock { s with events := rest })

/-- The state in which the host has just issued the command word `w` (R270) and the engine's turn comes next: the
block loads no program, its commands are written by the host (R21, log entry 1). -/
def State.withFetchWord (s : State) (nbits w : Nat) : State :=
  s.withCommand (BitVec.ofNat 32 (w % 2 ^ nbits))

end Sys2Proof.Machine
end

