-- ==== Sys2Proof/Machine/Script.lean ====
section
/-! DEFINITION. The host-script notation (30_encoding.md R86, R87): what each line of a host program is on the bus. A line
that only writes is a list of accesses; a line that reads and goes by what it reads (POLL, RUN, GETRESULT) is a test of
the accesses with what they were answered. They are the host's, not commands. -/

namespace Sys2Proof.Machine

/-! ## Lines that only write -/

/-- `MemWrite(PCB_BASE + off, 4, v)` as an access of the block: none where the address is past the window (R60, R86). -/
def wrAt (off : Nat) (v : Word) : Option Access :=
  if off < 0x10000 then some (wr (BitVec.ofNat 16 off) v) else none

/-- `MemRead(PCB_BASE + off, 4)` as an access of the block: none where the address is past the window (R60, R86). -/
def rdAt (off : Nat) : Option Access := if off < 0x10000 then some (rd (BitVec.ofNat 16 off)) else none

/-- The bus word `w_k` of SETSLOT: characters `4k` to `4k + 3`, a missing one as 0x00 (R87). -/
def scriptWord (str : Chars) (k : Nat) : Word :=
  wordOfBytes (str.getD (4 * k) 0#8) (str.getD (4 * k + 1) 0#8) (str.getD (4 * k + 2) 0#8) (str.getD (4 * k + 3) 0#8)

/-- `SETSLOT s, "chars"` (R87). A word past the window is no access of the block. -/
def setSlot (s : Slot) (str : Chars) : List Access :=
  ((List.range ((str.length + 3) / 4)).filterMap fun k => wrAt (slotBase s + 4 * k) (scriptWord str k))
    ++ [wr (BitVec.ofNat 16 (0x040 + 4 * s.val)) (BitVec.ofNat 32 str.length)]

/-- `SETP0 trunc, pvki, start, length` (R87). -/
def setP0 (trunc pvki start length : Byte) : List Access := [wr 0x008#16 (wordOfBytes trunc pvki start length)]

/-- `SETP1 pinlen, padchar, keytype, usage` (R87). -/
def setP1 (pinlen padchar keytype usage : Byte) : List Access := [wr 0x00C#16 (wordOfBytes pinlen padchar keytype usage)]

/-- `SETP2 padmethod, wktype` (R87). -/
def setP2 (padmethod wktype : Byte) : List Access := [wr 0x010#16 (wordOfBytes padmethod wktype 0#8 0#8)]

/-! ## Lines that go by what they read -/

/-- One access of the host and what it was answered. -/
structure Exchange where
  access : Access
  response : BusResponse
  deriving DecidableEq, Repr

/-- The exchanges of a stretch of the bus order, the first in front. -/
abbrev Transcript := List Exchange

/-- `POLL` (R87): reads of STATUS and nothing else, BUSY = 1 in every value read but the last, BUSY = 0 in the last. -/
def poll : Transcript → Bool
  | [] => false
  | e :: es =>
    decide (e.access = rd 0x004#16) &&
      (match e.response with
        | .data v => if v.getLsbD 0 then poll es else es.isEmpty
        | _ => false)

/-- `RUN mnemonic` (R87): the write of CMD, taken by the window, then a `POLL`. -/
def run (i : Instr) : Transcript → Bool
  | [] => false
  | e :: es => decide (e = ⟨wr 0x000#16 (encodeWord i), .written⟩) && poll es

/-- The reads of RESULT that `GETRESULT` makes where RESULT_LEN read `len` (R87). -/
def resultReads (len : Nat) : List Access := (List.range ((len + 3) / 4)).filterMap fun k => rdAt (0x100 + 4 * k)

/-- `GETRESULT` (R87): a read of RESULT_LEN, then the reads of RESULT for the very value it read. -/
def getResult : Transcript → Bool
  | [] => false
  | e :: es =>
    decide (e.access = rd 0x014#16) &&
      (match e.response with
        | .data len => decide (es.map (·.access) = resultReads len.toNat)
        | _ => false)

/-! ## Host programs -/

/-- A line of a host program (R86, R87). -/
inductive ScriptLine where
  | wr (off : BitVec 16) (value : Word)
  | rd (off : BitVec 16)
  | setSlot (s : Slot) (str : Chars)
  | setP0 (trunc pvki start length : Byte)
  | setP1 (pinlen padchar keytype usage : Byte)
  | setP2 (padmethod wktype : Byte)
  | run (i : Instr)
  | poll
  | getResult
  deriving DecidableEq, Repr

/-- Whether the exchanges are what the line expands to (R86, R87). -/
def ScriptLine.expandsTo : ScriptLine → Transcript → Bool
  | .wr off v, es => decide (es.map (·.access) = [Sys2Proof.wr off v])
  | .rd off, es => decide (es.map (·.access) = [Sys2Proof.rd off])
  | .setSlot s str, es => decide (es.map (·.access) = Machine.setSlot s str)
  | .setP0 a b c d, es => decide (es.map (·.access) = Machine.setP0 a b c d)
  | .setP1 a b c d, es => decide (es.map (·.access) = Machine.setP1 a b c d)
  | .setP2 a b, es => decide (es.map (·.access) = Machine.setP2 a b)
  | .run i, es => Machine.run i es
  | .poll, es => Machine.poll es
  | .getResult, es => Machine.getResult es

/-- The exchanges are those of the host program, line after line. -/
def Follows : List ScriptLine → Transcript → Prop
  | [], es => es = []
  | l :: ls, es => ∃ xs ys, es = xs ++ ys ∧ l.expandsTo xs = true ∧ Follows ls ys

/-- The exchanges of the machine's next `k` steps from `s`: each access taken, with what it was answered. -/
def transcript : Nat → State → Transcript
  | 0, _ => []
  | k + 1, s =>
    match step s with
    | .next t =>
      match s.events, t.response with
      | .access a :: _, some r => ⟨a, r⟩ :: transcript k t
      | _, _ => transcript k t
    | _ => []

end Sys2Proof.Machine
end

