-- ==== Sys2Proof/Safety.lean ====
section
/-! DEFINITION. The terms claims are stated in: what a command's completion is, what a legal operand is, and the
invariants of the block that the spec states (R24, R29, R36, R271). -/

namespace Sys2Proof.Machine

/-! ## What a completion shows -/

/-- The first `k` bytes of RESULT are exactly the string `r`, of length `k`, and the rest of RESULT is 0x00 (R29). -/
def ResultIs (s : State) (r : Chars) : Prop :=
  s.resultLen.toNat = r.length ∧ r.length ≤ 128 ∧ ∀ k, k < 128 → Memory.read s.mem (0x100 + k) = r.getD k 0#8

/-- RESULT as the string RESULT_LEN delimits (R29). -/
def resultString (s : State) : Chars :=
  (List.range s.resultLen.toNat).map fun k => Memory.read s.mem (0x100 + k)

/-- RESULT is empty and zeroed, RESULT_LEN and RESULT_AUX are 0 (R29, R272). -/
def ResultCleared (s : State) : Prop :=
  s.resultLen = 0#32 ∧ s.resultAux = 0#32 ∧ ∀ k, k < 128 → Memory.read s.mem (0x100 + k) = 0#8

/-- The two states show the same outcome of a command: RESULT, RESULT_LEN, RESULT_AUX and the flags a completion
computes (R272). -/
def SameOutcome (t u : State) : Prop :=
  t.resultLen = u.resultLen ∧ t.resultAux = u.resultAux ∧ t.status.done = u.status.done ∧
    t.status.err = u.status.err ∧ t.status.errcode = u.status.errcode ∧ t.status.matched = u.status.matched ∧
    ∀ k, k < 128 → Memory.read t.mem (0x100 + k) = Memory.read u.mem (0x100 + k)

/-- CMD, the PARAM registers, every SLOT_LEN and every byte outside RESULT are the same (R280, R302). -/
def SameOperands (s t : State) : Prop :=
  t.cmd = s.cmd ∧ t.param0 = s.param0 ∧ t.param1 = s.param1 ∧ t.param2 = s.param2 ∧ t.slotLen = s.slotLen ∧
    ∀ a, isResultByte a = false → Memory.read t.mem a = Memory.read s.mem a

/-! ## Operands -/

/-- Slot `k` of the snapshot holds the string `str`: its SLOT_LEN is the string's length, within the capacity (R32). -/
def Holds (n : Snap) (k : Slot) (str : Chars) : Prop := slot Config.params n k = some str

/-- Slot `k` holds `str`, of `lo` to `hi` characters, all in the set (R34). -/
def LegalOperand (n : Snap) (k : Slot) (lo hi : Nat) (set : Byte → Bool) (str : Chars) : Prop :=
  Holds n k str ∧ lo ≤ str.length ∧ str.length ≤ hi ∧ ∀ c ∈ str, set c = true

/-- A key operand: hex, of one of the lengths. -/
def LegalKey (n : Snap) (lens : List Nat) (str : Chars) : Prop :=
  Holds n Slot.key str ∧ str.length ∈ lens ∧ ∀ c ∈ str, isHex c = true

/-- The decimalization table in force (R230): DECTAB of 16 digits, or the default where DECTAB is empty. -/
def TableInForce (n : Snap) (t : Chars) : Prop :=
  (n.len Slot.dectab = 0 ∧ t = defaultDectab) ∨ LegalOperand n Slot.dectab 16 16 isDec t

/-- The legal PARAM fields of the parameter mode (R234). -/
def LegalVdParams (n : Snap) : Prop :=
  4 ≤ n.pinlen ∧ n.pinlen ≤ 12 ∧ n.start ≤ 15 ∧ 1 ≤ n.length ∧ n.length ≤ n.pinlen ∧ n.start + n.length ≤ 16 ∧
    isDec n.padchar = true

/-- A MAC message: hex, an even number of characters, within DATA_MAX (R183, R194). -/
def LegalData (n : Snap) (dat : Chars) : Prop :=
  Holds n Slot.data dat ∧ dat.length % 2 = 0 ∧ ∀ c ∈ dat, isHex c = true

/-! ## The operands R83 lists (30_encoding.md) -/

/-- The PARAM fields by name (R25, R26, R28). -/
inductive ParamField where
  | trunc | pvki | start | length | pinlen | padchar | keytype | usage | padmethod | wktype
  deriving DecidableEq, Repr

/-- The value of a PARAM field in the snapshot, zero-extended (R85). -/
def ParamField.value (n : Snap) : ParamField → Nat
  | .trunc => n.trunc
  | .pvki => n.pvki
  | .start => n.start
  | .length => n.length
  | .pinlen => n.pinlen
  | .padchar => n.padchar.toNat
  | .keytype => n.keytype
  | .usage => n.usage
  | .padmethod => n.padmethod
  | .wktype => n.wktype

/-- The column "slots" of R83. -/
def listedSlots : Instr → List Slot
  | .nop | .zeroize => []
  | .pinEncF1 => [Slot.pin]
  | .pinEncF0 | .pinEncF2 | .pinEncF3 | .pinEncF4 => [Slot.pin, Slot.pan]
  | .pinDecF1 => [Slot.pinblk]
  | .pinDecF0 | .pinDecF2 | .pinDecF3 | .pinDecF4 => [Slot.pinblk, Slot.pan]
  | .dukptKsnInc | .dukptAesKsnInc => [Slot.ksn]
  | .dukptIpek | .dukptTk | .dukptTkIpek | .dukptWk | .dukptAesIk | .dukptAesWk => [Slot.key, Slot.ksn]
  | .macAlg1 | .macAlg2 | .macAlg3 | .macX99 | .macX919 | .macRetail | .macTdesCbc | .macAs2805 | .macCmacAes
  | .macCmacTdes => [Slot.key, Slot.data]
  | .cvvGen | .cscV1 | .cscV2 => [Slot.key, Slot.pan, Slot.exp, Slot.svc]
  | .cvvGenAtc => [Slot.key, Slot.pan, Slot.exp, Slot.svc, Slot.atc]
  | .cvvVerify => [Slot.key, Slot.pan, Slot.exp, Slot.svc, Slot.check]
  | .cvvVerifyAtc => [Slot.key, Slot.pan, Slot.exp, Slot.svc, Slot.atc, Slot.check]
  | .cvc3Gen => [Slot.key, Slot.pan, Slot.psn, Slot.track, Slot.un, Slot.atc]
  | .pvvGen | .ibmOffset => [Slot.key, Slot.pan, Slot.pin, Slot.dectab]
  | .pvvPin | .ibmPin => [Slot.key, Slot.pan, Slot.check, Slot.dectab]
  | .ibmOffsetMask => [Slot.key, Slot.pan, Slot.pin, Slot.dectab, Slot.mask]
  | .ibmPinMask => [Slot.key, Slot.pan, Slot.check, Slot.dectab, Slot.mask]

/-- The column "params" of R83. -/
def listedFields : Instr → List ParamField
  | .dukptWk => [.usage]
  | .dukptAesIk => [.keytype]
  | .dukptAesWk => [.keytype, .usage, .wktype]
  | .macAlg1 | .macAlg2 | .macAlg3 | .macX99 | .macX919 | .macRetail | .macTdesCbc | .macAs2805 => [.padmethod, .trunc]
  | .macCmacAes | .macCmacTdes => [.trunc]
  | .pvvGen | .pvvPin => [.pvki]
  | .ibmOffset | .ibmPin => [.pinlen, .start, .length, .padchar]
  | .nop | .zeroize | .pinEncF0 | .pinEncF1 | .pinEncF2 | .pinEncF3 | .pinEncF4 | .pinDecF0 | .pinDecF1 | .pinDecF2
  | .pinDecF3 | .pinDecF4 | .dukptIpek | .dukptTk | .dukptTkIpek | .dukptKsnInc | .dukptAesKsnInc | .cvvGen
  | .cvvGenAtc | .cvvVerify | .cvvVerifyAtc | .cscV1 | .cscV2 | .cvc3Gen | .ibmOffsetMask | .ibmPinMask => []

/-- The snapshots agree on every slot string and PARAM field that R83 lists for the command. -/
def AgreeOnListed (i : Instr) (n m : Snap) : Prop :=
  (∀ k ∈ listedSlots i, n.len k = m.len k ∧ slot Config.params n k = slot Config.params m k) ∧
    ∀ f ∈ listedFields i, f.value n = f.value m

/-- R116 for one format: what the encoder leaves in RESULT, given to the decoder with the same PAN (read unless
`panRead` is false), decodes to the PIN. -/
def RoundTrips (enc dec : Instr) (f : Nat) (panRead : Bool) : Prop :=
  ∀ (s s' : State) (n n' : Snap) (pin pan : Chars) (t : State),
    s.mem.wf → s'.mem.wf → s.snap = some n → s'.snap = some n' → LegalOperand n Slot.pin 4 12 isDec pin →
    (panRead = true → LegalOperand n Slot.pan 13 19 isDec pan ∧ LegalOperand n' Slot.pan 13 19 isDec pan) →
    exec enc s = .next t → Holds n' Slot.pinblk (resultString t) →
      ∃ t', exec dec s' = .next t' ∧ t'.status.err = false ∧ t'.status.errcode = 0x00#8 ∧ ResultIs t' pin ∧
        t'.resultAux = auxWord f pin.length

/-! ## Invariants -/

/-- The invariants of STATUS that R24 states. -/
def StatusInv (s : State) : Prop :=
  (s.status.busy = true → s.status.done = false ∧ s.status.err = false ∧ s.status.matched = false) ∧
    (s.status.err = false ↔ s.status.errcode = 0x00#8) ∧
    (s.status.matched = true → s.status.err = false)

/-- SNAP exists exactly while BUSY = 1 (R36, R271), holds the last accepted CMD word (R23, R270), and LAST_OP is that
word's OPCODE field (R24). -/
def FlightInv (s : State) : Prop :=
  (s.status.busy = true ↔ s.snap.isSome = true) ∧ (∀ n, s.snap = some n → n.word = s.cmd) ∧
    s.status.lastOp = opcodeField s.cmd

/-- The window memory is in canonical form and lists only bytes the window stores (R22, R63). -/
def MemoryInv (s : State) : Prop :=
  s.mem.wf ∧ ∀ c ∈ s.mem, isResultByte c.1 = true ∨ isSlotByte Config.params c.1 = true

/-- The snapshot's data is in canonical form and lists only operand bytes (R270). -/
def SnapInv (s : State) : Prop :=
  ∀ n, s.snap = some n → n.data.wf ∧ ∀ c ∈ n.data, isOperandByte Config.params c.1 = true

/-- RESULT holds RESULT_LEN characters, at most 64, all decimal or upper-case hex, then 0x00 (R29, R272). -/
def ResultInv (s : State) : Prop :=
  s.resultLen.toNat ≤ 64 ∧
    (∀ k, k < s.resultLen.toNat → isHex (Memory.read s.mem (0x100 + k)) = true) ∧
    ∀ k, s.resultLen.toNat ≤ k → k < 128 → Memory.read s.mem (0x100 + k) = 0#8

end Sys2Proof.Machine
end

