-- ==== Sys2Proof/Certificates/Slice0/Obligations.lean ====
section
/-! DEFINITION. The statements for the provers. Each says what the machine does by a rule of the spec; where one rests on
a choice of the model, its docstring names the log entry. -/

section

open Sys2Proof Sys2Proof.Machine

/-! ## Decoding and stepping -/

/-- R80 to R84: the decoder reads back every encoded command and leaves the bytes that follow; a word decodes to a
command exactly when it is that command's word; the words that decode are the legal ones of R82 and R84. -/
def Obligations.DecodeEncodeAgree : Prop :=
  (∀ (i : Instr) (rest : List Byte), decode (encode i ++ rest) = .ok (i, rest)) ∧
  (∀ (w : Word) (i : Instr), decodeWord w = .ok i ↔ w = encodeWord i) ∧
  (∀ w : Word, legalCommandWord w = true ↔ ∃ i, decodeWord w = .ok i)

/-- Words written out from R83 decode to the commands they stand for, one of each unit. -/
def Obligations.KnownWordsDecode : Prop :=
  decodeWord 0x00000000#32 = .ok .nop ∧ decodeWord 0x00000001#32 = .ok .zeroize ∧
  decodeWord 0x00000010#32 = .ok .pinEncF0 ∧ decodeWord 0x0000001C#32 = .ok .pinDecF4 ∧
  decodeWord 0x00000021#32 = .ok .dukptTk ∧ decodeWord 0x0000002A#32 = .ok .dukptAesKsnInc ∧
  decodeWord 0x00000032#32 = .ok .macAlg3 ∧ decodeWord 0x00000039#32 = .ok .macCmacTdes ∧
  decodeWord 0x00000042#32 = .ok .cvvVerify ∧ decodeWord 0x0000004F#32 = .ok .ibmPinMask

/-- R272, R273: where the bytes of the command in flight decode to a command, the engine's turn is exactly that
command's meaning. The turn comes when it is the next event, or when no event is left (log entries 1 and 2). -/
def Obligations.StepRunsDecodedCommand : Prop :=
  ∀ (s : State) (w : Word) (i : Instr), s.fetch = some w → decode (bytesOfWord w) = .ok (i, []) →
    (s.events = [] → step s = exec i s) ∧
    ∀ rest, s.events = .engine :: rest → step s = exec i { s with events := rest }

/-- R69, R305: the events are taken one at a time in their order: an access has its effect at its place, a reset has
its, and the engine's turn changes nothing while no command is in flight (log entries 1 and 2). -/
def Obligations.StepTakesEventsInOrder : Prop :=
  (∀ (s : State) (a : Access) (rest : List Event), s.events = .access a :: rest →
    step s = .next (State.access Config.params { s with events := rest } a)) ∧
  (∀ (s : State) (rest : List Event), s.events = .reset :: rest →
    step s = .next (State.resetBlock { s with events := rest })) ∧
  (∀ (s : State) (rest : List Event), s.events = .engine :: rest → s.status.busy = false →
    step s = .next { s with events := rest }) ∧
  (∀ s : State, s.events = [] → s.status.busy = false → step s = .next s)

/-- R278, R82, R197: the completion of an illegal word in flight is the error completion with E_ILLEGAL_COMMAND, whatever
the slots hold. That the engine completes it where its turn is the next event, and also where no event is left, is the
model's form (log entries 1 and 2). Such a word, written to CMD while no command is in flight, is accepted and then shows
that code with the written OPCODE field, while no slot, no PARAM register and no other byte changes. -/
def Obligations.IllegalWordCompletesWithError : Prop :=
  (∀ (s : State) (w : Word) (rest : List Event), s.fetch = some w → legalCommandWord w = false →
    s.events = [] ∧ rest = [] ∨ s.events = .engine :: rest →
      step s = .next (({ s with events := rest } : State).completeErr .illegalCommand)) ∧
  ∀ (s : State) (w : Word) (rest : List Event),
    s.events = .access (wr 0x000#16 w) :: .engine :: rest → s.status.busy = false → legalCommandWord w = false →
      ∃ t, Sys2Proof.core.run 2 s = .next t ∧ t.events = rest ∧ t.cmd = w ∧ t.snap = none ∧
        t.status.toWord = 0x00#8 ++ w.extractLsb' 0 8 ++ 0x1F#8 ++ 0x06#8 ∧ ResultCleared t ∧
        t.param0 = s.param0 ∧ t.param1 = s.param1 ∧ t.param2 = s.param2 ∧ t.slotLen = s.slotLen ∧
        ∀ a, isResultByte a = false → Memory.read t.mem a = Memory.read s.mem a

/-! ## Reset -/

/-- R340: after reset every offset of the window reads 0 but ID's, and no command is in flight. -/
def Obligations.ResetStateReads : Prop :=
  (∀ off, off < 0x10000 → off % 4 = 0 →
    State.reset.readWord Config.params off = if off = 0x01C then 0x48534B31#32 else 0x00000000#32) ∧
  State.reset.snap = none ∧ State.reset.status.busy = false

/-- R342: a reset discards the command in flight and gives every register and byte its reset value. -/
def Obligations.ResetDiscardsCommandInFlight : Prop :=
  ∀ (s : State) (rest : List Event), s.events = .reset :: rest →
    ∃ t, step s = .next t ∧ t.cmd = 0x00000000#32 ∧ t.status.toWord = 0x00000000#32 ∧ t.param0 = 0x00000000#32 ∧
      t.param1 = 0x00000000#32 ∧ t.param2 = 0x00000000#32 ∧ t.resultLen = 0x00000000#32 ∧
      t.resultAux = 0x00000000#32 ∧ (∀ k : Slot, t.slotLen.get k = 0x00000000#32) ∧
      (∀ a, Memory.read t.mem a = 0x00#8) ∧ t.snap = none

/-- R24, R29, R36, R271 and the canonical memory hold of the reset state. -/
def Obligations.ResetMeetsInvariants : Prop :=
  StatusInv State.reset ∧ FlightInv State.reset ∧ MemoryInv State.reset ∧ SnapInv State.reset ∧ ResultInv State.reset

/-! ## Issue and completion -/

/-- R270: a CMD write while BUSY = 0 is accepted whatever the word: CMD and the snapshot take their values, STATUS
becomes BUSY with LAST_OP the OPCODE field, and RESULT, RESULT_LEN, RESULT_AUX and the live operands stay. -/
def Obligations.CmdWriteIssuesCommand : Prop :=
  ∀ (s : State) (w : Word) (rest : List Event),
    s.events = .access (wr 0x000#16 w) :: rest → s.status.busy = false →
      ∃ t n, step s = .next t ∧ t.cmd = w ∧ t.snap = some n ∧ n.word = w ∧ n.param0 = s.param0 ∧
        n.param1 = s.param1 ∧ n.param2 = s.param2 ∧ n.slotLen = s.slotLen ∧
        (∀ (k : Slot) (i : Nat), i < cap Config.params k →
          Memory.read n.data (slotBase k + i) = Memory.read s.mem (slotBase k + i)) ∧
        t.status.toWord = 0x00#8 ++ w.extractLsb' 0 8 ++ 0x00#8 ++ 0x01#8 ∧
        t.param0 = s.param0 ∧ t.param1 = s.param1 ∧ t.param2 = s.param2 ∧ t.slotLen = s.slotLen ∧ t.mem = s.mem ∧
        t.resultLen = s.resultLen ∧ t.resultAux = s.resultAux

/-- R274: a CMD write while BUSY = 1 sets OVERRUN and changes nothing else; the running command then completes as if
it had not happened; and OVERRUN, once set, stays set through every step but an accepted issue (or the reset). -/
def Obligations.CmdWriteWhileBusyIsDropped : Prop :=
  (∀ (s : State) (w : Word) (rest : List Event),
    s.events = .access (wr 0x000#16 w) :: rest → s.status.busy = true →
      ∃ t, step s = .next t ∧ t.status = { s.status with overrun := true } ∧ t.cmd = s.cmd ∧ t.snap = s.snap ∧
        t.param0 = s.param0 ∧ t.param1 = s.param1 ∧ t.param2 = s.param2 ∧ t.slotLen = s.slotLen ∧ t.mem = s.mem ∧
        t.resultLen = s.resultLen ∧ t.resultAux = s.resultAux ∧ t.draws = s.draws ∧
        ∀ (i : Instr) (u : State), exec i s = .next u →
          ∃ v, exec i t = .next v ∧ SameOutcome v u ∧ SameOperands u v ∧
            v.status = { u.status with overrun := true }) ∧
  ∀ s t : State, s.status.overrun = true → step s = .next t →
    t.status.overrun = true ∨ (∃ rest, s.events = .reset :: rest) ∨
      ∃ w rest, s.events = .access (wr 0x000#16 w) :: rest ∧ s.status.busy = false

/-- R272: a command in flight always completes, whichever it is: BUSY goes to 0 and DONE to 1, OVERRUN and LAST_OP
stay, the snapshot is discarded, ERR goes with a nonzero ERRCODE and a cleared RESULT, and MATCH is set by the two
verify commands alone. -/
def Obligations.EveryCommandCompletes : Prop :=
  ∀ (i : Instr) (s : State) (n : Snap), s.snap = some n →
    ∃ t, exec i s = .next t ∧ t.snap = none ∧ t.status.busy = false ∧ t.status.done = true ∧
      t.status.overrun = s.status.overrun ∧ t.status.lastOp = s.status.lastOp ∧
      (t.status.err = true ∧ t.status.errcode ≠ 0x00#8 ∧ t.status.matched = false ∧ ResultCleared t ∨
        t.status.err = false ∧ t.status.errcode = 0x00#8 ∧ t.resultLen.toNat ≤ 64) ∧
      (t.status.matched = true → i = .cvvVerify ∨ i = .cvvVerifyAtc)

/-- R272, R29: what the two outcomes write. The result stands in RESULT from offset 0x100, then 0x00; the flags, the
lengths and the codes are those of R272; nothing else changes. -/
def Obligations.CompletionWritesOutcome : Prop :=
  (∀ (s : State) (a : Answer), s.mem.wf → a.result.length ≤ 128 →
    ResultIs (s.completeOk a) a.result ∧ (s.completeOk a).resultAux = a.aux ∧ SameOperands s (s.completeOk a) ∧
    (s.completeOk a).snap = none ∧
    (s.completeOk a).status =
      { s.status with busy := false, done := true, err := false, errcode := 0x00#8, matched := a.matched }) ∧
  (∀ (s : State) (e : ErrCode),
    ResultCleared (s.completeErr e) ∧ SameOperands s (s.completeErr e) ∧ (s.completeErr e).snap = none ∧
    (s.completeErr e).status =
      { s.status with busy := false, done := true, err := true, errcode := e.code, matched := false })

/-- R302: a command that ends with an error shows its code, an empty zeroed RESULT and a zero RESULT_AUX, changes
nothing else but BUSY, DONE and MATCH, and does not block the next command: it is issued as ever. -/
def Obligations.ErrorCompletionChangesNothingElse : Prop :=
  ∀ (i : Instr) (s t : State), exec i s = .next t → t.status.err = true →
    (∃ e : ErrCode, t.status = { s.status with busy := false, done := true, err := true, errcode := e.code,
                                               matched := false }) ∧
    ResultCleared t ∧ SameOperands s t ∧
    ∀ (w : Word) (rest : List Event), t.events = .access (wr 0x000#16 w) :: rest →
      ∃ u n, step t = .next u ∧ u.status.busy = true ∧ u.snap = some n ∧ n.word = w

/-- R279: a command's outcome is a function of its snapshot and its draws alone: how many nibbles it draws is the same
for the same snapshot (none but for PIN_ENC_F1 and PIN_ENC_F3), and where the drawn nibbles are equal, one by one, so is
the outcome. No command but ZEROIZE writes a slot or a PARAM register. That a drawn nibble is the model's constant at its
draw counter is log entry 9; the counters of the two states need not be equal. -/
def Obligations.OutcomeDependsOnSnapshotAndDraws : Prop :=
  (∀ (i : Instr) (s s' : State) (n : Snap), s.mem.wf → s'.mem.wf → s.snap = some n → s'.snap = some n →
    ∃ t t', exec i s = .next t ∧ exec i s' = .next t' ∧ t.draws + s'.draws = t'.draws + s.draws ∧
      (i ≠ .pinEncF1 → i ≠ .pinEncF3 → t.draws = s.draws) ∧
      ((∀ j, s.draws + j < t.draws → Config.rng (s.draws + j) = Config.rng (s'.draws + j)) → SameOutcome t t')) ∧
  ∀ (i : Instr) (s t : State), i ≠ .zeroize → exec i s = .next t → SameOperands s t

/-- R280: a command run twice with no host write between gives the same outcome, but for PIN_ENC_F1 and PIN_ENC_F3;
and no command but ZEROIZE consumes or clears an operand. -/
def Obligations.SameCommandTwiceSameOutcome : Prop :=
  (∀ (i : Instr) (s : State), i ≠ .pinEncF1 → i ≠ .pinEncF3 → s.mem.wf →
    ∃ t u, exec i (s.issue Config.params (encodeWord i)) = .next t ∧
      exec i (t.issue Config.params (encodeWord i)) = .next u ∧ SameOutcome t u) ∧
  ∀ (i : Instr) (s t : State), i ≠ .zeroize → exec i s = .next t → SameOperands s t

/-- The frame of the 42 commands but ZEROIZE, for every outcome (R272, R280, R302): CMD, PARAM0 to PARAM2, every
SLOT_LEN, OVERRUN, LAST_OP and every byte outside RESULT stay. The model's own fields stay too, the draw counter but
for the two encoders that draw (log entries 1, 9 and 11). -/
def Obligations.CommandFrame : Prop :=
  ∀ (i : Instr) (s t : State), i ≠ .zeroize → exec i s = .next t →
    SameOperands s t ∧ t.status.overrun = s.status.overrun ∧ t.status.lastOp = s.status.lastOp ∧
      t.events = s.events ∧ t.response = s.response ∧ (i ≠ .pinEncF1 → i ≠ .pinEncF3 → t.draws = s.draws)

/-- R277: ZEROIZE completes without error and clears every slot byte, every SLOT_LEN, the PARAM registers and RESULT;
CMD, LAST_OP and OVERRUN stay, and so does every byte that is neither slot data nor RESULT. -/
def Obligations.ZeroizeClearsOperands : Prop :=
  ∀ (s : State) (n : Snap), s.snap = some n →
    ∃ t, exec .zeroize s = .next t ∧
      (∀ (k : Slot) (i : Nat), i < cap Config.params k → Memory.read t.mem (slotBase k + i) = 0x00#8) ∧
      (∀ k : Slot, t.slotLen.get k = 0x00000000#32) ∧ t.param0 = 0x00000000#32 ∧ t.param1 = 0x00000000#32 ∧
      t.param2 = 0x00000000#32 ∧ ResultCleared t ∧ t.cmd = s.cmd ∧ t.snap = none ∧
      t.status = { s.status with busy := false, done := true, err := false, errcode := 0x00#8, matched := false } ∧
      t.draws = s.draws ∧ t.events = s.events ∧ t.response = s.response ∧
      ∀ a, isResultByte a = false → isSlotByte Config.params a = false → Memory.read t.mem a = Memory.read s.mem a

/-- R276: NOP completes without error with an empty RESULT, a zero RESULT_AUX and no other change; from reset its word
gives STATUS 0x00000002. -/
def Obligations.NopClearsResult : Prop :=
  (∀ (s : State) (n : Snap), s.snap = some n →
    ∃ t, exec .nop s = .next t ∧ ResultCleared t ∧ SameOperands s t ∧ t.snap = none ∧ t.draws = s.draws ∧
      t.status = { s.status with busy := false, done := true, err := false, errcode := 0x00#8, matched := false }) ∧
  ∃ t, Sys2Proof.core.run 2 { State.reset with events := [.access (wr 0x000#16 0x00000000#32), .engine] } = .next t ∧
    t.status.toWord = 0x00000002#32

/-! ## Ordering and progress -/

/-- R73, R69, R355: whatever accesses the host makes while a command is in flight, the command stays the same and
completes with the same outcome. -/
def Obligations.HostAccessesNeverChangeRunningCommand : Prop :=
  ∀ (s : State) (accesses : List Access) (rest : List Event),
    s.mem.wf → s.status.busy = true → s.events = accesses.map .access ++ rest →
      ∃ t, Sys2Proof.core.run accesses.length s = .next t ∧ t.events = rest ∧ t.status.busy = true ∧
        t.snap = s.snap ∧ t.cmd = s.cmd ∧
        ∀ (i : Instr) (u : State), exec i s = .next u → ∃ v, exec i t = .next v ∧ SameOutcome v u

/-- R275 in the model's form: once the events to come are spent the engine has its turn (log entries 1 and 2), so a
command in flight has completed, or been discarded by a reset, at most one step after the last event. -/
def Obligations.EveryCommandEnds : Prop :=
  ∀ s : State, FlightInv s → s.status.busy = true →
    ∃ (k : Nat) (t : State), k ≤ s.events.length + 1 ∧ Sys2Proof.core.run k s = .next t ∧ t.status.busy = false

/-- R70, R272, R350: RESULT, RESULT_LEN and RESULT_AUX keep what the last completion wrote through every run of host
accesses, an issue among them. The fields of STATUS but OVERRUN stay until the next accepted issue: while a command is in
flight, and while no access writes CMD. The issue itself clears ERR, ERRCODE and MATCH, by R24 and R270 and against the
words of R350 (log entry 19). -/
def Obligations.HostAccessesKeepResult : Prop :=
  ∀ (s : State) (accesses : List Access) (rest : List Event), s.events = accesses.map .access ++ rest →
    ∃ t, Sys2Proof.core.run accesses.length s = .next t ∧ t.events = rest ∧ t.resultLen = s.resultLen ∧
      t.resultAux = s.resultAux ∧ (∀ k, k < 128 → Memory.read t.mem (0x100 + k) = Memory.read s.mem (0x100 + k)) ∧
      ((s.status.busy = true ∨ ∀ w, wr 0x000#16 w ∉ accesses) →
        t.status = { s.status with overrun := t.status.overrun })

/-! ## Invariants -/

/-- R24, R36, R271: every step keeps the invariants of STATUS and of the command in flight. -/
def Obligations.StatusAndFlightKept : Prop :=
  ∀ s t : State, StatusInv s → FlightInv s → step s = .next t → StatusInv t ∧ FlightInv t

/-- R22, R63, R270: every step keeps the window memory and the snapshot in canonical form, listing only bytes that
exist. -/
def Obligations.MemoryAndSnapshotKept : Prop :=
  ∀ s t : State, MemoryInv s → SnapInv s → step s = .next t → MemoryInv t ∧ SnapInv t

/-- R29: every step keeps RESULT a string of at most 64 upper-case hex or decimal characters followed by 0x00. -/
def Obligations.ResultStringKept : Prop :=
  ∀ s t : State, MemoryInv s → ResultInv s → step s = .next t → ResultInv t

/-- R271, R302: no step of a state that meets the invariant of R36 stops: every one has a next state. -/
def Obligations.EveryStepHasNextState : Prop :=
  ∀ s : State, FlightInv s → ∃ t, step s = .next t

/-! ## The window -/

/-- R62, R317: an access gets the bus error exactly when it is not 32 bits wide at a multiple of 4; it then changes no
state of the block and its read data is 0. -/
def Obligations.BusErrorExactly : Prop :=
  ∀ (s : State) (a : Access) (rest : List Event), s.events = .access a :: rest →
    (¬ (a.width = 4 ∧ a.offset.toNat % 4 = 0) →
      step s = .next { s with events := rest, response := some (.busError 0x00000000#32) }) ∧
    ((a.width = 4 ∧ a.offset.toNat % 4 = 0) → ∃ t, step s = .next t ∧ ∀ v, t.response ≠ some (.busError v))

/-- R65: a read changes nothing in the block; a write of anything but CMD made twice is the same as made once. -/
def Obligations.ReadsHaveNoEffectAndWritesRepeat : Prop :=
  (∀ (s : State) (off : BitVec 16) (rest : List Event), s.events = .access (rd off) :: rest → off.toNat % 4 = 0 →
    step s = .next { s with events := rest, response := some (.data (s.readWord Config.params off.toNat)) }) ∧
  ∀ (s : State) (off : BitVec 16) (v : Word), s.mem.wf → off ≠ 0x000#16 →
    State.access Config.params (State.access Config.params s (wr off v)) (wr off v) =
      State.access Config.params s (wr off v)

/-- R63, R27: reserved words read 0 and ignore writes; STATUS, RESULT_LEN, RESULT_AUX, ID and RESULT ignore writes; ID
reads 0x48534B31; none of these is a bus error. Where DATA_MAX is no multiple of 4, the reserved bytes of the last word do
so too (log entry 13). It holds for every legal DATA_MAX. -/
def Obligations.ReservedAndReadOnlyOffsets : Prop :=
  ∀ (P : Params) (s : State) (off : BitVec 16) (v : Word), legalDataMax P.dataMax = true → off.toNat % 4 = 0 →
    ((0x020 ≤ off.toNat ∧ off.toNat < 0x040 ∨ 0x07C ≤ off.toNat ∧ off.toNat < 0x100 ∨
        0x180 ≤ off.toNat ∧ off.toNat < 0x200 ∨ 0x580 ≤ off.toNat ∧ off.toNat < 0x1000 ∨
        0x1000 + P.dataMax ≤ off.toNat) →
      State.access P s (rd off) = { s with response := some (.data 0x00000000#32) } ∧
        State.access P s (wr off v) = { s with response := some .written }) ∧
    ((off.toNat = 0x004 ∨ off.toNat = 0x014 ∨ off.toNat = 0x018 ∨ off.toNat = 0x01C ∨
        0x100 ≤ off.toNat ∧ off.toNat < 0x180) →
      State.access P s (wr off v) = { s with response := some .written }) ∧
    (off.toNat = 0x01C →
      State.access P s (rd off) = { s with response := some (.data 0x48534B31#32) }) ∧
    ∀ j, j < 4 → 0x1000 + P.dataMax ≤ off.toNat + j →
      (s.readWord P off.toNat).extractLsb' (8 * j) 8 = 0x00#8 ∧
        Memory.read (State.access P s (wr off v)).mem (off.toNat + j) = Memory.read s.mem (off.toNat + j)

/-- R25, R26, R28, R33, R65: a write of PARAM0, PARAM1, PARAM2 or a SLOT_LEN stores all 32 bits, whatever the value,
and changes nothing else but the model's own response (log entry 11); the register then reads as written. -/
def Obligations.ParamAndSlotLenWritesStore : Prop :=
  (∀ (s : State) (v : Word),
    State.access Config.params s (wr 0x008#16 v) = { s with param0 := v, response := some .written } ∧
    State.access Config.params s (wr 0x00C#16 v) = { s with param1 := v, response := some .written } ∧
    State.access Config.params s (wr 0x010#16 v) = { s with param2 := v, response := some .written } ∧
    (State.access Config.params s (wr 0x008#16 v)).readWord Config.params 0x008 = v ∧
    (State.access Config.params s (wr 0x00C#16 v)).readWord Config.params 0x00C = v ∧
    (State.access Config.params s (wr 0x010#16 v)).readWord Config.params 0x010 = v) ∧
  ∀ (s : State) (v : Word) (k : Slot),
    let off := BitVec.ofNat 16 (0x040 + 4 * k.val)
    let t := State.access Config.params s (wr off v)
    t = { s with slotLen := t.slotLen, response := some .written } ∧ t.slotLen.get k = v ∧
      (∀ j : Slot, j ≠ k → t.slotLen.get j = s.slotLen.get j) ∧ t.readWord Config.params off.toNat = v

/-- R61: a bus word at a buffer carries its four bytes, the one of lowest offset in bits 7:0, both ways; at a register
it is the register's value. A write reaches slot data only, and no byte outside its word. In a word that DATA_MAX ends in
each byte follows its own rule, by the model's reading (log entry 13). -/
def Obligations.BusWordsCarryByteLanes : Prop :=
  (∀ (s : State) (off : BitVec 16) (j : Nat), off.toNat % 4 = 0 → j < 4 →
    (isSlotByte Config.params (off.toNat + j) = true ∨ isResultByte (off.toNat + j) = true) →
      (s.readWord Config.params off.toNat).extractLsb' (8 * j) 8 = Memory.read s.mem (off.toNat + j)) ∧
  (∀ (s : State) (off : BitVec 16) (v : Word) (j : Nat), s.mem.wf → off.toNat % 4 = 0 → j < 4 →
    isSlotByte Config.params (off.toNat + j) = true →
      Memory.read (State.access Config.params s (wr off v)).mem (off.toNat + j) = v.extractLsb' (8 * j) 8) ∧
  (∀ (s : State) (off : BitVec 16) (v : Word) (a : Nat), a < off.toNat ∨ off.toNat + 4 ≤ a →
    Memory.read (State.access Config.params s (wr off v)).mem a = Memory.read s.mem a) ∧
  (∀ (s : State) (off : BitVec 16) (v : Word) (a : Nat), isSlotByte Config.params a = false →
    Memory.read (State.access Config.params s (wr off v)).mem a = Memory.read s.mem a) ∧
  ∀ s : State, s.readWord Config.params 0x000 = s.cmd ∧ s.readWord Config.params 0x004 = s.status.toWord ∧
    s.readWord Config.params 0x008 = s.param0 ∧ s.readWord Config.params 0x00C = s.param1 ∧
    s.readWord Config.params 0x010 = s.param2 ∧ s.readWord Config.params 0x014 = s.resultLen ∧
    s.readWord Config.params 0x018 = s.resultAux ∧ s.readWord Config.params 0x01C = 0x48534B31#32 ∧
    ∀ k : Slot, s.readWord Config.params (0x040 + 4 * k.val) = s.slotLen.get k

/-! ## Operands -/

/-- R32: the operand string a command sees is the first SLOT_LEN characters its slot had at the issue, and a SLOT_LEN
above the capacity is INVALID: it fails every length check of a command, those of DATA, DECTAB and MASK too. -/
def Obligations.OperandStringOfIssue : Prop :=
  (∀ (s : State) (w : Word) (k : Slot),
    slot Config.params (s.snapshot Config.params w) k =
      if (s.slotLen.get k).toNat ≤ cap Config.params k then
        some ((List.range (s.slotLen.get k).toNat).map fun i => Memory.read s.mem (slotBase k + i))
      else none) ∧
  (∀ (n : Snap) (k : Slot) (lens : Nat → Bool) (set : Byte → Bool) (e : ErrCode),
    cap Config.params k < n.len k → field Config.params n k lens set e = .error e) ∧
  ∀ n : Snap,
    (cap Config.params Slot.data < n.len Slot.data → dataLengthChk Config.params n = .error .invalidDataLength) ∧
    (cap Config.params Slot.dectab < n.len Slot.dectab →
      decChk Config.params n = .error .invalidDecimalizationTable) ∧
    (cap Config.params Slot.mask < n.len Slot.mask → maskChk Config.params n = .error .invalidMask)

/-- R34: the operand check tests the length first, then the characters, and delivers the slot's string; its three sets
are exactly the characters the rule lists. -/
def Obligations.OperandCheckOrder : Prop :=
  (∀ (n : Snap) (k : Slot) (lens : Nat → Bool) (set : Byte → Bool) (e : ErrCode),
    (∀ l, lens l = true → l ≤ cap Config.params k) →
      (lens (n.len k) = false → field Config.params n k lens set e = .error e) ∧
      (lens (n.len k) = true → (∃ i, i < n.len k ∧ set (Memory.read n.data (slotBase k + i)) = false) →
        field Config.params n k lens set e = .error .invalidCharacter) ∧
      (lens (n.len k) = true → (∀ i, i < n.len k → set (Memory.read n.data (slotBase k + i)) = true) →
        ∃ str, slot Config.params n k = some str ∧ field Config.params n k lens set e = .ok str)) ∧
  ∀ c : Byte,
    (isDec c = true ↔ 0x30 ≤ c.toNat ∧ c.toNat ≤ 0x39) ∧
    (isHex c = true ↔ 0x30 ≤ c.toNat ∧ c.toNat ≤ 0x39 ∨ 0x41 ≤ c.toNat ∧ c.toNat ≤ 0x46) ∧
    (isMask c = true ↔ 0x30 ≤ c.toNat ∧ c.toNat ≤ 0x39 ∨ c.toNat = 0x4E)

/-- R85, R83, R119: a command reads no slot and no PARAM field that R83 does not list for it: two snapshots that agree
on the listed ones give, with equal drawn nibbles, the same outcome, whatever else differs. That a drawn nibble is the
model's constant at its draw counter is log entry 9; the counters need not be equal. -/
def Obligations.OnlyListedOperandsAreRead : Prop :=
  ∀ (i : Instr) (s s' : State) (n n' : Snap), s.mem.wf → s'.mem.wf → s.snap = some n → s'.snap = some n' →
    AgreeOnListed i n n' →
      ∃ t t', exec i s = .next t ∧ exec i s' = .next t' ∧ t.draws + s'.draws = t'.draws + s.draws ∧
        ((∀ j, s.draws + j < t.draws → Config.rng (s.draws + j) = Config.rng (s'.draws + j)) → SameOutcome t t')

/-- R300: the code of every error, each nonzero and no two the same. -/
def Obligations.ErrorCodeNumbers : Prop :=
  ErrCode.code .invalidPinLength = 0x01#8 ∧ ErrCode.code .invalidPanLength = 0x02#8 ∧
  ErrCode.code .invalidFormatTag = 0x03#8 ∧ ErrCode.code .invalidPinBlockLength = 0x04#8 ∧
  ErrCode.code .invalidKeyLength = 0x05#8 ∧ ErrCode.code .invalidKsnLength = 0x06#8 ∧
  ErrCode.code .emptyData = 0x07#8 ∧ ErrCode.code .invalidTruncation = 0x08#8 ∧
  ErrCode.code .invalidPvki = 0x09#8 ∧ ErrCode.code .invalidDecimalizationTable = 0x0A#8 ∧
  ErrCode.code .invalidMask = 0x0B#8 ∧ ErrCode.code .invalidCharacter = 0x10#8 ∧
  ErrCode.code .invalidParameter = 0x11#8 ∧ ErrCode.code .invalidFieldLength = 0x12#8 ∧
  ErrCode.code .invalidDataLength = 0x13#8 ∧ ErrCode.code .invalidPinDigit = 0x14#8 ∧
  ErrCode.code .counterExhausted = 0x15#8 ∧ ErrCode.code .illegalCommand = 0x1F#8 ∧
  ∀ d e : ErrCode, d.code = e.code → d = e

/-! ## The cipher compositions -/

/-- R9: triple DES is encrypt, decrypt, encrypt under the three key parts, the third being the first for a 16-byte key;
its decryption undoes it, of every cipher that satisfies R8. -/
def Obligations.TripleDesComposition : Prop :=
  ∀ (P : Params) (k1 k2 k3 : Bytes) (x : Block), k1.length = 8 → k2.length = 8 → k3.length = 8 →
    tdesE P (k1 ++ k2) x = P.desE (toBits 64 k1) (P.desD (toBits 64 k2) (P.desE (toBits 64 k1) x)) ∧
    tdesE P (k1 ++ k2 ++ k3) x = P.desE (toBits 64 k3) (P.desD (toBits 64 k2) (P.desE (toBits 64 k1) x)) ∧
    tdesD P (k1 ++ k2) x = P.desD (toBits 64 k1) (P.desE (toBits 64 k2) (P.desD (toBits 64 k1) x)) ∧
    tdesD P (k1 ++ k2 ++ k3) x = P.desD (toBits 64 k1) (P.desE (toBits 64 k2) (P.desD (toBits 64 k3) x)) ∧
    (P.CipherLawful → tdesD P (k1 ++ k2) (tdesE P (k1 ++ k2) x) = x ∧
      tdesD P (k1 ++ k2 ++ k3) (tdesE P (k1 ++ k2 ++ k3) x) = x)

/-- R181: CBC over the blocks of a byte string: the empty string gives the zero block, and each further block is XORed
in and encrypted. -/
def Obligations.CbcChainsBlocks : Prop :=
  ∀ (b : Nat) (E : BitVec (8 * b) → BitVec (8 * b)) (d last : Bytes),
    0 < b → d.length % b = 0 → last.length = b →
      cbc E (toBlocks (8 * b) b []) = 0#(8 * b) ∧
      cbc E (toBlocks (8 * b) b (d ++ last)) = E (cbc E (toBlocks (8 * b) b d) ^^^ toBits (8 * b) last)

/-- R180: the three padding methods: whole blocks result, the padding is the shortest, method 3 begins with the bit
length as one block; and any other PADMETHOD is refused by the DES-based MACs. -/
def Obligations.PaddingMethods : Prop :=
  (∀ (b : Nat) (m : Bytes), 0 < b →
    padMethod 1 b m = pad1 b m ∧ padMethod 2 b m = pad2 b m ∧ padMethod 3 b m = pad3 b m ∧
    (∃ k, k < b ∧ pad1 b m = m ++ List.replicate k 0x00#8 ∧ (pad1 b m).length % b = 0) ∧
    (∃ k, k < b ∧ pad2 b m = m ++ [0x80#8] ++ List.replicate k 0x00#8 ∧ (pad2 b m).length % b = 0) ∧
    (∃ p, p.length = b ∧ intOf p = 8 * m.length % 256 ^ b ∧ pad3 b m = p ++ pad1 b m)) ∧
  ∀ (i : Instr) (s : State) (n : Snap) (key dat : Chars),
    (i = .macAlg1 ∨ i = .macX99) ∧ LegalKey n [16] key ∨
      (i = .macAlg2 ∨ i = .macAlg3 ∨ i = .macX919 ∨ i = .macRetail ∨ i = .macAs2805) ∧ LegalKey n [32] key ∨
      i = .macTdesCbc ∧ LegalKey n [32, 48] key →
    s.snap = some n → LegalData n dat → 0 < dat.length → n.padmethod ∉ [1, 2, 3] →
      exec i s = .next (s.completeErr .invalidParameter)

/-- R192, R193: CMAC. The subkeys are doublings of the encrypted zero block; a message whose last block is complete has
it masked by K1; any other, the empty one among them, is padded with 0x80 and zeros and masked by K2. -/
def Obligations.CmacFunction : Prop :=
  (∀ (w : Nat) (rb x : BitVec w),
    (dbl rb x).toNat = (2 * x.toNat % 2 ^ w) ^^^ (if x.getLsbD (w - 1) then rb.toNat else 0)) ∧
  ∀ (b : Nat) (rb : BitVec (8 * b)) (E : BitVec (8 * b) → BitVec (8 * b)) (d last : Bytes),
    0 < b → d.length % b = 0 → last.length ≤ b →
      (last.length = b → cmac rb b E (d ++ last) =
        E (cbc E (toBlocks (8 * b) b d) ^^^ (toBits (8 * b) last ^^^ dbl rb (E 0#(8 * b))))) ∧
      (last.length < b → (d = [] ∨ 0 < last.length) → cmac rb b E (d ++ last) =
        E (cbc E (toBlocks (8 * b) b d) ^^^
          (toBits (8 * b) (last ++ [0x80#8] ++ List.replicate (b - last.length - 1) 0x00#8) ^^^
            dbl rb (dbl rb (E 0#(8 * b))))))

/-- R196, R186, R190: the two finalizations the source names for Algorithm 3 give one value; with equal key parts
Algorithm 3 and the triple-DES CBC-MAC give the Algorithm 1 value. -/
def Obligations.Alg3ProfilesAgree : Prop :=
  ∀ (P : Params) (k1 k2 d last : Bytes), P.CipherLawful → k1.length = 8 → k2.length = 8 → d.length % 8 = 0 →
    last.length = 8 →
      tdesE P (k1 ++ k2) (alg1 P (k1 ++ k2) d ^^^ toBits 64 last) = alg3 P (k1 ++ k2) (d ++ last) ∧
      alg3 P (k1 ++ k1) (d ++ last) = alg1 P k1 (d ++ last) ∧
      tdesCbc P (k1 ++ k1) (d ++ last) = alg1 P k1 (d ++ last) ∧
      tdesCbc P (k1 ++ k1 ++ k1) (d ++ last) = alg1 P k1 (d ++ last)

/-! ## The PIN block codec -/

/-- R105 to R109: on a PIN of 4 to 12 digits and a PAN of 13 to 19 digits every encoder completes without error with
the field of R100 XORed with the PAN field of R101 or R102; format 1 reads no PAN; formats 1 and 3 pad with fresh
draws, whatever their values (log entry 9). -/
def Obligations.PinEncodersComplete : Prop :=
  ∀ (s : State) (n : Snap) (pin pan : Chars), s.snap = some n → LegalOperand n Slot.pin 4 12 isDec pin →
    exec .pinEncF1 s = .next (s.completeOk
      { result := pf16 1 pin (padDraws Config.params s.draws (14 - pin.length)), aux := auxWord 1 pin.length,
        drawn := 14 - pin.length }) ∧
    (LegalOperand n Slot.pan 13 19 isDec pan →
      exec .pinEncF0 s = .next (s.completeOk
        { result := xorHex (pf16 0 pin (padF pin.length)) (panF16 pan), aux := auxWord 0 pin.length }) ∧
      exec .pinEncF2 s = .next (s.completeOk
        { result := xorHex (pf16 2 pin (padF pin.length)) (panF16 pan), aux := auxWord 2 pin.length }) ∧
      exec .pinEncF3 s = .next (s.completeOk
        { result := xorHex (pf16 3 pin (padDraws Config.params s.draws (14 - pin.length))) (panF16 pan),
          aux := auxWord 3 pin.length, drawn := 14 - pin.length }) ∧
      exec .pinEncF4 s = .next (s.completeOk
        { result := xorHex (pf32 pin) (panF32 pan), aux := auxWord 4 pin.length }))

/-- R111 to R115: on a block of the right length whose field, the PAN field removed, has the format's tag, a length of
4 to 12 and that many decimal digits, every decoder completes without error with those digits, whatever the pad. -/
def Obligations.PinDecodersComplete : Prop :=
  ∀ (s : State) (n : Snap) (blk pan pin pad : Chars), s.snap = some n → 4 ≤ pin.length → pin.length ≤ 12 →
    (∀ c ∈ pin, isDec c = true) → (∀ c ∈ pad, isHex c = true) →
    (LegalOperand n Slot.pinblk 16 16 isHex blk → blk = pf16 1 pin pad →
      exec .pinDecF1 s = .next (s.completeOk { result := pin, aux := auxWord 1 pin.length })) ∧
    (LegalOperand n Slot.pan 13 19 isDec pan →
      (LegalOperand n Slot.pinblk 16 16 isHex blk →
        (xorHex blk (panF16 pan) = pf16 0 pin pad →
          exec .pinDecF0 s = .next (s.completeOk { result := pin, aux := auxWord 0 pin.length })) ∧
        (xorHex blk (panF16 pan) = pf16 2 pin pad →
          exec .pinDecF2 s = .next (s.completeOk { result := pin, aux := auxWord 2 pin.length })) ∧
        (xorHex blk (panF16 pan) = pf16 3 pin pad →
          exec .pinDecF3 s = .next (s.completeOk { result := pin, aux := auxWord 3 pin.length }))) ∧
      (LegalOperand n Slot.pinblk 32 32 isHex blk →
        (xorHex blk (panF32 pan)).take (3 + pin.length) = hexchar 4 :: hexchar 0 :: hexchar pin.length :: pin →
          exec .pinDecF4 s = .next (s.completeOk { result := pin, aux := auxWord 4 pin.length })))

/-- R105 in full: PIN_ENC_F0's word, and its outcome for every operand: the checks in their order, then the block. -/
def Obligations.PinEncF0EveryOutcome : Prop :=
  encodeWord .pinEncF0 = 0x00000010#32 ∧
  ∀ (s : State) (n : Snap), s.snap = some n →
    let l := n.len Slot.pin
    let pin := n.chars Slot.pin l
    let pan := n.chars Slot.pan (n.len Slot.pan)
    exec .pinEncF0 s = .next (
      if ¬ (4 ≤ l ∧ l ≤ 12) then s.completeErr .invalidPinLength
      else if ¬ (∀ c ∈ pin, isDec c = true) then s.completeErr .invalidCharacter
      else if ¬ (13 ≤ n.len Slot.pan ∧ n.len Slot.pan ≤ 19) then s.completeErr .invalidPanLength
      else if ¬ (∀ c ∈ pan, isDec c = true) then s.completeErr .invalidCharacter
      else s.completeOk
        { result := xorHex (hexchar 0 :: hexchar l :: (pin ++ List.replicate (14 - l) 0x46#8))
            (List.replicate 4 0x30#8 ++ (pan.drop (n.len Slot.pan - 13)).take 12),
          aux := BitVec.ofNat 32 (256 * l) })

/-- R112 in full: PIN_DEC_F1's word, and its outcome for every operand: the checks in their order, then the digits. -/
def Obligations.PinDecF1EveryOutcome : Prop :=
  encodeWord .pinDecF1 = 0x00000019#32 ∧
  ∀ (s : State) (n : Snap), s.snap = some n →
    let p := n.chars Slot.pinblk (n.len Slot.pinblk)
    let l := val (p.getD 1 0x30#8)
    let pin := (p.drop 2).take l
    exec .pinDecF1 s = .next (
      if n.len Slot.pinblk ≠ 16 then s.completeErr .invalidPinBlockLength
      else if ¬ (∀ c ∈ p, isHex c = true) then s.completeErr .invalidCharacter
      else if val (p.getD 0 0x30#8) ≠ 1 then s.completeErr .invalidFormatTag
      else if ¬ (4 ≤ l ∧ l ≤ 12) then s.completeErr .invalidPinLength
      else if ¬ (∀ c ∈ pin, isDec c = true) then s.completeErr .invalidPinDigit
      else s.completeOk { result := pin, aux := BitVec.ofNat 32 (1 + 256 * l) })

/-- R116: in every format, what the encoder left in RESULT decodes, with the same PAN, to the PIN it encoded; the tag
and the length come back in RESULT_AUX. -/
def Obligations.PinBlockRoundTrip : Prop :=
  RoundTrips .pinEncF0 .pinDecF0 0 true ∧ RoundTrips .pinEncF1 .pinDecF1 1 false ∧
  RoundTrips .pinEncF2 .pinDecF2 2 true ∧ RoundTrips .pinEncF3 .pinDecF3 3 true ∧
  RoundTrips .pinEncF4 .pinDecF4 4 true

/-! ## DUKPT -/

/-- R143, R146, R148, R149: on a key of 32 and a KSN of 20 hex characters the legacy derivations complete without error
with the IPEK of R142, the transaction key of R144, and for a legal USAGE that key XOR its variant; a USAGE above 2 is
E_INVALID_PARAMETER. -/
def Obligations.LegacyDukptCompletes : Prop :=
  ∀ (s : State) (n : Snap) (key ksn : Chars), s.snap = some n → LegalKey n [32] key →
    LegalOperand n Slot.ksn 20 20 isHex ksn →
      let P := Config.params
      let K : BitVec 80 := toBits 80 (bytes ksn)
      let I := ipek P (bytes key) K
      exec .dukptIpek s = .next (s.completeOk { result := hexBits I }) ∧
      exec .dukptTk s = .next (s.completeOk { result := hexBits (transactionKey P I (K.extractLsb' 0 21)) }) ∧
      exec .dukptTkIpek s = .next (s.completeOk
        { result := hexBits (transactionKey P (toBits 128 (bytes key)) (K.extractLsb' 0 21)) }) ∧
      (∀ u, usageOf n.usage = some u → exec .dukptWk s = .next (s.completeOk
        { result := hexBits (transactionKey P I (K.extractLsb' 0 21) ^^^ P.variant u) })) ∧
      (2 < n.usage → exec .dukptWk s = .next (s.completeErr .invalidParameter))

/-- R142, R144, R143, R146: the IPEK is the two triple-DES encryptions of the KSN's upper 64 bits with their counter
bits cleared; the transaction key applies the step once for each set counter bit, from the lowest up, to the right
half; so the counter does not enter the IPEK, counter 0 gives the IPEK back and the left half never changes. -/
def Obligations.LegacyKeyDerivation : Prop :=
  (∀ (P : Params) (bdk : Bytes) (K : BitVec 80),
    ipek P bdk K =
      tdesE P bdk (K.extractLsb' 16 64 &&& 0xFFFFFFFFFFFFFFE0#64) ++
        tdesE P (xorBytes bdk (bytesOf 16 0xC0C0C0C000000000C0C0C0C000000000))
          (K.extractLsb' 16 64 &&& 0xFFFFFFFFFFFFFFE0#64)) ∧
  (∀ (P : Params) (l r : Block) (c : BitVec 21),
    transactionKey P (l ++ r) c =
      l ++ ((List.range 21).filter fun i => c.getLsbD i).foldl
        (fun r i => P.dukptStep (bytesOf 8 l.toNat ++ bytesOf 8 r.toNat) (r ^^^ BitVec.ofNat 64 (2 ^ i))) r) ∧
  (∀ (P : Params) (bdk : Bytes) (K K' : BitVec 80), K.extractLsb' 21 59 = K'.extractLsb' 21 59 →
    ipek P bdk K = ipek P bdk K') ∧
  (∀ (P : Params) (I : Block16), transactionKey P I 0#21 = I) ∧
  (∀ (P : Params) (I : Block16) (c : BitVec 21), (transactionKey P I c).extractLsb' 64 64 = I.extractLsb' 64 64)

/-- R150, R154, R140, R151: the words of the two KSN increments and their outcome for every operand: the checks in their
order; the last counter is refused; else the result is the KSN plus 1, of the same length, and its identifier is
unchanged. -/
def Obligations.KsnIncrementEveryOutcome : Prop :=
  encodeWord .dukptKsnInc = 0x00000024#32 ∧ encodeWord .dukptAesKsnInc = 0x0000002A#32 ∧
  (∀ (s : State) (n : Snap), s.snap = some n →
    let ksn := n.chars Slot.ksn (n.len Slot.ksn)
    let K : BitVec 80 := toBits 80 (bytes ksn)
    exec .dukptKsnInc s = .next (
      if n.len Slot.ksn ≠ 20 then s.completeErr .invalidKsnLength
      else if ¬ (∀ c ∈ ksn, isHex c = true) then s.completeErr .invalidCharacter
      else if K.toNat % 2 ^ 21 = 0x1FFFFF then s.completeErr .counterExhausted
      else s.completeOk { result := hexBits (K + 1#80) })) ∧
  (∀ (s : State) (n : Snap), s.snap = some n →
    let ksn := n.chars Slot.ksn (n.len Slot.ksn)
    let K : BitVec 96 := toBits 96 (bytes ksn)
    exec .dukptAesKsnInc s = .next (
      if n.len Slot.ksn ≠ 24 then s.completeErr .invalidKsnLength
      else if ¬ (∀ c ∈ ksn, isHex c = true) then s.completeErr .invalidCharacter
      else if K.toNat % 2 ^ 21 = 0x1FFFFF then s.completeErr .counterExhausted
      else s.completeOk { result := hexBits (K + 1#96) })) ∧
  (∀ K : BitVec 80, K.toNat % 2 ^ 21 ≠ 0x1FFFFF → (K + 1#80).extractLsb' 21 59 = K.extractLsb' 21 59) ∧
  ∀ K : BitVec 96, K.toNat % 2 ^ 21 ≠ 0x1FFFFF → (K + 1#96).extractLsb' 21 75 = K.extractLsb' 21 75

/-- R152, R153: on an AES key type, a key of its length, a KSN of 24 hex characters and legal USAGE and WKTYPE the AES
derivations complete without error with the parameter's value, of exactly the target type's length (log entry 8). -/
def Obligations.AesDukptCompletes : Prop :=
  ∀ (s : State) (n : Snap) (t : KeyType) (key ksn : Chars), s.snap = some n → aesTypeOf n.keytype = some t →
    LegalKey n [2 * t.keylen] key → LegalOperand n Slot.ksn 24 24 isHex ksn →
      (∃ r, exec .dukptAesIk s = .next (s.completeOk { result := r }) ∧
        r = hex (Config.aesDukptIK (bytes key) t (bytes ksn)).toList ∧ r.length = 2 * t.keylen) ∧
      ∀ (u : Usage) (w : KeyType), usageOf n.usage = some u → keyTypeOf n.wktype = some w →
        ∃ r, exec .dukptAesWk s = .next (s.completeOk { result := r }) ∧
          r = hex (Config.aesDukptWK (bytes key) t (bytes ksn) u w).toList ∧ r.length = 2 * w.keylen

/-! ## MAC -/

/-- R184 to R191: on a key of a listed length, a non-empty message, a PADMETHOD of 1 to 3 and a TRUNC of 1 to 8 every
DES-based MAC command completes without error with the leftmost TRUNC bytes of its algorithm's value. -/
def Obligations.DesMacsComplete : Prop :=
  ∀ (s : State) (n : Snap) (key dat : Chars), s.snap = some n → LegalData n dat → 0 < dat.length →
    n.padmethod ∈ [1, 2, 3] → 1 ≤ n.trunc → n.trunc ≤ 8 →
      let P := Config.params
      let k := bytes key
      let d := toBlocks 64 8 (padMethod n.padmethod 8 (bytes dat))
      let mac (g : Block) := Host.Outcome.next (s.completeOk { result := hex ((bytesOf 8 g.toNat).take n.trunc) })
      let retail := desE P k (desD P (k.drop 8) (cbc (desE P k) d))
      (LegalKey n [16] key → exec .macAlg1 s = mac (cbc (desE P k) d) ∧ exec .macX99 s = mac (cbc (desE P k) d)) ∧
      (LegalKey n [32] key →
        exec .macAlg2 s = mac (desE P (k.drop 8) (cbc (desE P k) d)) ∧ exec .macAlg3 s = mac retail ∧
        exec .macX919 s = mac retail ∧ exec .macRetail s = mac retail ∧ exec .macAs2805 s = mac retail) ∧
      (LegalKey n [32, 48] key → exec .macTdesCbc s = mac (cbc (tdesE P k) d))

/-- R194, R195: on a key of a listed length, a message (the empty one too) and a TRUNC of at most the block size the
CMAC commands complete without error with the leftmost TRUNC bytes of CMAC; PADMETHOD is not read. -/
def Obligations.CmacsComplete : Prop :=
  ∀ (s : State) (n : Snap) (key dat : Chars), s.snap = some n → LegalData n dat → 1 ≤ n.trunc →
    let P := Config.params
    let k := bytes key
    (LegalKey n [32, 48, 64] key → n.trunc ≤ 16 →
      exec .macCmacAes s = .next (s.completeOk
        { result := hex ((bytesOf 16 (cmac 0x87#128 16 (P.aesE k) (bytes dat)).toNat).take n.trunc) })) ∧
    (LegalKey n [16] key → n.trunc ≤ 8 →
      exec .macCmacTdes s = .next (s.completeOk
        { result := hex ((bytesOf 8 (cmac 0x1B#64 8 (desE P k) (bytes dat)).toNat).take n.trunc) })) ∧
    (LegalKey n [32, 48] key → n.trunc ≤ 8 →
      exec .macCmacTdes s = .next (s.completeOk
        { result := hex ((bytesOf 8 (cmac 0x1B#64 8 (tdesE P k) (bytes dat)).toNat).take n.trunc) }))

/-- R183, R184: MAC_ALG1's word, and its outcome for every operand: the checks in their order, then the MAC. -/
def Obligations.MacAlg1EveryOutcome : Prop :=
  encodeWord .macAlg1 = 0x00000030#32 ∧
  ∀ (s : State) (n : Snap), s.snap = some n →
    let key := n.chars Slot.key (n.len Slot.key)
    let l := n.len Slot.data
    let dat := n.chars Slot.data l
    exec .macAlg1 s = .next (
      if n.len Slot.key ≠ 16 then s.completeErr .invalidKeyLength
      else if ¬ (∀ c ∈ key, isHex c = true) then s.completeErr .invalidCharacter
      else if ¬ (l ≤ Config.params.dataMax ∧ l % 2 = 0) then s.completeErr .invalidDataLength
      else if l = 0 then s.completeErr .emptyData
      else if ¬ (∀ c ∈ dat, isHex c = true) then s.completeErr .invalidCharacter
      else if n.padmethod ∉ [1, 2, 3] then s.completeErr .invalidParameter
      else if ¬ (1 ≤ n.trunc ∧ n.trunc ≤ 8) then s.completeErr .invalidTruncation
      else s.completeOk
        { result := hex ((bytesOf 8 (cbc (Config.params.desE (toBits 64 (bytes key)))
            (toBlocks 64 8 (padMethod n.padmethod 8 (bytes dat)))).toNat).take n.trunc) })

/-- R182, R198: two runs of a MAC command that differ only in TRUNC, both without error: the shorter result is the
start of the longer one, two upper-case hex characters for each byte of TRUNC. -/
def Obligations.TruncationKeepsLeftmost : Prop :=
  ∀ (i : Instr) (s s' t t' : State) (n n' : Snap),
    i ∈ [Instr.macAlg1, .macAlg2, .macAlg3, .macX99, .macX919, .macRetail, .macTdesCbc, .macAs2805, .macCmacAes,
      .macCmacTdes] →
    s.mem.wf → s'.mem.wf → s.snap = some n → s'.snap = some n' →
    n' = { n with param0 := n'.param0 } → n.trunc ≤ n'.trunc → exec i s = .next t → exec i s' = .next t' →
    t.status.err = false → t'.status.err = false →
      resultString t = (resultString t').take (2 * n.trunc) ∧ (resultString t').length = 2 * n'.trunc ∧
        ∀ c ∈ resultString t', isHex c = true

/-! ## Card verification -/

/-- R222, R223, R226, R227: on legal operands the four generating commands complete without error with the first 3, 3, 4
and 12 decimal digits of CV_ENC of their block. -/
def Obligations.CvvAndCscComplete : Prop :=
  ∀ (s : State) (n : Snap) (key pan exp svc : Chars), s.snap = some n → LegalKey n [32] key →
    LegalOperand n Slot.exp 4 4 isDec exp → LegalOperand n Slot.svc 3 3 isDec svc →
      let P := Config.params
      (LegalOperand n Slot.pan 12 19 isDec pan →
        exec .cvvGen s = .next (s.completeOk
          { result := digitsOf (cvEnc P (bytes key) (fill32 (right 16 pan ++ exp ++ svc))) 3 }) ∧
        ∀ atc, LegalOperand n Slot.atc 4 4 isDec atc →
          exec .cvvGenAtc s = .next (s.completeOk
            { result := digitsOf (cvEnc P (bytes key) (fill32 (right 16 pan ++ exp ++ svc ++ atc))) 3 })) ∧
      (LegalOperand n Slot.pan 15 15 isDec pan →
        exec .cscV1 s = .next (s.completeOk
          { result := digitsOf (cvEnc P (bytes key) (fill32 (pan ++ exp ++ svc))) 4 }) ∧
        exec .cscV2 s = .next (s.completeOk
          { result := digitsOf (cvEnc P (bytes key) (fill32 (pan ++ exp ++ svc))) 12 }))

/-- R224, R225: on legal operands the verify commands complete without error with an empty RESULT, and MATCH says
whether CHECK is the value the generating command delivers on the same operands. -/
def Obligations.CvvVerifyMatchesGenerated : Prop :=
  ∀ (s : State) (n : Snap) (key pan exp svc check : Chars), s.snap = some n → LegalKey n [32] key →
    LegalOperand n Slot.pan 12 19 isDec pan → LegalOperand n Slot.exp 4 4 isDec exp →
    LegalOperand n Slot.svc 3 3 isDec svc → LegalOperand n Slot.check 3 3 isDec check →
      (∃ v, exec .cvvGen s = .next (s.completeOk { result := v }) ∧
        exec .cvvVerify s = .next (s.completeOk { result := [], matched := decide (check = v) })) ∧
      ∀ atc, LegalOperand n Slot.atc 4 4 isDec atc →
        ∃ v, exec .cvvGenAtc s = .next (s.completeOk { result := v }) ∧
          exec .cvvVerifyAtc s = .next (s.completeOk { result := [], matched := decide (check = v) })

/-- R221, R227: DIGITS keeps the decimal characters in their order and fills with 0: k digits, each extraction the start
of a longer one; so CSC_V1 delivers the first 4 characters of CSC_V2 on the same operands. -/
def Obligations.DigitExtraction : Prop :=
  (∀ (h : Chars) (k : Nat), (digitsOf h k).length = k ∧ (∀ c ∈ digitsOf h k, isDec c = true) ∧
    (k ≤ (h.filter isDec).length → digitsOf h k = (h.filter isDec).take k) ∧
    ((h.filter isDec).length ≤ k →
      digitsOf h k = h.filter isDec ++ List.replicate (k - (h.filter isDec).length) 0x30#8)) ∧
  ∀ (s : State) (a b : Answer), s.mem.wf → exec .cscV1 s = .next (s.completeOk a) →
    exec .cscV2 s = .next (s.completeOk b) →
      resultString (s.completeOk a) = (resultString (s.completeOk b)).take 4

/-- R228, R229, R220: on legal operands CVC3_GEN completes without error with the first 3 decimal digits of CV_ENC of
its block under the card master key. -/
def Obligations.Cvc3Completes : Prop :=
  ∀ (s : State) (n : Snap) (imk pan psn trk un atc : Chars), s.snap = some n → LegalKey n [32] imk →
    LegalOperand n Slot.pan 12 19 isDec pan → LegalOperand n Slot.psn 2 2 isDec psn →
    LegalOperand n Slot.track 1 64 isHex trk → LegalOperand n Slot.un 8 8 isHex un →
    LegalOperand n Slot.atc 4 4 isHex atc →
      let P := Config.params
      let X : Block := toBits 64 (bytes (right 16 (pan ++ psn ++ [0x30#8, 0x31#8])))
      let ka := bytesOf 8 (tdesE P (bytes imk) X).toNat
      let kb := bytesOf 8 (tdesE P (bytes imk) (X ^^^ 0xFFFFFFFFFFFFFFFF#64)).toNat
      let block := (trk ++ List.replicate 20 0x30#8).take 20 ++ un ++ atc
      let A : Block := toBits 64 (bytes (block.take 16))
      let B : Block := toBits 64 (bytes (block.drop 16))
      exec .cvc3Gen s = .next (s.completeOk
        { result := digitsOf (hexBits (tdesE P (ka ++ kb) (P.desE (toBits 64 ka) A ^^^ B))) 3 })

/-- R232, R233, R231: on legal operands the PVV commands complete without error with PIN plus TSP, and PVV minus TSP,
digit by digit modulo 10; a PVKI above 9 is E_INVALID_PVKI. -/
def Obligations.PvvCommandsComplete : Prop :=
  ∀ (s : State) (n : Snap) (pdk pan t : Chars), s.snap = some n → LegalKey n [32, 48] pdk →
    LegalOperand n Slot.pan 12 19 isDec pan → TableInForce n t →
      let C := hexBits (tdesE Config.params (bytes pdk) (toBits 64 (bytes (right 16 pan))))
      let nat := C.map fun c => t.getD (val c) 0x30#8
      let tsp := (nat.drop n.pvki).take 4
      (∀ pin, LegalOperand n Slot.pin 4 4 isDec pin →
        (n.pvki ≤ 9 → exec .pvvGen s = .next (s.completeOk
          { result := List.zipWith (fun p v => dchar ((digit p + digit v) % 10)) pin tsp })) ∧
        (9 < n.pvki → exec .pvvGen s = .next (s.completeErr .invalidPvki))) ∧
      ∀ pvv, LegalOperand n Slot.check 4 4 isDec pvv →
        (n.pvki ≤ 9 → exec .pvvPin s = .next (s.completeOk
          { result := List.zipWith (fun p v => dchar ((digit p + 10 - digit v) % 10)) pvv tsp })) ∧
        (9 < n.pvki → exec .pvvPin s = .next (s.completeErr .invalidPvki))

/-- R234 to R239: on legal operands the four IBM 3624 commands complete without error with the PIN minus the validation
data, and the validation data plus the offset, digit by digit modulo 10, in parameter mode and in mask mode. -/
def Obligations.IbmCommandsComplete : Prop :=
  ∀ (s : State) (n : Snap) (pdk pan t : Chars), s.snap = some n → LegalKey n [32, 48] pdk →
    LegalOperand n Slot.pan 12 19 isDec pan → TableInForce n t →
      let C := hexBits (tdesE Config.params (bytes pdk) (toBits 64 (bytes (right 16 pan))))
      let nat := C.map fun c => t.getD (val c) 0x30#8
      (LegalVdParams n →
        let V := (nat.drop n.start).take n.length ++ List.replicate (n.pinlen - n.length) n.padchar
        (∀ pin, LegalOperand n Slot.pin n.pinlen n.pinlen isDec pin →
          exec .ibmOffset s = .next (s.completeOk
            { result := List.zipWith (fun p v => dchar ((digit p + 10 - digit v) % 10)) pin V })) ∧
        ∀ off, LegalOperand n Slot.check n.pinlen n.pinlen isDec off →
          exec .ibmPin s = .next (s.completeOk
            { result := List.zipWith (fun v o => dchar ((digit v + digit o) % 10)) V off })) ∧
      ∀ m, LegalOperand n Slot.mask 4 12 isMask m →
        let V := List.zipWith (fun c d => if c = 0x4E#8 then d else c) m nat
        (∀ pin, LegalOperand n Slot.pin m.length m.length isDec pin →
          exec .ibmOffsetMask s = .next (s.completeOk
            { result := List.zipWith (fun p v => dchar ((digit p + 10 - digit v) % 10)) pin V })) ∧
        ∀ off, LegalOperand n Slot.check m.length m.length isDec off →
          exec .ibmPinMask s = .next (s.completeOk
            { result := List.zipWith (fun v o => dchar ((digit v + digit o) % 10)) V off })

/-- R240: for every KEY, PAN, DECTAB and PVKI that PVV_GEN accepts and every PIN, PVV_PIN with CHECK = the result of
PVV_GEN, the other operands the same, returns the PIN. -/
def Obligations.PvvSymmetry : Prop :=
  ∀ (s s' t : State) (n n' : Snap) (pin : Chars),
    s.mem.wf → s'.mem.wf → s.snap = some n → s'.snap = some n' → Holds n Slot.pin pin →
    exec .pvvGen s = .next t → t.status.err = false → Holds n' Slot.check (resultString t) →
    (∀ k ∈ [Slot.key, Slot.pan, Slot.dectab], n'.len k = n.len k ∧ slot Config.params n' k = slot Config.params n k) →
    n'.param0 = n.param0 →
      ∃ t', exec .pvvPin s' = .next t' ∧ t'.status.err = false ∧ ResultIs t' pin

/-- R241: for every operand set that IBM_OFFSET (or IBM_OFFSET_MASK) accepts, IBM_PIN (or IBM_PIN_MASK) with CHECK = the
offset and the other operands the same returns the customer PIN. -/
def Obligations.OffsetSymmetry : Prop :=
  ∀ (gen inv : Instr) (s s' t : State) (n n' : Snap) (pin : Chars),
    gen = .ibmOffset ∧ inv = .ibmPin ∨ gen = .ibmOffsetMask ∧ inv = .ibmPinMask →
    s.mem.wf → s'.mem.wf → s.snap = some n → s'.snap = some n' → Holds n Slot.pin pin →
    exec gen s = .next t → t.status.err = false → Holds n' Slot.check (resultString t) →
    (∀ k ∈ [Slot.key, Slot.pan, Slot.dectab, Slot.mask],
      n'.len k = n.len k ∧ slot Config.params n' k = slot Config.params n k) →
    n'.param0 = n.param0 → n'.param1 = n.param1 →
      ∃ t', exec inv s' = .next t' ∧ t'.status.err = false ∧ ResultIs t' pin

end
end

