-- ==== Sys2Proof/Laws/State.lean ====
section
/-! SUPPORT. One lemma per field per update of the state, and of STATUS, so that no proof unfolds a record update. -/

namespace Sys2Proof.Machine

variable (s : State) (t : Status)

/-! ### `State.completeOk` -/

@[simp] theorem State.completeOk_cmd (a : Answer) : (s.completeOk a).cmd = s.cmd := rfl
@[simp] theorem State.completeOk_status (a : Answer) : (s.completeOk a).status = s.status.completedOk a.matched := rfl
@[simp] theorem State.completeOk_param0 (a : Answer) : (s.completeOk a).param0 = s.param0 := rfl
@[simp] theorem State.completeOk_param1 (a : Answer) : (s.completeOk a).param1 = s.param1 := rfl
@[simp] theorem State.completeOk_param2 (a : Answer) : (s.completeOk a).param2 = s.param2 := rfl
@[simp] theorem State.completeOk_resultLen (a : Answer) : (s.completeOk a).resultLen = BitVec.ofNat 32 a.result.length := rfl
@[simp] theorem State.completeOk_resultAux (a : Answer) : (s.completeOk a).resultAux = a.aux := rfl
@[simp] theorem State.completeOk_slotLen (a : Answer) : (s.completeOk a).slotLen = s.slotLen := rfl
@[simp] theorem State.completeOk_mem (a : Answer) : (s.completeOk a).mem = s.mem.setResult a.result := rfl
@[simp] theorem State.completeOk_snap (a : Answer) : (s.completeOk a).snap = none := rfl
@[simp] theorem State.completeOk_draws (a : Answer) : (s.completeOk a).draws = s.draws + a.drawn := rfl
@[simp] theorem State.completeOk_events (a : Answer) : (s.completeOk a).events = s.events := rfl
@[simp] theorem State.completeOk_response (a : Answer) : (s.completeOk a).response = s.response := rfl

/-! ### `State.completeErr` -/

@[simp] theorem State.completeErr_cmd (e : ErrCode) : (s.completeErr e).cmd = s.cmd := rfl
@[simp] theorem State.completeErr_status (e : ErrCode) : (s.completeErr e).status = s.status.completedErr e := rfl
@[simp] theorem State.completeErr_param0 (e : ErrCode) : (s.completeErr e).param0 = s.param0 := rfl
@[simp] theorem State.completeErr_param1 (e : ErrCode) : (s.completeErr e).param1 = s.param1 := rfl
@[simp] theorem State.completeErr_param2 (e : ErrCode) : (s.completeErr e).param2 = s.param2 := rfl
@[simp] theorem State.completeErr_resultLen (e : ErrCode) : (s.completeErr e).resultLen = 0#32 := rfl
@[simp] theorem State.completeErr_resultAux (e : ErrCode) : (s.completeErr e).resultAux = 0#32 := rfl
@[simp] theorem State.completeErr_slotLen (e : ErrCode) : (s.completeErr e).slotLen = s.slotLen := rfl
@[simp] theorem State.completeErr_mem (e : ErrCode) : (s.completeErr e).mem = s.mem.setResult [] := rfl
@[simp] theorem State.completeErr_snap (e : ErrCode) : (s.completeErr e).snap = none := rfl
@[simp] theorem State.completeErr_draws (e : ErrCode) : (s.completeErr e).draws = s.draws := rfl
@[simp] theorem State.completeErr_events (e : ErrCode) : (s.completeErr e).events = s.events := rfl
@[simp] theorem State.completeErr_response (e : ErrCode) : (s.completeErr e).response = s.response := rfl

/-! ### `State.issue` -/

@[simp] theorem State.issue_cmd (P : Params) (w : Word) : (s.issue P w).cmd = w := rfl
@[simp] theorem State.issue_status (P : Params) (w : Word) : (s.issue P w).status = Status.issued (opcodeField w) := rfl
@[simp] theorem State.issue_param0 (P : Params) (w : Word) : (s.issue P w).param0 = s.param0 := rfl
@[simp] theorem State.issue_param1 (P : Params) (w : Word) : (s.issue P w).param1 = s.param1 := rfl
@[simp] theorem State.issue_param2 (P : Params) (w : Word) : (s.issue P w).param2 = s.param2 := rfl
@[simp] theorem State.issue_resultLen (P : Params) (w : Word) : (s.issue P w).resultLen = s.resultLen := rfl
@[simp] theorem State.issue_resultAux (P : Params) (w : Word) : (s.issue P w).resultAux = s.resultAux := rfl
@[simp] theorem State.issue_slotLen (P : Params) (w : Word) : (s.issue P w).slotLen = s.slotLen := rfl
@[simp] theorem State.issue_mem (P : Params) (w : Word) : (s.issue P w).mem = s.mem := rfl
@[simp] theorem State.issue_snap (P : Params) (w : Word) : (s.issue P w).snap = some (s.snapshot P w) := rfl
@[simp] theorem State.issue_draws (P : Params) (w : Word) : (s.issue P w).draws = s.draws := rfl
@[simp] theorem State.issue_events (P : Params) (w : Word) : (s.issue P w).events = s.events := rfl
@[simp] theorem State.issue_response (P : Params) (w : Word) : (s.issue P w).response = s.response := rfl

/-! ### `State.respond` -/

@[simp] theorem State.respond_cmd (r : BusResponse) : (s.respond r).cmd = s.cmd := rfl
@[simp] theorem State.respond_status (r : BusResponse) : (s.respond r).status = s.status := rfl
@[simp] theorem State.respond_param0 (r : BusResponse) : (s.respond r).param0 = s.param0 := rfl
@[simp] theorem State.respond_param1 (r : BusResponse) : (s.respond r).param1 = s.param1 := rfl
@[simp] theorem State.respond_param2 (r : BusResponse) : (s.respond r).param2 = s.param2 := rfl
@[simp] theorem State.respond_resultLen (r : BusResponse) : (s.respond r).resultLen = s.resultLen := rfl
@[simp] theorem State.respond_resultAux (r : BusResponse) : (s.respond r).resultAux = s.resultAux := rfl
@[simp] theorem State.respond_slotLen (r : BusResponse) : (s.respond r).slotLen = s.slotLen := rfl
@[simp] theorem State.respond_mem (r : BusResponse) : (s.respond r).mem = s.mem := rfl
@[simp] theorem State.respond_snap (r : BusResponse) : (s.respond r).snap = s.snap := rfl
@[simp] theorem State.respond_draws (r : BusResponse) : (s.respond r).draws = s.draws := rfl
@[simp] theorem State.respond_events (r : BusResponse) : (s.respond r).events = s.events := rfl
@[simp] theorem State.respond_response (r : BusResponse) : (s.respond r).response = some r := rfl

/-! ### `State.zeroizeOperands` -/

@[simp] theorem State.zeroizeOperands_cmd (P : Params) : (s.zeroizeOperands P).cmd = s.cmd := rfl
@[simp] theorem State.zeroizeOperands_status (P : Params) : (s.zeroizeOperands P).status = s.status := rfl
@[simp] theorem State.zeroizeOperands_param0 (P : Params) : (s.zeroizeOperands P).param0 = 0#32 := rfl
@[simp] theorem State.zeroizeOperands_param1 (P : Params) : (s.zeroizeOperands P).param1 = 0#32 := rfl
@[simp] theorem State.zeroizeOperands_param2 (P : Params) : (s.zeroizeOperands P).param2 = 0#32 := rfl
@[simp] theorem State.zeroizeOperands_resultLen (P : Params) : (s.zeroizeOperands P).resultLen = s.resultLen := rfl
@[simp] theorem State.zeroizeOperands_resultAux (P : Params) : (s.zeroizeOperands P).resultAux = s.resultAux := rfl
@[simp] theorem State.zeroizeOperands_slotLen (P : Params) : (s.zeroizeOperands P).slotLen = Vector.replicate 15 0#32 := rfl
@[simp] theorem State.zeroizeOperands_mem (P : Params) : (s.zeroizeOperands P).mem = s.mem.clear (isSlotByte P) := rfl
@[simp] theorem State.zeroizeOperands_snap (P : Params) : (s.zeroizeOperands P).snap = s.snap := rfl
@[simp] theorem State.zeroizeOperands_draws (P : Params) : (s.zeroizeOperands P).draws = s.draws := rfl
@[simp] theorem State.zeroizeOperands_events (P : Params) : (s.zeroizeOperands P).events = s.events := rfl
@[simp] theorem State.zeroizeOperands_response (P : Params) : (s.zeroizeOperands P).response = s.response := rfl

/-! ### `State.resetBlock` -/

@[simp] theorem State.resetBlock_cmd : (s.resetBlock).cmd = 0#32 := rfl
@[simp] theorem State.resetBlock_status : (s.resetBlock).status = Status.reset := rfl
@[simp] theorem State.resetBlock_param0 : (s.resetBlock).param0 = 0#32 := rfl
@[simp] theorem State.resetBlock_param1 : (s.resetBlock).param1 = 0#32 := rfl
@[simp] theorem State.resetBlock_param2 : (s.resetBlock).param2 = 0#32 := rfl
@[simp] theorem State.resetBlock_resultLen : (s.resetBlock).resultLen = 0#32 := rfl
@[simp] theorem State.resetBlock_resultAux : (s.resetBlock).resultAux = 0#32 := rfl
@[simp] theorem State.resetBlock_slotLen : (s.resetBlock).slotLen = Vector.replicate 15 0#32 := rfl
@[simp] theorem State.resetBlock_mem : (s.resetBlock).mem = [] := rfl
@[simp] theorem State.resetBlock_snap : (s.resetBlock).snap = none := rfl
@[simp] theorem State.resetBlock_draws : (s.resetBlock).draws = s.draws := rfl
@[simp] theorem State.resetBlock_events : (s.resetBlock).events = s.events := rfl
@[simp] theorem State.resetBlock_response : (s.resetBlock).response = s.response := rfl

/-! ### `State.withCommand` -/

@[simp] theorem State.withCommand_cmd (w : Word) : (s.withCommand w).cmd = w := rfl
@[simp] theorem State.withCommand_status (w : Word) : (s.withCommand w).status = Status.issued (opcodeField w) := rfl
@[simp] theorem State.withCommand_param0 (w : Word) : (s.withCommand w).param0 = s.param0 := rfl
@[simp] theorem State.withCommand_param1 (w : Word) : (s.withCommand w).param1 = s.param1 := rfl
@[simp] theorem State.withCommand_param2 (w : Word) : (s.withCommand w).param2 = s.param2 := rfl
@[simp] theorem State.withCommand_resultLen (w : Word) : (s.withCommand w).resultLen = s.resultLen := rfl
@[simp] theorem State.withCommand_resultAux (w : Word) : (s.withCommand w).resultAux = s.resultAux := rfl
@[simp] theorem State.withCommand_slotLen (w : Word) : (s.withCommand w).slotLen = s.slotLen := rfl
@[simp] theorem State.withCommand_mem (w : Word) : (s.withCommand w).mem = s.mem := rfl
@[simp] theorem State.withCommand_snap (w : Word) : (s.withCommand w).snap = some (s.snapshot Config.params w) := rfl
@[simp] theorem State.withCommand_draws (w : Word) : (s.withCommand w).draws = s.draws := rfl
@[simp] theorem State.withCommand_events (w : Word) : (s.withCommand w).events = .engine :: s.events := rfl
@[simp] theorem State.withCommand_response (w : Word) : (s.withCommand w).response = s.response := rfl

/-! ### `State.writeBuffer` -/

@[simp] theorem State.writeBuffer_cmd (P : Params) (a : Nat) (v : Word) : (s.writeBuffer P a v).cmd = s.cmd := rfl
@[simp] theorem State.writeBuffer_status (P : Params) (a : Nat) (v : Word) : (s.writeBuffer P a v).status = s.status := rfl
@[simp] theorem State.writeBuffer_param0 (P : Params) (a : Nat) (v : Word) : (s.writeBuffer P a v).param0 = s.param0 := rfl
@[simp] theorem State.writeBuffer_param1 (P : Params) (a : Nat) (v : Word) : (s.writeBuffer P a v).param1 = s.param1 := rfl
@[simp] theorem State.writeBuffer_param2 (P : Params) (a : Nat) (v : Word) : (s.writeBuffer P a v).param2 = s.param2 := rfl
@[simp] theorem State.writeBuffer_resultLen (P : Params) (a : Nat) (v : Word) : (s.writeBuffer P a v).resultLen = s.resultLen := rfl
@[simp] theorem State.writeBuffer_resultAux (P : Params) (a : Nat) (v : Word) : (s.writeBuffer P a v).resultAux = s.resultAux := rfl
@[simp] theorem State.writeBuffer_slotLen (P : Params) (a : Nat) (v : Word) : (s.writeBuffer P a v).slotLen = s.slotLen := rfl
@[simp] theorem State.writeBuffer_snap (P : Params) (a : Nat) (v : Word) : (s.writeBuffer P a v).snap = s.snap := rfl
@[simp] theorem State.writeBuffer_draws (P : Params) (a : Nat) (v : Word) : (s.writeBuffer P a v).draws = s.draws := rfl
@[simp] theorem State.writeBuffer_events (P : Params) (a : Nat) (v : Word) : (s.writeBuffer P a v).events = s.events := rfl
@[simp] theorem State.writeBuffer_response (P : Params) (a : Nat) (v : Word) : (s.writeBuffer P a v).response = s.response := rfl

/-! ### The snapshot -/

@[simp] theorem State.snapshot_word (P : Params) (w : Word) : (s.snapshot P w).word = w := rfl
@[simp] theorem State.snapshot_param0 (P : Params) (w : Word) : (s.snapshot P w).param0 = s.param0 := rfl
@[simp] theorem State.snapshot_param1 (P : Params) (w : Word) : (s.snapshot P w).param1 = s.param1 := rfl
@[simp] theorem State.snapshot_param2 (P : Params) (w : Word) : (s.snapshot P w).param2 = s.param2 := rfl
@[simp] theorem State.snapshot_slotLen (P : Params) (w : Word) : (s.snapshot P w).slotLen = s.slotLen := rfl
@[simp] theorem State.snapshot_data (P : Params) (w : Word) : (s.snapshot P w).data = s.mem.keep (isOperandByte P) := rfl

/-! ### STATUS -/

@[simp] theorem Status.completedOk_busy (m : Bool) : (t.completedOk m).busy = false := rfl
@[simp] theorem Status.completedOk_done (m : Bool) : (t.completedOk m).done = true := rfl
@[simp] theorem Status.completedOk_err (m : Bool) : (t.completedOk m).err = false := rfl
@[simp] theorem Status.completedOk_matched (m : Bool) : (t.completedOk m).matched = m := rfl
@[simp] theorem Status.completedOk_overrun (m : Bool) : (t.completedOk m).overrun = t.overrun := rfl
@[simp] theorem Status.completedOk_errcode (m : Bool) : (t.completedOk m).errcode = 0#8 := rfl
@[simp] theorem Status.completedOk_lastOp (m : Bool) : (t.completedOk m).lastOp = t.lastOp := rfl
@[simp] theorem Status.completedErr_busy (e : ErrCode) : (t.completedErr e).busy = false := rfl
@[simp] theorem Status.completedErr_done (e : ErrCode) : (t.completedErr e).done = true := rfl
@[simp] theorem Status.completedErr_err (e : ErrCode) : (t.completedErr e).err = true := rfl
@[simp] theorem Status.completedErr_matched (e : ErrCode) : (t.completedErr e).matched = false := rfl
@[simp] theorem Status.completedErr_overrun (e : ErrCode) : (t.completedErr e).overrun = t.overrun := rfl
@[simp] theorem Status.completedErr_errcode (e : ErrCode) : (t.completedErr e).errcode = e.code := rfl
@[simp] theorem Status.completedErr_lastOp (e : ErrCode) : (t.completedErr e).lastOp = t.lastOp := rfl
@[simp] theorem Status.overran_busy : (t.overran).busy = t.busy := rfl
@[simp] theorem Status.overran_done : (t.overran).done = t.done := rfl
@[simp] theorem Status.overran_err : (t.overran).err = t.err := rfl
@[simp] theorem Status.overran_matched : (t.overran).matched = t.matched := rfl
@[simp] theorem Status.overran_overrun : (t.overran).overrun = true := rfl
@[simp] theorem Status.overran_errcode : (t.overran).errcode = t.errcode := rfl
@[simp] theorem Status.overran_lastOp : (t.overran).lastOp = t.lastOp := rfl
@[simp] theorem Status.issued_busy (op : Byte) : (Status.issued op).busy = true := rfl
@[simp] theorem Status.issued_done (op : Byte) : (Status.issued op).done = false := rfl
@[simp] theorem Status.issued_err (op : Byte) : (Status.issued op).err = false := rfl
@[simp] theorem Status.issued_matched (op : Byte) : (Status.issued op).matched = false := rfl
@[simp] theorem Status.issued_overrun (op : Byte) : (Status.issued op).overrun = false := rfl
@[simp] theorem Status.issued_errcode (op : Byte) : (Status.issued op).errcode = 0#8 := rfl
@[simp] theorem Status.issued_lastOp (op : Byte) : (Status.issued op).lastOp = op := rfl
@[simp] theorem Status.reset_busy : Status.reset.busy = false := rfl
@[simp] theorem Status.reset_done : Status.reset.done = false := rfl
@[simp] theorem Status.reset_err : Status.reset.err = false := rfl
@[simp] theorem Status.reset_matched : Status.reset.matched = false := rfl
@[simp] theorem Status.reset_overrun : Status.reset.overrun = false := rfl
@[simp] theorem Status.reset_errcode : Status.reset.errcode = 0#8 := rfl
@[simp] theorem Status.reset_lastOp : Status.reset.lastOp = 0#8 := rfl

end Sys2Proof.Machine
end

