-- ==== Sys2Proof/Laws/Memory.lean ====
section
/-! SUPPORT. The laws of the window memory: a read after a write, the canonical form under every operation, equality
of memories that read alike. -/

namespace Sys2Proof.Machine

@[simp] theorem Memory.read_nil (x : Nat) : Memory.read [] x = 0#8 := rfl

@[simp] theorem Memory.read_cons (c : Host.Cell) (m : Memory) (x : Nat) :
    Memory.read (c :: m) x = if c.1 = x then c.2 else Memory.read m x := rfl

/-- The canonical form of a nonempty memory, cell by cell. -/
theorem Memory.wf_cons {c : Host.Cell} {m : Memory} :
    Memory.wf (c :: m) ↔ (∀ d ∈ m, c.1 < d.1) ∧ c.2 ≠ 0#8 ∧ Memory.wf m := by
  simp only [Memory.wf, List.pairwise_cons, List.forall_mem_cons]
  tauto

theorem Memory.wf_nil : Memory.wf [] := by simp [Memory.wf]

/-- A byte that no cell lists reads 0x00. -/
theorem Memory.read_eq_zero {m : Memory} {x : Nat} (h : ∀ c ∈ m, c.1 ≠ x) : Memory.read m x = 0#8 := by
  induction m with
  | nil => rfl
  | cons c m ih =>
    rw [Memory.read_cons, if_neg (h c (by simp))]
    exact ih fun d hd => h d (by simp [hd])

/-- A listed byte of a canonical memory reads as listed. -/
theorem Memory.read_of_mem {m : Memory} (hm : m.wf) {c : Host.Cell} (hc : c ∈ m) : Memory.read m c.1 = c.2 := by
  induction m with
  | nil => simp at hc
  | cons d m ih =>
    obtain ⟨hlt, -, hw⟩ := Memory.wf_cons.1 hm
    rcases List.mem_cons.1 hc with rfl | hc
    · simp
    · rw [Memory.read_cons, if_neg (by have := hlt c hc; omega), ih hw hc]

/-- A write changes no other byte. -/
theorem Memory.read_write_other (m : Memory) {a x : Nat} (b : Byte) (h : x ≠ a) :
    Memory.read (m.write a b) x = Memory.read m x := by
  induction m with
  | nil => unfold Memory.write; split <;> simp [Ne.symm h]
  | cons c m ih =>
    unfold Memory.write
    split
    · split <;> simp [Ne.symm h]
    · split
      · rename_i ha
        subst ha
        split <;> simp [Ne.symm h]
      · simp [ih]

/-- A cell of a written memory is the written one or an old one. -/
theorem Memory.mem_write {m : Memory} {a : Nat} {b : Byte} {c : Host.Cell} (h : c ∈ m.write a b) :
    c = (a, b) ∨ c ∈ m := by
  induction m with
  | nil => unfold Memory.write at h; split at h <;> simp_all
  | cons d m ih =>
    unfold Memory.write at h
    split at h
    · split at h <;> simp_all
    · split at h
      · split at h <;> simp_all
        tauto
      · rcases List.mem_cons.1 h with h | h
        · simp [h]
        · rcases ih h with h | h <;> simp [h]

/-- A write keeps the canonical form. -/
theorem Memory.wf_write {m : Memory} (hm : m.wf) (a : Nat) (b : Byte) : (m.write a b).wf := by
  induction m with
  | nil => unfold Memory.write; split <;> simp_all [Memory.wf]
  | cons c m ih =>
    obtain ⟨hlt, hne, hw⟩ := Memory.wf_cons.1 hm
    unfold Memory.write
    split
    · rename_i ha
      split
      · exact hm
      · rename_i hb
        refine Memory.wf_cons.2 ⟨?_, hb, hm⟩
        intro d hd
        rcases List.mem_cons.1 hd with rfl | hd
        · exact ha
        · exact lt_trans ha (hlt d hd)
    · split
      · rename_i _ ha
        subst ha
        split
        · exact hw
        · rename_i hb
          exact Memory.wf_cons.2 ⟨hlt, hb, hw⟩
      · rename_i h1 h2
        refine Memory.wf_cons.2 ⟨?_, hne, ih hw⟩
        intro d hd
        rcases Memory.mem_write hd with rfl | hd
        · exact lt_of_le_of_ne (not_lt.1 h1) (Ne.symm h2)
        · exact hlt d hd

/-- A read after a write to the same byte gives the byte written. -/
theorem Memory.read_write_same {m : Memory} (hm : m.wf) (a : Nat) (b : Byte) :
    Memory.read (m.write a b) a = b := by
  induction m with
  | nil => unfold Memory.write; split <;> simp_all
  | cons c m ih =>
    obtain ⟨hlt, hne, hw⟩ := Memory.wf_cons.1 hm
    unfold Memory.write
    split
    · rename_i ha
      split
      · rename_i hb
        subst hb
        apply Memory.read_eq_zero
        intro d hd
        rcases List.mem_cons.1 hd with rfl | hd
        · omega
        · have := hlt d hd; omega
      · simp
    · split
      · rename_i _ ha
        subst ha
        split
        · rename_i hb
          subst hb
          apply Memory.read_eq_zero
          intro d hd
          have := hlt d hd; omega
        · simp
      · rename_i _ ha
        rw [Memory.read_cons, if_neg (Ne.symm ha), ih hw]

/-- A write, read anywhere. -/
theorem Memory.read_write {m : Memory} (hm : m.wf) (a x : Nat) (b : Byte) :
    Memory.read (m.write a b) x = if x = a then b else Memory.read m x := by
  split
  · rename_i h; subst h; exact Memory.read_write_same hm x b
  · rename_i h; exact Memory.read_write_other m b h

theorem Memory.wf_writeBytes {m : Memory} (hm : m.wf) (a : Nat) (bs : List Byte) : (m.writeBytes a bs).wf := by
  induction bs generalizing m a with
  | nil => exact hm
  | cons b bs ih => exact ih (Memory.wf_write hm a b) (a + 1)

/-- Bytes outside the stored ones read as before, whatever the form of the memory. -/
theorem Memory.read_writeBytes_other (m : Memory) (a x : Nat) (bs : List Byte) (h : x < a ∨ a + bs.length ≤ x) :
    Memory.read (m.writeBytes a bs) x = Memory.read m x := by
  induction bs generalizing m a with
  | nil => rfl
  | cons b bs ih =>
    simp only [List.length_cons] at h
    rw [Memory.writeBytes, ih _ _ (by omega), Memory.read_write_other _ _ (by omega)]

/-- The stored bytes read as stored. -/
theorem Memory.read_writeBytes {m : Memory} (hm : m.wf) (a k : Nat) (bs : List Byte) (hk : k < bs.length) :
    Memory.read (m.writeBytes a bs) (a + k) = bs.getD k 0#8 := by
  induction bs generalizing m a k with
  | nil => simp at hk
  | cons b bs ih =>
    rw [Memory.writeBytes]
    cases k with
    | zero =>
      rw [Memory.read_writeBytes_other _ _ _ _ (by omega), Nat.add_zero, Memory.read_write_same hm]
      rfl
    | succ k =>
      rw [show a + (k + 1) = a + 1 + k by omega, ih (Memory.wf_write hm a b) _ _ (by simpa using hk)]
      rfl

theorem Memory.mem_writeBytes {m : Memory} {a : Nat} {bs : List Byte} {c : Host.Cell} (h : c ∈ m.writeBytes a bs) :
    (a ≤ c.1 ∧ c.1 < a + bs.length) ∨ c ∈ m := by
  induction bs generalizing m a with
  | nil => exact .inr h
  | cons b bs ih =>
    rcases ih h with h | h
    · left; simp only [List.length_cons]; omega
    · rcases Memory.mem_write h with rfl | h
      · left; simp
      · exact .inr h

/-- Clearing a set of offsets, read anywhere. -/
@[simp] theorem Memory.read_clear (m : Memory) (p : Nat → Bool) (x : Nat) :
    Memory.read (m.clear p) x = if p x then 0#8 else Memory.read m x := by
  induction m with
  | nil => simp [Memory.clear]
  | cons c m ih =>
    simp only [Memory.clear, List.filter_cons] at ih ⊢
    by_cases hc : c.1 = x
    · subst hc
      cases hp : p c.1 <;> simp_all
    · cases hp : p c.1 <;> simp_all

/-- Keeping a set of offsets, read anywhere. -/
@[simp] theorem Memory.read_keep (m : Memory) (p : Nat → Bool) (x : Nat) :
    Memory.read (m.keep p) x = if p x then Memory.read m x else 0#8 := by
  induction m with
  | nil => simp [Memory.keep]
  | cons c m ih =>
    simp only [Memory.keep, List.filter_cons] at ih ⊢
    by_cases hc : c.1 = x
    · subst hc
      cases hp : p c.1 <;> simp_all
    · cases hp : p c.1 <;> simp_all

theorem Memory.wf_filter {m : Memory} (hm : m.wf) (q : Host.Cell → Bool) : Memory.wf (m.filter q) :=
  ⟨hm.1.filter q, fun c hc => hm.2 c (List.mem_filter.1 hc).1⟩

theorem Memory.wf_clear {m : Memory} (hm : m.wf) (p : Nat → Bool) : (m.clear p).wf := Memory.wf_filter hm _

theorem Memory.wf_keep {m : Memory} (hm : m.wf) (p : Nat → Bool) : (m.keep p).wf := Memory.wf_filter hm _

theorem Memory.wf_hostWrite (P : Params) {m : Memory} (hm : m.wf) (a : Nat) (b : Byte) : (m.hostWrite P a b).wf := by
  unfold Memory.hostWrite
  split
  · exact Memory.wf_write hm a b
  · exact hm

theorem Memory.wf_setResult {m : Memory} (hm : m.wf) (r : Chars) : (m.setResult r).wf :=
  Memory.wf_writeBytes (Memory.wf_clear hm _) _ _

/-- Bytes outside RESULT read as before a completion, whatever the form of the memory. -/
theorem Memory.read_setResult_other (m : Memory) (r : Chars) {x : Nat} (h : isResultByte x = false) :
    Memory.read (m.setResult r) x = Memory.read m x := by
  have hx : x < 0x100 ∨ 0x180 ≤ x := by
    simp only [isResultByte, Bool.and_eq_false_iff, decide_eq_false_iff_not] at h; omega
  rw [Memory.setResult, Memory.read_writeBytes_other _ _ _ _ (by simp only [List.length_take]; omega)]
  simp [h]

/-- RESULT after a completion: the result string, then 0x00. -/
theorem Memory.read_setResult {m : Memory} (hm : m.wf) (r : Chars) {k : Nat} (hk : k < 128) :
    Memory.read (m.setResult r) (0x100 + k) = r.getD k 0#8 := by
  have hp : isResultByte (0x100 + k) = true := by simp [isResultByte]; omega
  by_cases h : k < (r.take 128).length
  · rw [Memory.setResult, Memory.read_writeBytes (Memory.wf_clear hm _) _ _ _ h]
    simp [List.getD_eq_getElem?_getD, hk]
  · rw [Memory.setResult, Memory.read_writeBytes_other _ _ _ _ (by omega), Memory.read_clear, hp]
    simp only [List.length_take] at h
    simp [List.getD_eq_getElem?_getD, List.getElem?_eq_none (show r.length ≤ k by omega)]

/-- With the result string empty, RESULT is all 0x00, whatever the form of the memory. -/
theorem Memory.read_setResult_nil (m : Memory) {x : Nat} (h : isResultByte x = true) :
    Memory.read (m.setResult []) x = 0#8 := by
  simp [Memory.setResult, Memory.writeBytes, h]

/-- A write outside a set of offsets leaves what is kept of that set. -/
theorem Memory.keep_write (m : Memory) {p : Nat → Bool} {a : Nat} (b : Byte) (h : p a = false) :
    (m.write a b).keep p = m.keep p := by
  induction m with
  | nil => unfold Memory.write; split <;> simp [Memory.keep, h]
  | cons c m ih =>
    unfold Memory.write
    split
    · split <;> simp [Memory.keep, h]
    · split
      · rename_i _ ha
        subst ha
        split <;> simp [Memory.keep, h]
      · simp only [Memory.keep, List.filter_cons] at ih ⊢
        rw [ih]

theorem Memory.keep_writeBytes (m : Memory) {p : Nat → Bool} (a : Nat) (bs : List Byte)
    (h : ∀ x, a ≤ x → x < a + bs.length → p x = false) : (m.writeBytes a bs).keep p = m.keep p := by
  induction bs generalizing m a with
  | nil => rfl
  | cons b bs ih =>
    rw [Memory.writeBytes, ih _ _ fun x h1 h2 => h x (by omega) (by simp only [List.length_cons]; omega),
      Memory.keep_write _ _ (h a (le_refl _) (by simp))]

/-- RESULT and the operand bytes are disjoint: a completion leaves what a snapshot would hold. -/
theorem Memory.keep_setResult (P : Params) (m : Memory) (r : Chars) :
    (m.setResult r).keep (isOperandByte P) = m.keep (isOperandByte P) := by
  have hd : ∀ x, isResultByte x = true → isOperandByte P x = false := by
    intro x hx
    simp only [isResultByte, Bool.and_eq_true, decide_eq_true_eq] at hx
    simp only [isOperandByte, Bool.or_eq_false_iff, Bool.and_eq_false_iff, decide_eq_false_iff_not]
    omega
  rw [Memory.setResult, Memory.keep_writeBytes]
  · simp only [Memory.keep, Memory.clear, List.filter_filter]
    congr 1
    funext c
    cases hc : isResultByte c.1
    · simp
    · simp [hd _ hc]
  · intro x h1 h2
    apply hd
    simp only [List.length_take] at h2
    simp [isResultByte]; omega

/-- Canonical memories that read alike are equal. -/
theorem Memory.ext_read {m m' : Memory} (hm : m.wf) (hm' : m'.wf) (h : ∀ x, Memory.read m x = Memory.read m' x) :
    m = m' := by
  have key : ∀ {m m' : Memory}, m.wf → m'.wf → (∀ x, Memory.read m x = Memory.read m' x) → ∀ c ∈ m, c ∈ m' := by
    intro m m' hm hm' h c hc
    have hr := Memory.read_of_mem hm hc
    by_contra hn
    have : Memory.read m' c.1 = 0#8 := by
      by_cases he : ∃ d ∈ m', d.1 = c.1
      · obtain ⟨d, hd, hdc⟩ := he
        have hd2 := Memory.read_of_mem hm' hd
        have : d = c := Prod.ext hdc (by rw [← hd2, hdc, ← h, hr])
        exact absurd (this ▸ hd) hn
      · exact Memory.read_eq_zero fun d hd hdc => he ⟨d, hd, hdc⟩
    exact hm.2 c hc (by rw [← hr, h, this])
  have hlt : ∀ {m : Memory}, m.wf → m.Nodup := fun hm =>
    hm.1.imp fun hcd => fun e => by rw [e] at hcd; exact absurd hcd (lt_irrefl _)
  refine List.Perm.eq_of_pairwise ?_ hm.1 hm'.1
    ((List.perm_ext_iff_of_nodup (hlt hm) (hlt hm')).2 fun c =>
      ⟨key hm hm' h c, key hm' hm (fun x => (h x).symm) c⟩)
  intro c d _ _ h1 h2
  exact absurd h1 (lt_asymm h2)

end Sys2Proof.Machine
end

