-- ==== Sys2Proof/Laws/Values.lean ====
section
/-! SUPPORT. The laws of the notation of R13, R14 and R16: characters and their values, hex strings and bytes, bytes
and integers, digit arithmetic, the string operations of the card unit. -/

namespace Sys2Proof.Machine

/-! ## Characters -/

theorem val_hexchar {v : Nat} (h : v < 16) : val (hexchar v) = v := by
  revert v; decide

theorem isHex_hexchar {v : Nat} (h : v < 16) : isHex (hexchar v) = true := by
  revert v; decide

theorem isDec_hexchar {v : Nat} (h : v < 16) : isDec (hexchar v) = decide (v < 10) := by
  revert v; decide

theorem isDec_bounds {c : Byte} (h : isDec c = true) : 0x30 ≤ c.toNat ∧ c.toNat ≤ 0x39 := by
  simpa [isDec] using h

theorem isHex_bounds {c : Byte} (h : isHex c = true) :
    (0x30 ≤ c.toNat ∧ c.toNat ≤ 0x39) ∨ (0x41 ≤ c.toNat ∧ c.toNat ≤ 0x46) := by
  simpa [isHex, isDec] using h

theorem isHex_of_isDec {c : Byte} (h : isDec c = true) : isHex c = true := by
  simp [isHex, h]

theorem val_lt {c : Byte} (h : isHex c = true) : val c < 16 := by
  have := isHex_bounds h
  unfold val; split <;> omega

theorem val_lt_ten {c : Byte} (h : isDec c = true) : val c < 10 := by
  have := isDec_bounds h
  unfold val; split <;> omega

theorem val_eq_digit {c : Byte} (h : isDec c = true) : val c = digit c := by
  have := isDec_bounds h
  unfold val digit; split <;> omega

theorem hexchar_val {c : Byte} (h : isHex c = true) : hexchar (val c) = c := by
  have hb := isHex_bounds h
  have hc : c = BitVec.ofNat 8 c.toNat := by simp
  unfold hexchar val
  rw [hc]
  congr 1
  simp only [BitVec.toNat_ofNat]
  split <;> split <;> omega

theorem digit_dchar {v : Nat} (h : v < 10) : digit (dchar v) = v := by
  revert v; decide

theorem isDec_dchar {v : Nat} (h : v < 10) : isDec (dchar v) = true := by
  revert v; decide

theorem digit_lt {c : Byte} (h : isDec c = true) : digit c < 10 := by
  have := isDec_bounds h
  unfold digit; omega

theorem dchar_digit {c : Byte} (h : isDec c = true) : dchar (digit c) = c := by
  have hb := isDec_bounds h
  unfold dchar digit
  rw [show 0x30 + (c.toNat - 0x30) = c.toNat by omega]
  simp

theorem hexchar_eq_dchar {v : Nat} (h : v < 10) : hexchar v = dchar v := by
  simp [hexchar, dchar, h]

/-! ## Hex strings and bytes (R14) -/

@[simp] theorem hex_nil : hex [] = [] := rfl

@[simp] theorem hex_cons (b : Byte) (bs : Bytes) :
    hex (b :: bs) = hexchar (b.toNat / 16) :: hexchar (b.toNat % 16) :: hex bs := rfl

@[simp] theorem bytes_nil : bytes [] = [] := rfl

@[simp] theorem bytes_cons (a b : Byte) (h : Chars) :
    bytes (a :: b :: h) = BitVec.ofNat 8 (16 * val a + val b) :: bytes h := rfl

@[simp] theorem hex_length (bs : Bytes) : (hex bs).length = 2 * bs.length := by
  induction bs with
  | nil => rfl
  | cons b bs ih => simp [ih]; omega

theorem hex_append (a b : Bytes) : hex (a ++ b) = hex a ++ hex b := by
  induction a with
  | nil => rfl
  | cons x a ih => simp [ih]

theorem hex_take (bs : Bytes) (k : Nat) : hex (bs.take k) = (hex bs).take (2 * k) := by
  induction bs generalizing k with
  | nil => simp
  | cons b bs ih =>
    cases k with
    | zero => simp
    | succ k => simp [ih, show 2 * (k + 1) = 2 * k + 1 + 1 by omega]

/-- Every result of the block's hex conversions is upper-case hex (R29). -/
theorem isHex_of_mem_hex {bs : Bytes} {c : Byte} (h : c ∈ hex bs) : isHex c = true := by
  induction bs with
  | nil => simp at h
  | cons b bs ih =>
    have hb := b.isLt
    rcases List.mem_cons.1 h with rfl | h
    · exact isHex_hexchar (by omega)
    rcases List.mem_cons.1 h with rfl | h
    · exact isHex_hexchar (by omega)
    · exact ih h

theorem bytes_length : ∀ h : Chars, (bytes h).length = h.length / 2
  | [] => rfl
  | [_] => by simp [bytes]
  | a :: b :: h => by simp [bytes_length h]; omega

/-- `bytes` undoes `hex` (R14). -/
theorem bytes_hex (bs : Bytes) : bytes (hex bs) = bs := by
  induction bs with
  | nil => rfl
  | cons b bs ih =>
    have hb := b.isLt
    rw [hex_cons, bytes_cons, val_hexchar (by omega), val_hexchar (by omega), ih,
      show 16 * (b.toNat / 16) + b.toNat % 16 = b.toNat by omega]
    simp

/-- `hex` undoes `bytes` on hex strings of even length (R14). -/
theorem hex_bytes : ∀ h : Chars, h.length % 2 = 0 → (∀ c ∈ h, isHex c = true) → hex (bytes h) = h
  | [], _, _ => rfl
  | [_], hl, _ => by simp at hl
  | a :: b :: h, hl, hc => by
    have ha := val_lt (hc a (by simp))
    have hb := val_lt (hc b (by simp))
    have ih := hex_bytes h (by simp only [List.length_cons] at hl; omega) fun c hh => hc c (by simp [hh])
    rw [bytes_cons, hex_cons, ih, BitVec.toNat_ofNat, Nat.mod_eq_of_lt (show _ < 2 ^ 8 by omega),
      show (16 * val a + val b) / 16 = val a by omega, show (16 * val a + val b) % 16 = val b by omega,
      hexchar_val (hc a (by simp)), hexchar_val (hc b (by simp))]

/-! ## Bytes and integers (R14) -/

@[simp] theorem intOf_nil : intOf [] = 0 := rfl

theorem foldl_intOf (bs : Bytes) (v : Nat) :
    bs.foldl (fun v b => v * 256 + b.toNat) v = v * 256 ^ bs.length + intOf bs := by
  induction bs generalizing v with
  | nil => simp [intOf]
  | cons b bs ih =>
    simp only [intOf, List.foldl_cons, List.length_cons] at ih ⊢
    rw [ih, ih (0 * 256 + b.toNat)]
    ring

theorem intOf_cons (b : Byte) (bs : Bytes) : intOf (b :: bs) = b.toNat * 256 ^ bs.length + intOf bs := by
  rw [intOf, List.foldl_cons, foldl_intOf]
  simp

theorem intOf_append (a b : Bytes) : intOf (a ++ b) = intOf a * 256 ^ b.length + intOf b := by
  rw [intOf, List.foldl_append, foldl_intOf]
  rfl

theorem intOf_lt (bs : Bytes) : intOf bs < 256 ^ bs.length := by
  induction bs with
  | nil => simp
  | cons b bs ih =>
    have hb := b.isLt
    rw [intOf_cons, List.length_cons, pow_succ]
    nlinarith

@[simp] theorem bytesOf_length (n v : Nat) : (bytesOf n v).length = n := by simp [bytesOf]

@[simp] theorem bytesOf_zero (v : Nat) : bytesOf 0 v = [] := rfl

theorem bytesOf_succ (n v : Nat) : bytesOf (n + 1) v = BitVec.ofNat 8 (v >>> (8 * n)) :: bytesOf n v := by
  simp only [bytesOf, List.range_succ_eq_map, List.map_cons, List.map_map]
  refine congrArg₂ _ (by simp) (List.map_congr_left fun i _ => ?_)
  simp only [Function.comp_apply]
  rw [show n + 1 - 1 - Nat.succ i = n - 1 - i by omega]

theorem pow256 (n : Nat) : 256 ^ n = 2 ^ (8 * n) := by rw [pow_mul]; norm_num

/-- The big-endian bytes of an integer read back as that integer modulo the width (R14). -/
theorem intOf_bytesOf (n v : Nat) : intOf (bytesOf n v) = v % 256 ^ n := by
  induction n with
  | zero => simp [Nat.mod_one]
  | succ n ih =>
    rw [bytesOf_succ, intOf_cons, ih, bytesOf_length, BitVec.toNat_ofNat, Nat.shiftRight_eq_div_pow, ← pow256,
      show (2 : Nat) ^ 8 = 256 by norm_num, pow_succ, Nat.mod_mul (a := 256 ^ n) (b := 256), Nat.mul_comm, Nat.add_comm]

/-- An integer below the width is read back (R14). -/
theorem bytesOf_intOf (bs : Bytes) : bytesOf bs.length (intOf bs) = bs := by
  have key : ∀ (bs : Bytes) (k : Nat), bytesOf bs.length (k * 256 ^ bs.length + intOf bs) = bs := by
    intro bs
    induction bs with
    | nil => intro k; rfl
    | cons b bs ih =>
      intro k
      have hlt := intOf_lt bs
      rw [List.length_cons, bytesOf_succ, intOf_cons]
      refine congrArg₂ _ ?_ ?_
      · rw [Nat.shiftRight_eq_div_pow, ← pow256, pow_succ,
          show k * (256 ^ bs.length * 256) + (b.toNat * 256 ^ bs.length + intOf bs)
            = intOf bs + 256 ^ bs.length * (k * 256 + b.toNat) by ring,
          Nat.add_mul_div_left _ _ (by positivity), Nat.div_eq_of_lt hlt, Nat.zero_add]
        apply BitVec.eq_of_toNat_eq
        have hb := b.isLt
        rw [BitVec.toNat_ofNat]
        omega
      · rw [pow_succ, show k * (256 ^ bs.length * 256) + (b.toNat * 256 ^ bs.length + intOf bs)
            = (k * 256 + b.toNat) * 256 ^ bs.length + intOf bs by ring]
        exact ih _
  simpa using key bs 0

@[simp] theorem ofBits_length {w : Nat} (x : BitVec w) : (ofBits x).length = w / 8 := by simp [ofBits]

/-- A bit vector of whole bytes is read back from its bytes. -/
theorem toBits_ofBits {n : Nat} (x : BitVec (8 * n)) : toBits (8 * n) (ofBits x) = x := by
  apply BitVec.eq_of_toNat_eq
  rw [toBits, ofBits, intOf_bytesOf, BitVec.toNat_ofNat, pow256, show 8 * n / 8 = n by omega, Nat.mod_mod]
  exact Nat.mod_eq_of_lt x.isLt

/-- Whole bytes are read back from their bit vector. -/
theorem ofBits_toBits {n : Nat} (bs : Bytes) (h : bs.length = n) : ofBits (toBits (8 * n) bs) = bs := by
  subst h
  have hlt := intOf_lt bs
  rw [ofBits, toBits, BitVec.toNat_ofNat, ← pow256, Nat.mod_eq_of_lt hlt, show 8 * bs.length / 8 = bs.length by omega]
  exact bytesOf_intOf bs

@[simp] theorem hexBits_length {w : Nat} (x : BitVec w) : (hexBits x).length = 2 * (w / 8) := by simp [hexBits]

theorem isHex_of_mem_hexBits {w : Nat} {x : BitVec w} {c : Byte} (h : c ∈ hexBits x) : isHex c = true :=
  isHex_of_mem_hex h

/-- A hex string read as bits and written again (R14). -/
theorem hexBits_toBits {n : Nat} (h : Chars) (hl : h.length = 2 * n) (hc : ∀ c ∈ h, isHex c = true) :
    hexBits (toBits (8 * n) (bytes h)) = h := by
  rw [hexBits, ofBits_toBits _ (by rw [bytes_length]; omega), hex_bytes h (by omega) hc]

/-- Bits written as hex and read again (R14). -/
theorem toBits_bytes_hexBits {n : Nat} (x : BitVec (8 * n)) : toBits (8 * n) (bytes (hexBits x)) = x := by
  rw [hexBits, bytes_hex, toBits_ofBits]

/-! ## XOR of hex strings (R14) -/

@[simp] theorem xorHex_length (a b : Chars) : (xorHex a b).length = min a.length b.length := by simp [xorHex]

theorem isHex_of_mem_xorHex {a b : Chars} (ha : ∀ c ∈ a, isHex c = true) (hb : ∀ c ∈ b, isHex c = true) :
    ∀ c ∈ xorHex a b, isHex c = true := by
  induction a generalizing b with
  | nil => simp [xorHex]
  | cons x a ih =>
    cases b with
    | nil => simp [xorHex]
    | cons y b =>
      intro c hc
      simp only [xorHex, List.zipWith_cons_cons, List.mem_cons] at hc
      rcases hc with rfl | hc
      · exact isHex_hexchar (Nat.xor_lt_two_pow (n := 4) (val_lt (ha x (by simp))) (val_lt (hb y (by simp))))
      · exact ih (fun c h => ha c (by simp [h])) (fun c h => hb c (by simp [h])) c hc

/-- XORing twice with the same hex string gives the first string back. -/
theorem xorHex_xorHex {a b : Chars} (hl : a.length ≤ b.length) (ha : ∀ c ∈ a, isHex c = true)
    (hb : ∀ c ∈ b, isHex c = true) : xorHex (xorHex a b) b = a := by
  induction a generalizing b with
  | nil => simp [xorHex]
  | cons x a ih =>
    cases b with
    | nil => simp at hl
    | cons y b =>
      have hx := val_lt (ha x (by simp))
      have hy := val_lt (hb y (by simp))
      have ih' := ih (b := b) (by simpa using hl) (fun c h => ha c (by simp [h])) (fun c h => hb c (by simp [h]))
      simp only [xorHex] at ih'
      simp only [xorHex, List.zipWith_cons_cons, ih']
      rw [val_hexchar (Nat.xor_lt_two_pow (n := 4) hx hy), Nat.xor_assoc, Nat.xor_self, Nat.xor_zero,
        hexchar_val (ha x (by simp))]

/-! ## Digit arithmetic (R16) -/

@[simp] theorem addDigits_length (a b : Chars) : (addDigits a b).length = min a.length b.length := by simp [addDigits]

@[simp] theorem subDigits_length (a b : Chars) : (subDigits a b).length = min a.length b.length := by simp [subDigits]

theorem isDec_of_mem_addDigits {a b : Chars} {c : Byte} (h : c ∈ addDigits a b) : isDec c = true := by
  rw [addDigits, List.mem_iff_getElem] at h
  obtain ⟨i, hi, rfl⟩ := h
  rw [List.getElem_zipWith]
  exact isDec_dchar (Nat.mod_lt _ (by omega))

theorem isDec_of_mem_subDigits {a b : Chars} {c : Byte} (h : c ∈ subDigits a b) : isDec c = true := by
  rw [subDigits, List.mem_iff_getElem] at h
  obtain ⟨i, hi, rfl⟩ := h
  rw [List.getElem_zipWith]
  exact isDec_dchar (Nat.mod_lt _ (by omega))

/-- Subtraction undoes addition, digit by digit (R240). -/
theorem subDigits_addDigits {a b : Chars} (hl : a.length ≤ b.length) (ha : ∀ c ∈ a, isDec c = true)
    (hb : ∀ c ∈ b, isDec c = true) : subDigits (addDigits a b) b = a := by
  induction a generalizing b with
  | nil => simp [subDigits, addDigits]
  | cons x a ih =>
    cases b with
    | nil => simp at hl
    | cons y b =>
      have hx := digit_lt (ha x (by simp))
      have hy := digit_lt (hb y (by simp))
      have ih' := ih (b := b) (by simpa using hl) (fun c h => ha c (by simp [h])) (fun c h => hb c (by simp [h]))
      simp only [subDigits, addDigits] at ih'
      simp only [subDigits, addDigits, List.zipWith_cons_cons, ih']
      rw [digit_dchar (Nat.mod_lt _ (by omega)),
        show ((digit x + digit y) % 10 + 10 - digit y) % 10 = digit x by omega, dchar_digit (ha x (by simp))]

/-- Addition undoes subtraction, digit by digit (R241). -/
theorem addDigits_subDigits {a b : Chars} (hl : a.length ≤ b.length) (ha : ∀ c ∈ a, isDec c = true)
    (hb : ∀ c ∈ b, isDec c = true) : addDigits b (subDigits a b) = a := by
  induction a generalizing b with
  | nil => simp [subDigits, addDigits]
  | cons x a ih =>
    cases b with
    | nil => simp at hl
    | cons y b =>
      have hx := digit_lt (ha x (by simp))
      have hy := digit_lt (hb y (by simp))
      have ih' := ih (b := b) (by simpa using hl) (fun c h => ha c (by simp [h])) (fun c h => hb c (by simp [h]))
      simp only [subDigits, addDigits] at ih'
      simp only [subDigits, addDigits, List.zipWith_cons_cons, ih']
      rw [digit_dchar (Nat.mod_lt _ (by omega)),
        show (digit y + (digit x + 10 - digit y) % 10) % 10 = digit x by omega, dchar_digit (ha x (by simp))]

/-! ## Strings -/

@[simp] theorem right_length (n : Nat) (s : Chars) : (right n s).length = n := by simp [right]

@[simp] theorem fill32_length (s : Chars) : (fill32 s).length = 32 := by simp [fill32]

@[simp] theorem digitsOf_length (h : Chars) (k : Nat) : (digitsOf h k).length = k := by simp [digitsOf]

theorem isDec_of_mem_digitsOf {h : Chars} {k : Nat} {c : Byte} (hc : c ∈ digitsOf h k) : isDec c = true := by
  rcases List.mem_append.1 (List.mem_of_mem_take hc) with h | h
  · exact (List.mem_filter.1 h).2
  · rw [List.eq_of_mem_replicate h]; rfl

@[simp] theorem cardCode_length (P : Params) (k : Nat) (i : Bytes × Chars) : (cardCode P k i).length = k := by
  simp [cardCode]

@[simp] theorem encryptedPan_length (P : Params) (pdk : Bytes) (pan : Chars) : (encryptedPan P pdk pan).length = 16 := by
  simp [encryptedPan]

@[simp] theorem naturalDigits_length (P : Params) (pdk : Bytes) (pan t : Chars) :
    (naturalDigits P pdk pan t).length = 16 := by simp [naturalDigits]

/-- A table of 16 digits gives natural digits (R231). -/
theorem isDec_of_mem_naturalDigits {P : Params} {pdk : Bytes} {pan t : Chars} (ht : ∀ c ∈ t, isDec c = true) {c : Byte}
    (hc : c ∈ naturalDigits P pdk pan t) : isDec c = true := by
  obtain ⟨d, -, rfl⟩ := List.mem_map.1 hc
  rw [List.getD_eq_getElem?_getD]
  cases h : t[val d]? with
  | none => rfl
  | some x => exact ht x (List.mem_of_getElem? h)

end Sys2Proof.Machine
end

