-- ==== Sys2Proof/Laws/Blocks.lean ====
section
/-! SUPPORT. The block laws of CBC, CMAC and padding (R180, R181, R193): a message of whole blocks splits block by
block. -/

namespace Sys2Proof.Machine

theorem blocksOf_append (w b : Nat) (e : Bytes) :
    ∀ (n m : Nat) (d : Bytes), d.length = n * b → blocksOf w b (n + m) (d ++ e) = blocksOf w b n d ++ blocksOf w b m e
  | 0, m, d, h => by
    have : d = [] := List.length_eq_zero_iff.1 (by omega)
    subst this
    simp [blocksOf]
  | n + 1, m, d, h => by
    have hb : b ≤ d.length := by rw [h, Nat.succ_mul]; omega
    rw [Nat.add_right_comm, blocksOf, blocksOf, List.take_append_of_le_length hb, List.drop_append_of_le_length hb,
      blocksOf_append w b e n m (d.drop b) (by rw [List.length_drop, h, Nat.succ_mul]; omega)]
    rfl

/-- The blocks of a string of whole blocks followed by another string. -/
theorem toBlocks_append (w b : Nat) {d : Bytes} (e : Bytes) (h : d.length % b = 0) :
    toBlocks w b (d ++ e) = toBlocks w b d ++ toBlocks w b e := by
  by_cases hb : b = 0
  · subst hb
    rw [Nat.mod_zero] at h
    have : d = [] := List.length_eq_zero_iff.1 h
    subst this; simp [toBlocks, blocksOf]
  · have hd : d.length = d.length / b * b := by
      have := Nat.div_add_mod d.length b
      rw [Nat.mul_comm]; omega
    unfold toBlocks
    rw [show (d ++ e).length / b = d.length / b + e.length / b by
      rw [List.length_append, hd, Nat.mul_comm (d.length / b) b, Nat.mul_add_div (by omega),
        Nat.mul_div_cancel_left _ (by omega)]]
    exact blocksOf_append w b e _ _ d hd

/-- One block. -/
theorem toBlocks_one (w b : Nat) {d : Bytes} (hb : 0 < b) (h : d.length = b) : toBlocks w b d = [toBits w d] := by
  unfold toBlocks
  rw [h, Nat.div_self hb]
  simp [blocksOf, ← h]

@[simp] theorem toBlocks_nil (w b : Nat) : toBlocks w b [] = [] := by simp [toBlocks, blocksOf]

@[simp] theorem cbc_nil {w : Nat} (E : BitVec w → BitVec w) : cbc E [] = 0#w := rfl

@[simp] theorem cbc_append_one {w : Nat} (E : BitVec w → BitVec w) (d : List (BitVec w)) (x : BitVec w) :
    cbc E (d ++ [x]) = E (cbc E d ^^^ x) := by simp [cbc]

@[simp] theorem maskLast_append_one {w : Nat} (k : BitVec w) (d : List (BitVec w)) (x : BitVec w) :
    maskLast k (d ++ [x]) = d ++ [x ^^^ k] := by
  induction d with
  | nil => rfl
  | cons y d ih =>
    cases d with
    | nil => rfl
    | cons z d => simp only [List.cons_append, maskLast, List.cons.injEq, true_and]; exact ih

theorem pad1_length_mod (b : Nat) (m : Bytes) (hb : 0 < b) : (pad1 b m).length % b = 0 := by
  have := Nat.mod_lt m.length hb
  have hdm := Nat.div_add_mod m.length b
  simp only [pad1, List.length_append, List.length_replicate]
  by_cases h0 : m.length % b = 0
  · simp [h0]
  · rw [Nat.mod_eq_of_lt (a := b - m.length % b) (by omega)]
    rw [show m.length + (b - m.length % b) = b * (m.length / b + 1) by rw [Nat.mul_add]; omega]
    simp

theorem pad2_length_mod (b : Nat) (m : Bytes) (hb : 0 < b) : (pad2 b m).length % b = 0 := by
  have := Nat.mod_lt (m.length + 1) hb
  have hdm := Nat.div_add_mod (m.length + 1) b
  simp only [pad2, List.length_append, List.length_cons, List.length_replicate]
  by_cases h0 : (m.length + 1) % b = 0
  · simp [h0]
  · rw [Nat.mod_eq_of_lt (a := b - (m.length + 1) % b) (by omega)]
    rw [show m.length + (b - (m.length + 1) % b + 1) = b * ((m.length + 1) / b + 1) by rw [Nat.mul_add]; omega]
    simp

/-- Padding method 2 of a string whose last, incomplete block is `last`. -/
theorem pad2_append (b : Nat) {d last : Bytes} (h : d.length % b = 0) (hl : last.length < b) :
    pad2 b (d ++ last) = d ++ (last ++ [0x80#8] ++ List.replicate (b - last.length - 1) 0x00#8) := by
  have hk : (b - ((d ++ last).length + 1) % b) % b = b - last.length - 1 := by
    rw [List.length_append, Nat.add_assoc, Nat.add_mod, h, Nat.zero_add, Nat.mod_mod]
    by_cases he : last.length + 1 = b
    · rw [he]; simp; omega
    · rw [Nat.mod_eq_of_lt (a := last.length + 1) (by omega), Nat.mod_eq_of_lt (by omega)]; omega
  unfold pad2
  rw [hk]
  simp

end Sys2Proof.Machine
end

