-- ==== Sys2Proof/Laws/Ops.lean ====
section
/-! SUPPORT. What each shared operation can do, said once: the parameters, the operand checks, the common shapes of the
command rules, a command's completion, and `exec` as one rule per command. -/

namespace Sys2Proof.Machine

/-! ## The parameters (R8, R10) -/

/-- The machine's cipher satisfies the assumption of R8. -/
theorem params_cipherLawful : Config.params.CipherLawful :=
  ⟨fun k x => (Config.des k).symm_apply_apply x, fun k x => (Config.aes k).symm_apply_apply x⟩

/-- The machine's `DATA_MAX` is legal (R10, R31). -/
theorem params_dataMax : Config.params.dataMax % 2 = 0 ∧ 16 ≤ Config.params.dataMax ∧ Config.params.dataMax ≤ 61440 := by
  show Config.dataMax % 2 = 0 ∧ 16 ≤ Config.dataMax ∧ Config.dataMax ≤ 61440
  unfold Config.dataMax
  omega

/-- Encryption undoes decryption too: an injective map of a finite set is onto. -/
theorem desE_desD_of_lawful {P : Params} (h : P.CipherLawful) (k x : Block) : P.desE k (P.desD k x) = x := by
  have hinj : Function.Injective (P.desE k) := fun a b hab => by rw [← h.1 k a, hab, h.1]
  obtain ⟨y, rfl⟩ := (Finite.injective_iff_surjective.1 hinj) x
  rw [h.1]

/-! ## Sequencing of checks (R15) -/

@[simp] theorem bind_ok_iff {α β : Type} {x : Except ErrCode α} {f : α → Except ErrCode β} {b : β} :
    (x >>= f) = .ok b ↔ ∃ a, x = .ok a ∧ f a = .ok b := by
  cases x <;> simp [bind, Except.bind]

theorem ok_bind {α β : Type} (a : α) (f : α → Except ErrCode β) : ((Except.ok a : Except ErrCode α) >>= f) = f a := rfl

theorem error_bind {α β : Type} (e : ErrCode) (f : α → Except ErrCode β) :
    ((Except.error e : Except ErrCode α) >>= f) = .error e := rfl

@[simp] theorem pure_eq_ok {α : Type} (a : α) : (pure a : Except ErrCode α) = .ok a := rfl

@[simp] theorem require_ok_iff {c : Bool} {e : ErrCode} {u : Unit} : require c e = .ok u ↔ c = true := by
  cases c <;> simp [require]

theorem require_true (e : ErrCode) : require true e = .ok () := rfl

theorem require_false (e : ErrCode) : require false e = .error e := rfl

@[simp] theorem requireCode_ok_iff {α : Type} {o : Option α} {a : α} : requireCode o = .ok a ↔ o = some a := by
  cases o <;> simp [requireCode]

@[simp] theorem between_iff {lo hi n : Nat} : between lo hi n = true ↔ lo ≤ n ∧ n ≤ hi := by simp [between]

@[simp] theorem oneOf_iff {ls : List Nat} {n : Nat} : oneOf ls n = true ↔ n ∈ ls := by simp [oneOf]

/-! ## Slots and fields (R32, R34) -/

@[simp] theorem Snap.chars_length (n : Snap) (k : Slot) (l : Nat) : (n.chars k l).length = l := by simp [Snap.chars]

/-- What a slot's operand string is (R32). -/
theorem slot_eq_some_iff {P : Params} {n : Snap} {k : Slot} {str : Chars} :
    slot P n k = some str ↔ n.len k ≤ cap P k ∧ n.chars k (n.len k) = str := by
  unfold slot; split <;> simp_all

/-- A slot whose length is within the capacity has an operand string (R32). -/
theorem slot_of_le {P : Params} {n : Snap} {k : Slot} (h : n.len k ≤ cap P k) :
    slot P n k = some (n.chars k (n.len k)) := slot_eq_some_iff.2 ⟨h, rfl⟩

/-- The operand string has SLOT_LEN characters (R32). -/
theorem slot_length {P : Params} {n : Snap} {k : Slot} {str : Chars} (h : slot P n k = some str) :
    str.length = n.len k := by
  obtain ⟨-, rfl⟩ := slot_eq_some_iff.1 h; simp

/-- When the check of R34 passes, and with what. -/
@[simp] theorem field_ok_iff {P : Params} {n : Snap} {k : Slot} {lens : Nat → Bool} {set : Byte → Bool} {e : ErrCode}
    {str : Chars} :
    field P n k lens set e = .ok str ↔
      slot P n k = some str ∧ lens str.length = true ∧ ∀ c ∈ str, set c = true := by
  unfold field
  cases h : slot P n k with
  | none => simp
  | some t =>
    have hl := slot_length h
    rw [← hl]
    by_cases h1 : lens t.length = true
    · by_cases h2 : t.all set = true
      · simp only [h1, h2, if_true, Except.ok.injEq, Option.some.injEq]
        constructor
        · rintro rfl; exact ⟨rfl, h1, fun c hc => List.all_eq_true.1 h2 c hc⟩
        · exact fun h => h.1
      · simp only [h1, h2, if_true, Option.some.injEq]
        constructor
        · simp
        · rintro ⟨rfl, -, h3⟩; exact absurd (List.all_eq_true.2 h3) h2
    · simp only [h1, Option.some.injEq]
      constructor
      · simp
      · rintro ⟨rfl, h2, -⟩; exact absurd h2 h1

/-- The check of R34 in full, for a slot whose accepted lengths are within its capacity. -/
theorem field_eq {P : Params} {n : Snap} {k : Slot} {lens : Nat → Bool} {set : Byte → Bool} {e : ErrCode}
    (hcap : lens (n.len k) = true → n.len k ≤ cap P k) :
    field P n k lens set e =
      if lens (n.len k) then (if (n.chars k (n.len k)).all set then .ok (n.chars k (n.len k)) else .error .invalidCharacter)
      else .error e := by
  unfold field
  by_cases h : n.len k ≤ cap P k
  · rw [slot_of_le h]
  · have : lens (n.len k) = false := by
      cases hl : lens (n.len k) with
      | false => rfl
      | true => exact absurd (hcap hl) h
    simp [slot, h, this]

/-- A legal operand passes the check of R34. -/
theorem field_of_legal {n : Snap} {k : Slot} {lo hi : Nat} {set : Byte → Bool} {str : Chars} {e : ErrCode}
    (h : LegalOperand n k lo hi set str) : field Config.params n k (between lo hi) set e = .ok str :=
  field_ok_iff.2 ⟨h.1, between_iff.2 ⟨h.2.1, h.2.2.1⟩, h.2.2.2⟩

/-- A legal operand of one length passes the check of R34. -/
theorem field_of_fixed {n : Snap} {k : Slot} {l : Nat} {set : Byte → Bool} {str : Chars} {e : ErrCode}
    (h : LegalOperand n k l l set str) : field Config.params n k (oneOf [l]) set e = .ok str :=
  field_ok_iff.2 ⟨h.1, oneOf_iff.2 (by have := h.2.1; have := h.2.2.1; simp; omega), h.2.2.2⟩

/-- A legal key passes the check of R34. -/
theorem field_of_key {n : Snap} {lens : List Nat} {str : Chars} {e : ErrCode} (h : LegalKey n lens str) :
    field Config.params n Slot.key (oneOf lens) isHex e = .ok str :=
  field_ok_iff.2 ⟨h.1, oneOf_iff.2 h.2.1, h.2.2⟩

/-! ## The shared shapes of the command rules -/

/-- What the checks of R183 deliver. -/
theorem macChk_ok_iff {P : Params} {n : Snap} {ls : List Nat} {i : MacInput} :
    macChk P n ls = .ok i ↔
      ∃ key dat, slot P n Slot.key = some key ∧ key.length ∈ ls ∧ (∀ c ∈ key, isHex c = true) ∧
        slot P n Slot.data = some dat ∧ dat.length ≤ P.dataMax ∧ dat.length % 2 = 0 ∧ 0 < dat.length ∧
        (∀ c ∈ dat, isHex c = true) ∧ n.padmethod ∈ [1, 2, 3] ∧ 1 ≤ n.trunc ∧ n.trunc ≤ 8 ∧
        i = ⟨bytes key, padMethod n.padmethod 8 (bytes dat), n.trunc⟩ := by
  simp only [macChk, bind_ok_iff, field_ok_iff, oneOf_iff, dataLengthChk, require_ok_iff, Bool.and_eq_true,
    decide_eq_true_eq, between_iff, pure_eq_ok, Except.ok.injEq, dataChars]
  constructor
  · rintro ⟨key, ⟨h1, h2, h3⟩, -, ⟨h4, h5⟩, -, h6, dat, h7, -, h8, -, ⟨h9, h10⟩, rfl⟩
    cases hs : slot P n Slot.data with
    | none => simp [hs] at h7
    | some d =>
      have hl := slot_length hs
      simp only [hs] at h7
      split at h7
      · rename_i hall
        simp only [Except.ok.injEq] at h7
        subst h7
        exact ⟨key, d, h1, h2, h3, rfl, by omega, by omega, by omega, fun c hc => List.all_eq_true.1 hall c hc, h8, h9,
          h10, rfl⟩
      · simp at h7
  · rintro ⟨key, dat, h1, h2, h3, h4, h5, h6, h7, h8, h9, h10, h11, rfl⟩
    have hl := slot_length h4
    refine ⟨key, ⟨h1, h2, h3⟩, (), ⟨by omega, by omega⟩, (), by omega, dat, ?_, (), h9, (), ⟨h10, h11⟩, rfl⟩
    simp only [h4]
    rw [if_pos (List.all_eq_true.2 h8)]

/-- When a DES-based MAC command completes without error, and with what. -/
theorem desMac_ok_iff {P : Params} {n : Snap} {ls : List Nat} {mac : Bytes → Bytes → Block} {a : Answer} :
    desMac P ls mac n = .ok a ↔
      ∃ i, macChk P n ls = .ok i ∧ a = { result := truncated (mac i.key i.padded) i.trunc } := by
  simp only [desMac, bind_ok_iff, pure_eq_ok, Except.ok.injEq]
  exact ⟨fun ⟨i, h, e⟩ => ⟨i, h, e.symm⟩, fun ⟨i, h, e⟩ => ⟨i, h, e.symm⟩⟩

/-- When a CMAC command completes without error, and with what. -/
theorem cmacCommand_ok_iff {w : Nat} {P : Params} {n : Snap} {ls : List Nat} {mt : Nat} {mac : Bytes → Bytes → BitVec w}
    {a : Answer} :
    cmacCommand P ls mt mac n = .ok a ↔
      ∃ key dat, slot P n Slot.key = some key ∧ key.length ∈ ls ∧ (∀ c ∈ key, isHex c = true) ∧
        slot P n Slot.data = some dat ∧ dat.length ≤ P.dataMax ∧ dat.length % 2 = 0 ∧ (∀ c ∈ dat, isHex c = true) ∧
        1 ≤ n.trunc ∧ n.trunc ≤ mt ∧ a = { result := truncated (mac (bytes key) (bytes dat)) n.trunc } := by
  simp only [cmacCommand, bind_ok_iff, field_ok_iff, oneOf_iff, dataLengthChk, require_ok_iff, Bool.and_eq_true,
    decide_eq_true_eq, between_iff, pure_eq_ok, Except.ok.injEq, dataChars]
  constructor
  · rintro ⟨key, ⟨h1, h2, h3⟩, -, ⟨h4, h5⟩, dat, h7, -, ⟨h9, h10⟩, rfl⟩
    cases hs : slot P n Slot.data with
    | none => simp [hs] at h7
    | some d =>
      have hl := slot_length hs
      simp only [hs] at h7
      split at h7
      · rename_i hall
        simp only [Except.ok.injEq] at h7
        subst h7
        exact ⟨key, d, h1, h2, h3, rfl, by omega, by omega, fun c hc => List.all_eq_true.1 hall c hc, h9, h10, rfl⟩
      · simp at h7
  · rintro ⟨key, dat, h1, h2, h3, h4, h5, h6, h8, h10, h11, rfl⟩
    have hl := slot_length h4
    refine ⟨key, ⟨h1, h2, h3⟩, (), ⟨by omega, by omega⟩, dat, ?_, (), ⟨h10, h11⟩, rfl⟩
    simp only [h4]
    rw [if_pos (List.all_eq_true.2 h8)]

/-- When the last steps of a PIN block decoder succeed, and with what (R110). -/
theorem openField_ok_iff {f tag l start : Nat} {p : Chars} {a : Answer} :
    openField f tag l start p = .ok a ↔
      tag = f ∧ 4 ≤ l ∧ l ≤ 12 ∧ (∀ c ∈ (p.drop start).take l, isDec c = true) ∧
        a = { result := (p.drop start).take l, aux := auxWord f l } := by
  simp only [openField, bind_ok_iff, require_ok_iff, decide_eq_true_eq, between_iff, pure_eq_ok, Except.ok.injEq,
    List.all_eq_true]
  constructor
  · rintro ⟨-, h1, -, ⟨h2, h3⟩, -, h4, rfl⟩; exact ⟨h1, h2, h3, h4, rfl⟩
  · rintro ⟨h1, h2, h3, h4, rfl⟩; exact ⟨(), h1, (), ⟨h2, h3⟩, (), h4, rfl⟩

/-- When a KSN increment succeeds, and with what (R150, R154). -/
theorem ksnIncrement_ok_iff {w : Nat} {ksn : Chars} {a : Answer} :
    ksnIncrement w ksn = .ok a ↔
      (ksnCounter (toBits w (bytes ksn))).toNat < 0x1FFFFF ∧
        a = { result := hexBits ((toBits w (bytes ksn) &&& ~~~(BitVec.ofNat w 0x1FFFFF)) |||
          BitVec.ofNat w ((ksnCounter (toBits w (bytes ksn))).toNat + 1)) } := by
  simp only [ksnIncrement, bind_ok_iff, require_ok_iff, decide_eq_true_eq, pure_eq_ok, Except.ok.injEq]
  exact ⟨fun ⟨_, h, e⟩ => ⟨h, e.symm⟩, fun ⟨h, e⟩ => ⟨(), h, e.symm⟩⟩

/-- What the table check delivers (R230): the default, or a table of 16 digits. -/
theorem decChk_ok {P : Params} {n : Snap} {t : Chars} (h : decChk P n = .ok t) :
    t.length = 16 ∧ ∀ c ∈ t, isDec c = true := by
  unfold decChk at h
  split at h
  · cases h; exact ⟨rfl, by decide⟩
  · split at h
    · rename_i hl
      cases hs : slot P n Slot.dectab with
      | none => simp [hs] at h
      | some d =>
        simp only [hs] at h
        split at h
        · rename_i hall
          cases h
          exact ⟨by rw [slot_length hs, hl], fun c hc => List.all_eq_true.1 hall c hc⟩
        · cases h
    · cases h

/-- The table in force passes the check of R230. -/
theorem decChk_of_inForce {n : Snap} {t : Chars} (h : TableInForce n t) : decChk Config.params n = .ok t := by
  unfold decChk
  rcases h with ⟨h0, rfl⟩ | ⟨hs, h1, h2, h3⟩
  · rw [if_pos h0]
  · have hl : n.len Slot.dectab = 16 := by rw [← slot_length hs]; omega
    have hs' : slot Config.params n Slot.dectab = some t := hs
    rw [if_neg (by omega), if_pos hl, hs']
    simp only
    rw [if_pos (List.all_eq_true.2 h3)]

/-- What the mask check delivers (R235). -/
theorem maskChk_ok_iff {P : Params} {n : Snap} {m : Chars} :
    maskChk P n = .ok m ↔ slot P n Slot.mask = some m ∧ 4 ≤ m.length ∧ m.length ≤ 12 ∧ ∀ c ∈ m, isMask c = true := by
  unfold maskChk
  cases hs : slot P n Slot.mask with
  | none => simp
  | some t =>
    have hl := slot_length hs
    rw [← hl]
    by_cases h1 : between 4 12 t.length = true
    · by_cases h2 : t.all isMask = true
      · simp only [h1, h2, if_true, Except.ok.injEq, Option.some.injEq]
        constructor
        · rintro rfl
          exact ⟨rfl, (between_iff.1 h1).1, (between_iff.1 h1).2, fun c hc => List.all_eq_true.1 h2 c hc⟩
        · exact fun h => h.1
      · simp only [h1, h2, if_true, Option.some.injEq]
        constructor
        · simp
        · rintro ⟨rfl, -, -, h3⟩; exact absurd (List.all_eq_true.2 h3) h2
    · simp only [h1, Option.some.injEq]
      constructor
      · simp
      · rintro ⟨rfl, h2, h3, -⟩; exact absurd (between_iff.2 ⟨h2, h3⟩) h1

/-- What the parameter checks of R234 require. -/
theorem vdParamsChk_ok_iff {n : Snap} {u : Unit} : vdParamsChk n = .ok u ↔ LegalVdParams n := by
  simp only [vdParamsChk, bind_ok_iff, require_ok_iff, between_iff, decide_eq_true_eq, Bool.and_eq_true, LegalVdParams]
  constructor
  · rintro ⟨-, ⟨h1, h2⟩, -, h3, -, ⟨⟨h4, h5⟩, h6⟩, h7⟩; exact ⟨h1, h2, h3, h4, h5, h6, h7⟩
  · rintro ⟨h1, h2, h3, h4, h5, h6, h7⟩; exact ⟨(), ⟨h1, h2⟩, (), h3, (), ⟨⟨h4, h5⟩, h6⟩, h7⟩

/-! ## A command's completion (R272) -/

/-- A command in flight always completes: its rule decides how. -/
theorem command_of_snap {rule : Snap → Except ErrCode Answer} {s : State} {n : Snap} (h : s.snap = some n) :
    command rule s = .next (s.complete (rule n)) := by simp [command, h]

/-- A next state of a command is a completion of the command in flight. -/
theorem command_next {rule : Snap → Except ErrCode Answer} {s t : State} (h : command rule s = .next t) :
    ∃ n, s.snap = some n ∧ t = s.complete (rule n) := by
  unfold command at h
  split at h
  · cases h
  · rename_i n hn
    cases h
    exact ⟨n, hn, rfl⟩

@[simp] theorem complete_ok (s : State) (a : Answer) : s.complete (.ok a) = s.completeOk a := rfl

@[simp] theorem complete_error (s : State) (e : ErrCode) : s.complete (.error e) = s.completeErr e := rfl

/-- The rule of each command (R83), from the number of draws already taken and the snapshot. -/
def ruleOf (P : Params) (i : Instr) (d : Nat) (n : Snap) : Except ErrCode Answer :=
  match i with
  | .nop => .ok { result := [] }
  | .zeroize => .ok { result := [] }
  | .pinEncF0 => pinEncF0 P n
  | .pinEncF1 => pinEncF1 P d n
  | .pinEncF2 => pinEncF2 P n
  | .pinEncF3 => pinEncF3 P d n
  | .pinEncF4 => pinEncF4 P n
  | .pinDecF0 => pinDecF0 P n
  | .pinDecF1 => pinDecF1 P n
  | .pinDecF2 => pinDecF2 P n
  | .pinDecF3 => pinDecF3 P n
  | .pinDecF4 => pinDecF4 P n
  | .dukptIpek => dukptIpek P n
  | .dukptTk => dukptTk P n
  | .dukptTkIpek => dukptTkIpek P n
  | .dukptWk => dukptWk P n
  | .dukptKsnInc => dukptKsnInc P n
  | .dukptAesIk => dukptAesIk P n
  | .dukptAesWk => dukptAesWk P n
  | .dukptAesKsnInc => dukptAesKsnInc P n
  | .macAlg1 => desMac P [16] (alg1 P) n
  | .macAlg2 => desMac P [32] (alg2 P) n
  | .macAlg3 => desMac P [32] (alg3 P) n
  | .macX99 => desMac P [16] (alg1 P) n
  | .macX919 => desMac P [32] (alg3 P) n
  | .macRetail => desMac P [32] (alg3 P) n
  | .macTdesCbc => desMac P [32, 48] (tdesCbc P) n
  | .macAs2805 => desMac P [32] (alg3 P) n
  | .macCmacAes => cmacCommand P [32, 48, 64] 16 (cmacAes P) n
  | .macCmacTdes => cmacCommand P [16, 32, 48] 8 (cmacTdes P) n
  | .cvvGen => cvvGen P n
  | .cvvGenAtc => cvvGenAtc P n
  | .cvvVerify => cvvVerify P n
  | .cvvVerifyAtc => cvvVerifyAtc P n
  | .cscV1 => cscV1 P n
  | .cscV2 => cscV2 P n
  | .cvc3Gen => cvc3Gen P n
  | .pvvGen => pvvGen P n
  | .pvvPin => pvvPin P n
  | .ibmOffset => ibmOffset P n
  | .ibmOffsetMask => ibmOffsetMask P n
  | .ibmPin => ibmPin P n
  | .ibmPinMask => ibmPinMask P n

/-- The state a command's completion starts from: ZEROIZE clears the live operands first (R277). -/
def completionBase (i : Instr) (s : State) : State :=
  if i = .zeroize then s.zeroizeOperands Config.params else s

/-- Every command is one rule and one completion (R272). -/
theorem exec_eq (i : Instr) (s : State) :
    exec i s = command (ruleOf Config.params i s.draws) (completionBase i s) := by
  cases i <;> rfl

@[simp] theorem completionBase_snap (i : Instr) (s : State) : (completionBase i s).snap = s.snap := by
  unfold completionBase; split <;> rfl

/-- `exec` on a state with a command in flight. -/
theorem exec_of_snap (i : Instr) {s : State} {n : Snap} (h : s.snap = some n) :
    exec i s = .next ((completionBase i s).complete (ruleOf Config.params i s.draws n)) := by
  rw [exec_eq]
  exact command_of_snap (by simpa using h)

/-- What a next state of `exec` is. -/
theorem exec_next {i : Instr} {s t : State} (h : exec i s = .next t) :
    ∃ n, s.snap = some n ∧ t = (completionBase i s).complete (ruleOf Config.params i s.draws n) := by
  rw [exec_eq] at h
  obtain ⟨n, hn, rfl⟩ := command_next h
  exact ⟨n, by simpa using hn, rfl⟩

/-- For every command but ZEROIZE the completion starts from the state itself. -/
theorem completionBase_of_ne {i : Instr} (h : i ≠ .zeroize) (s : State) : completionBase i s = s := if_neg h

end Sys2Proof.Machine
end

