-- ==== Sys2Proof/Laws/Machine.lean ====
section
/-! SUPPORT. What the decoder on bytes, the register map, a host access and a step can do, said once each: the lemmas
the proofs about runs cite instead of unfolding them. -/

namespace Sys2Proof

/-! ## Words and bytes (R61, R81) -/

theorem wordOfBytes_bytesOfWord (w : Word) :
    wordOfBytes (w.extractLsb' 0 8) (w.extractLsb' 8 8) (w.extractLsb' 16 8) (w.extractLsb' 24 8) = w := by
  unfold wordOfBytes
  apply BitVec.eq_of_getLsbD_eq
  intro i hi
  simp only [BitVec.getLsbD_append, BitVec.getLsbD_extractLsb']
  split_ifs <;>
    first
      | exact congrArg w.getLsbD (by omega)
      | (rw [decide_eq_true (by omega), Bool.true_and]; exact congrArg w.getLsbD (by omega))

/-- The decoder on the bytes of a word decides by the word and leaves the rest. -/
theorem decode_bytesOfWord (w : Word) (rest : List Byte) :
    decode (bytesOfWord w ++ rest) =
      (match decodeWord w with
        | .ok i => .ok (i, rest)
        | .error e => .error e) := by
  cases h : decodeWord w <;>
    simp only [bytesOfWord, List.cons_append, List.nil_append, decode, wordOfBytes_bytesOfWord, h]

/-- A word is its RSVD field over its OPCODE field (R80). -/
theorem word_eq_fields (w : Word) : w = rsvdField w ++ opcodeField w := by
  unfold rsvdField opcodeField
  change w = (BitVec.extractLsb' 8 24 w ++ BitVec.extractLsb' 0 8 w : BitVec (24 + 8))
  apply BitVec.eq_of_getLsbD_eq
  intro i hi
  simp only [BitVec.getLsbD_append, BitVec.getLsbD_extractLsb']
  split_ifs <;>
    first
      | exact congrArg w.getLsbD (by omega)
      | (rw [decide_eq_true (by omega), Bool.true_and]; exact congrArg w.getLsbD (by omega))

namespace Machine

/-! ## The register map (R22) -/

theorem ite_cases {α : Type} {c : Prop} [Decidable c] {a b t : α} (h : (if c then a else b) = t) :
    (c ∧ a = t) ∨ (¬ c ∧ b = t) := by
  by_cases hc : c
  · rw [if_pos hc] at h; exact .inl ⟨hc, h⟩
  · rw [if_neg hc] at h; exact .inr ⟨hc, h⟩

theorem targetOf_cmd {off : Nat} : targetOf off = .cmd ↔ off = 0 := by
  constructor
  · intro h
    unfold targetOf at h
    iterate 15 (rcases ite_cases h with ⟨hc, ht⟩ | ⟨hc, h⟩; · first | omega | cases ht)
    cases h
  · rintro rfl; rfl

theorem targetOf_id {off : Nat} : targetOf off = .id ↔ off = 0x1C := by
  constructor
  · intro h
    unfold targetOf at h
    iterate 15 (rcases ite_cases h with ⟨hc, ht⟩ | ⟨hc, h⟩; · first | omega | cases ht)
    cases h
  · rintro rfl; rfl

theorem targetOf_reserved {off : Nat} (h4 : off % 4 = 0) :
    targetOf off = .reserved ↔
      (0x20 ≤ off ∧ off < 0x40 ∨ 0x7C ≤ off ∧ off < 0x100 ∨ 0x180 ≤ off ∧ off < 0x200 ∨
        0x580 ≤ off ∧ off < 0x1000) := by
  constructor
  · intro h
    unfold targetOf at h
    iterate 15 (rcases ite_cases h with ⟨hc, ht⟩ | ⟨hc, h⟩; · first | (cases ht; done) | omega)
    cases h
  · intro h
    unfold targetOf
    rcases h with h | h | h | h <;>
    repeat (first | rw [if_neg (by omega)] | rw [if_pos (by omega)])

theorem targetOf_buffer {off : Nat} :
    targetOf off = .buffer ↔ (0x100 ≤ off ∧ off < 0x180 ∨ 0x200 ≤ off ∧ off < 0x580 ∨ 0x1000 ≤ off) := by
  constructor
  · intro h
    unfold targetOf at h
    iterate 15 (rcases ite_cases h with ⟨hc, ht⟩ | ⟨hc, h⟩; · first | (cases ht; done) | omega)
    omega
  · intro h
    unfold targetOf
    rcases h with h | h | h <;>
    repeat (first | rw [if_neg (by omega)] | rw [if_pos (by omega)])

theorem targetOf_slotLen (k : Slot) : targetOf (0x040 + 4 * k.val) = .slotLen k := by
  revert k; decide

theorem targetOf_slotLen_iff {off : Nat} (h4 : off % 4 = 0) {k : Slot} :
    targetOf off = .slotLen k ↔ off = 0x040 + 4 * k.val := by
  constructor
  · intro h
    unfold targetOf at h
    iterate 15 (rcases ite_cases h with ⟨hc, ht⟩ | ⟨hc, h⟩; · first | (cases ht; done) | (injection ht with ht; subst ht; simp [Fin.ofNat]; omega))
    cases h
  · rintro rfl; exact targetOf_slotLen k

/-! ## Where the bytes stand (R22, R30, R31) -/

theorem isResultByte_iff {a : Nat} : isResultByte a = true ↔ 0x100 ≤ a ∧ a < 0x180 := by
  simp [isResultByte]

theorem isSlotByte_iff {P : Params} {a : Nat} :
    isSlotByte P a = true ↔ 0x200 ≤ a ∧ a < 0x580 ∨ 0x1000 ≤ a ∧ a < 0x1000 + P.dataMax := by
  simp [isSlotByte]

/-- The character offsets of a slot, within its capacity, are slot bytes and operand bytes (R30, R31). -/
theorem slot_offset (P : Params) (k : Slot) {i : Nat} (h : i < cap P k) :
    isSlotByte P (slotBase k + i) = true ∧ isOperandByte P (slotBase k + i) = true := by
  by_cases hk : k = Slot.data
  · subst hk
    have h' : i < P.dataMax := h
    simp [isSlotByte, isOperandByte, slotBase, h']
  · have h64 : cap P k ≤ 64 := by
      revert hk; revert k; intro k _; fin_cases k <;> simp_all [cap]
    have hv : k.val < 14 := by
      have := k.isLt
      have : k.val ≠ 14 := fun h => hk (Fin.ext h)
      omega
    have hb : slotBase k = 0x200 + 0x40 * k.val := by simp [slotBase, hk]
    have h1 : (slotBase k + i - 0x200) % 0x40 = i := by rw [hb]; omega
    have h2 : Fin.ofNat 15 ((slotBase k + i - 0x200) / 0x40) = k := by
      apply Fin.ext; simp [Fin.ofNat]; rw [hb]; omega
    constructor
    · rw [isSlotByte_iff]; left; rw [hb]; omega
    · unfold isOperandByte
      rw [h1, h2, hb]
      simp only [Bool.or_eq_true, Bool.and_eq_true, decide_eq_true_eq]
      left; omega

/-- RESULT and slot data are apart. -/
theorem isSlotByte_of_isResultByte {P : Params} {a : Nat} (h : isResultByte a = true) : isSlotByte P a = false := by
  rw [isResultByte_iff] at h
  cases hs : isSlotByte P a with
  | false => rfl
  | true => rw [isSlotByte_iff] at hs; omega

theorem resultByte_of_lt {k : Nat} (h : k < 128) : isResultByte (0x100 + k) = true := isResultByte_iff.2 (by omega)

/-! ## A host access (R62, R63, R65) -/

theorem accepted_iff {a : Access} : a.accepted = true ↔ a.width = 4 ∧ a.offset.toNat % 4 = 0 := by
  simp [Access.accepted]

theorem Memory.read_hostWrite_other (P : Params) (m : Memory) {a x : Nat} (b : Byte) (h : x ≠ a) :
    Memory.read (m.hostWrite P a b) x = Memory.read m x := by
  unfold Memory.hostWrite; split
  · exact Memory.read_write_other m b h
  · rfl

theorem Memory.read_hostWrite_noslot (P : Params) (m : Memory) (a : Nat) {x : Nat} (b : Byte)
    (h : isSlotByte P x = false) : Memory.read (m.hostWrite P a b) x = Memory.read m x := by
  unfold Memory.hostWrite; split
  · rename_i ha
    exact Memory.read_write_other m b (by rintro rfl; simp [ha] at h)
  · rfl

theorem Memory.read_hostWrite_same {P : Params} {m : Memory} (hm : m.wf) {a : Nat} (b : Byte)
    (h : isSlotByte P a = true) : Memory.read (m.hostWrite P a b) a = b := by
  unfold Memory.hostWrite; rw [if_pos h]; exact Memory.read_write_same hm a b

theorem Memory.mem_hostWrite {P : Params} {m : Memory} {a : Nat} {b : Byte} {c : Host.Cell} (h : c ∈ m.hostWrite P a b) :
    c ∈ m ∨ isSlotByte P c.1 = true := by
  unfold Memory.hostWrite at h
  split at h
  · rename_i ha
    rcases Memory.mem_write h with h | h
    · right; rw [h]; exact ha
    · exact .inl h
  · exact .inl h

/-- The memory after the four byte writes of one bus word. -/
theorem State.writeBuffer_wf (P : Params) {s : State} (hm : s.mem.wf) (a : Nat) (v : Word) : (s.writeBuffer P a v).mem.wf :=
  Memory.wf_hostWrite P (Memory.wf_hostWrite P (Memory.wf_hostWrite P (Memory.wf_hostWrite P hm _ _) _ _) _ _) _ _

theorem State.writeBuffer_noslot (P : Params) (s : State) (a : Nat) (v : Word) {x : Nat} (h : isSlotByte P x = false) :
    Memory.read (s.writeBuffer P a v).mem x = Memory.read s.mem x := by
  simp only [State.writeBuffer, Memory.read_hostWrite_noslot P _ _ _ h]

/-- What an accepted write can do: issue or overrun at CMD, store in one register, store in slot data, or nothing. -/
theorem State.writeWord_cases (P : Params) (s : State) (off : Nat) (v : Word) :
    (off = 0 ∧ s.writeWord P off v = s.writeCmd P v) ∨
    (off = 0x008 ∧ s.writeWord P off v = { s with param0 := v }) ∨
    (off = 0x00C ∧ s.writeWord P off v = { s with param1 := v }) ∨
    (off = 0x010 ∧ s.writeWord P off v = { s with param2 := v }) ∨
    (∃ k : Slot, targetOf off = .slotLen k ∧
      s.writeWord P off v = { s with slotLen := s.slotLen.set k.val v k.isLt }) ∨
    (targetOf off = .buffer ∧ s.writeWord P off v = s.writeBuffer P off v) ∨
    s.writeWord P off v = s := by
  cases ht : targetOf off with
  | cmd => left; exact ⟨targetOf_cmd.1 ht, by simp only [State.writeWord, ht]⟩
  | param0 =>
    right; left; refine ⟨?_, by simp only [State.writeWord, ht]⟩
    unfold targetOf at ht
    iterate 15 (rcases ite_cases ht with ⟨hc, h⟩ | ⟨hc, ht⟩; · first | omega | cases h)
    cases ht
  | param1 =>
    right; right; left; refine ⟨?_, by simp only [State.writeWord, ht]⟩
    unfold targetOf at ht
    iterate 15 (rcases ite_cases ht with ⟨hc, h⟩ | ⟨hc, ht⟩; · first | omega | cases h)
    cases ht
  | param2 =>
    right; right; right; left; refine ⟨?_, by simp only [State.writeWord, ht]⟩
    unfold targetOf at ht
    iterate 15 (rcases ite_cases ht with ⟨hc, h⟩ | ⟨hc, ht⟩; · first | omega | cases h)
    cases ht
  | slotLen k => right; right; right; right; left; exact ⟨k, rfl, by simp only [State.writeWord, ht]⟩
  | buffer => right; right; right; right; right; left; exact ⟨rfl, by simp only [State.writeWord, ht]⟩
  | _ => right; right; right; right; right; right; simp only [State.writeWord, ht]

/-- What one host access can do. -/
theorem State.access_cases (P : Params) (s : State) (a : Access) :
    (a.accepted = false ∧ State.access P s a = s.respond (.busError 0#32)) ∨
    (a.accepted = true ∧ a.kind = .read ∧
      State.access P s a = s.respond (.data (s.readWord P a.offset.toNat))) ∨
    ∃ v, a.accepted = true ∧ a.kind = .write v ∧
      State.access P s a = (s.writeWord P a.offset.toNat v).respond .written := by
  unfold State.access
  cases ha : a.accepted with
  | false => left; simp
  | true =>
    right
    cases hk : a.kind with
    | read => left; simp
    | write v => right; exact ⟨v, rfl, rfl, by simp⟩

/-- An access of the host leaves RESULT, the draws and the events alone, and the command in flight: it sets at most
OVERRUN while BUSY = 1 (R70, R73, R274). -/
theorem State.access_frame (P : Params) (s : State) (a : Access) :
    let t := State.access P s a
    t.resultLen = s.resultLen ∧ t.resultAux = s.resultAux ∧ t.draws = s.draws ∧ t.events = s.events ∧
      (∀ x, isSlotByte P x = false → Memory.read t.mem x = Memory.read s.mem x) ∧
      (s.mem.wf → t.mem.wf) ∧
      (s.status.busy = true → t.snap = s.snap ∧ t.cmd = s.cmd ∧
        (t.status = s.status ∨ t.status = { s.status with overrun := true })) := by
  intro t
  have hw : ∀ u : State, ∀ r, t = u.respond r →
      (u.resultLen = s.resultLen ∧ u.resultAux = s.resultAux ∧ u.draws = s.draws ∧ u.events = s.events ∧
      (∀ x, isSlotByte P x = false → Memory.read u.mem x = Memory.read s.mem x) ∧
      (s.mem.wf → u.mem.wf) ∧
      (s.status.busy = true → u.snap = s.snap ∧ u.cmd = s.cmd ∧
        (u.status = s.status ∨ u.status = { s.status with overrun := true }))) →
      t.resultLen = s.resultLen ∧ t.resultAux = s.resultAux ∧ t.draws = s.draws ∧ t.events = s.events ∧
      (∀ x, isSlotByte P x = false → Memory.read t.mem x = Memory.read s.mem x) ∧
      (s.mem.wf → t.mem.wf) ∧
      (s.status.busy = true → t.snap = s.snap ∧ t.cmd = s.cmd ∧
        (t.status = s.status ∨ t.status = { s.status with overrun := true })) := by
    rintro u r hu h; rw [hu]; exact h
  have hself : s.resultLen = s.resultLen ∧ s.resultAux = s.resultAux ∧ s.draws = s.draws ∧ s.events = s.events ∧
      (∀ x, isSlotByte P x = false → Memory.read s.mem x = Memory.read s.mem x) ∧
      (s.mem.wf → s.mem.wf) ∧
      (s.status.busy = true → s.snap = s.snap ∧ s.cmd = s.cmd ∧
        (s.status = s.status ∨ s.status = { s.status with overrun := true })) :=
    ⟨rfl, rfl, rfl, rfl, fun _ _ => rfl, id, fun _ => ⟨rfl, rfl, .inl rfl⟩⟩
  rcases State.access_cases P s a with ⟨-, h⟩ | ⟨-, -, h⟩ | ⟨v, -, -, h⟩
  · exact hw _ _ h hself
  · exact hw _ _ h hself
  · refine hw _ _ h ?_
    rcases State.writeWord_cases P s a.offset.toNat v with ⟨-, e⟩ | ⟨-, e⟩ | ⟨-, e⟩ | ⟨-, e⟩ | ⟨k, -, e⟩ | ⟨-, e⟩ | e <;>
      rw [e]
    · unfold State.writeCmd
      split
      · exact ⟨rfl, rfl, rfl, rfl, fun _ _ => rfl, id, fun _ => ⟨rfl, rfl, .inr rfl⟩⟩
      · rename_i hb
        exact ⟨rfl, rfl, rfl, rfl, fun _ _ => rfl, id, fun h => absurd h hb⟩
    · exact hself
    · exact hself
    · exact hself
    · exact hself
    · exact ⟨rfl, rfl, rfl, rfl, fun _ h => State.writeBuffer_noslot P s _ v h, fun hm => State.writeBuffer_wf P hm _ v,
        fun _ => ⟨rfl, rfl, .inl rfl⟩⟩
    · exact hself

/-- An access that is no accepted CMD write changes no field of STATUS but OVERRUN: it is a bus error, a read or a write
of another offset, or a command is in flight (R24, R270, R274). -/
theorem State.access_status (P : Params) (s : State) (a : Access)
    (h : s.status.busy = true ∨ ∀ w, a ≠ wr 0x000#16 w) :
    (State.access P s a).status = { s.status with overrun := (State.access P s a).status.overrun } := by
  rcases h with h | h
  · rcases (State.access_frame P s a).2.2.2.2.2.2 h with ⟨-, -, e | e⟩ <;> rw [e]
  · rcases State.access_cases P s a with ⟨-, e⟩ | ⟨-, -, e⟩ | ⟨v, hk, ha, e⟩
    · rw [e]; rfl
    · rw [e]; rfl
    · rw [e]
      show (s.writeWord P a.offset.toNat v).status = { s.status with overrun := (s.writeWord P a.offset.toNat v).status.overrun }
      rcases State.writeWord_cases P s a.offset.toNat v with ⟨h0, e⟩ | ⟨-, e⟩ | ⟨-, e⟩ | ⟨-, e⟩ | ⟨k, -, e⟩ | ⟨-, e⟩ | e
      · obtain ⟨width, off, kind⟩ := a
        simp only [Access.accepted, Bool.and_eq_true, decide_eq_true_eq] at hk ha h0
        obtain rfl : off = 0x000#16 := BitVec.eq_of_toNat_eq h0
        exact (h v (by rw [hk.1, ha]; rfl)).elim
      all_goals rw [e]
      exact rfl

/-- SLOT_LEN after one of its registers is written (R33). -/
theorem slotLen_get_set (x : Vector Word 15) (k j : Slot) (v : Word) :
    (x.set k.val v k.isLt).get j = if k = j then v else x.get j := by
  show (x.set k.val v k.isLt)[j.val] = if k = j then v else x[j.val]
  rw [Vector.getElem_set]
  by_cases h : k = j
  · subst h; simp
  · rw [if_neg h, if_neg fun e => h (Fin.ext e)]

/-! ## The engine's turn and a step (R272, R273) -/

theorem fetch_eq_some {s : State} {w : Word} :
    s.fetch = some w ↔ s.status.busy = true ∧ ∃ n, s.snap = some n ∧ n.word = w := by
  unfold State.fetch; split <;> simp_all

theorem engineTurn_ok {s : State} {w : Word} {i : Instr} (h : s.fetch = some w) (hd : decodeWord w = .ok i) :
    engineTurn s = exec i s := by
  have := decode_bytesOfWord w []
  rw [List.append_nil, hd] at this
  simp [engineTurn, (fetch_eq_some.1 h).1, h, this]

theorem engineTurn_error {s : State} {w : Word} {e : DecodeError} (h : s.fetch = some w)
    (hd : decodeWord w = .error e) : engineTurn s = execIllegal s := by
  have := decode_bytesOfWord w []
  rw [List.append_nil, hd] at this
  simp [engineTurn, (fetch_eq_some.1 h).1, h, this]

/-- An illegal command in flight always completes with its error (R278). -/
theorem execIllegal_of_snap {s : State} {n : Snap} (h : s.snap = some n) :
    execIllegal s = .next (s.completeErr .illegalCommand) := command_of_snap h

/-- What a next state of the engine's turn is: nothing happened, or the command in flight completed. -/
theorem engineTurn_next {s t : State} (h : engineTurn s = .next t) :
    (s.status.busy = false ∧ t = s) ∨
    (s.status.busy = true ∧ ∃ n, s.snap = some n ∧
      ((∃ i, decodeWord n.word = .ok i ∧
          t = (completionBase i s).complete (ruleOf Config.params i s.draws n)) ∨
        ((∃ e, decodeWord n.word = .error e) ∧ t = s.completeErr .illegalCommand))) := by
  cases hb : s.status.busy with
  | false =>
    left
    unfold engineTurn at h
    rw [hb] at h
    simp only [Bool.false_eq_true, if_false] at h
    cases h
    exact ⟨rfl, rfl⟩
  | true =>
    right
    cases hn : s.snap with
    | none => simp [engineTurn, hb, State.fetch, hn] at h
    | some n =>
      refine ⟨rfl, n, rfl, ?_⟩
      have hf : s.fetch = some n.word := fetch_eq_some.2 ⟨hb, n, hn, rfl⟩
      cases hd : decodeWord n.word with
      | ok i =>
        left
        rw [engineTurn_ok hf hd] at h
        obtain ⟨m, hm, rfl⟩ := exec_next h
        rw [hn] at hm; cases hm
        exact ⟨i, rfl, rfl⟩
      | error e =>
        right
        rw [engineTurn_error hf hd, execIllegal_of_snap hn] at h
        cases h
        exact ⟨⟨e, rfl⟩, rfl⟩

/-- What a next state of a step is, the event taken from the list. -/
theorem step_next {s t : State} (h : step s = .next t) :
    (s.events = [] ∧ engineTurn s = .next t) ∨
    (∃ rest, s.events = .engine :: rest ∧ engineTurn { s with events := rest } = .next t) ∨
    (∃ a rest, s.events = .access a :: rest ∧ t = State.access Config.params { s with events := rest } a) ∨
    (∃ rest, s.events = .reset :: rest ∧ t = State.resetBlock { s with events := rest }) := by
  unfold step at h
  split at h
  · exact .inl ⟨‹_›, h⟩
  · exact .inr (.inl ⟨_, ‹_›, h⟩)
  · cases h; exact .inr (.inr (.inl ⟨_, _, ‹_›, rfl⟩))
  · cases h; exact .inr (.inr (.inr ⟨_, ‹_›, rfl⟩))

/-- Running on from a step's next state. -/
theorem core_run_step {M : Host.Core} {k : Nat} {s t : M.State} (h : M.step s = .next t) :
    M.run (k + 1) s = M.run k t := by
  rw [Host.Core.run]; simp [h]

theorem run_next {k : Nat} {s t : State} (h : step s = .next t) : core.run (k + 1) s = core.run k t :=
  core_run_step (M := core) h

theorem slotLen_reset (k : Slot) : State.reset.slotLen.get k = 0#32 := by
  show (Vector.replicate 15 0#32).get k = 0#32
  revert k; decide

end Machine

end Sys2Proof
end

