-- ==== Sys2Proof/Laws/PerInstr.lean ====
section
/-! SUPPORT. Statements made for each command of `Instr`, one lemma per constructor. -/

namespace Sys2Proof.Laws.UnitNibble

/-- The unit of R83 that implements a command: its number is the upper nibble of the OPCODE value. -/
def unit : Instr → Nat
  | .nop | .zeroize => 0
  | .pinEncF0 | .pinEncF1 | .pinEncF2 | .pinEncF3 | .pinEncF4 | .pinDecF0 | .pinDecF1 | .pinDecF2
  | .pinDecF3 | .pinDecF4 => 1
  | .dukptIpek | .dukptTk | .dukptTkIpek | .dukptWk | .dukptKsnInc | .dukptAesIk | .dukptAesWk
  | .dukptAesKsnInc => 2
  | .macAlg1 | .macAlg2 | .macAlg3 | .macX99 | .macX919 | .macRetail | .macTdesCbc | .macAs2805
  | .macCmacAes | .macCmacTdes => 3
  | .cvvGen | .cvvGenAtc | .cvvVerify | .cvvVerifyAtc | .cscV1 | .cscV2 | .cvc3Gen | .pvvGen | .pvvPin
  | .ibmOffset | .ibmOffsetMask | .ibmPin | .ibmPinMask => 4

/-- R80, R83: the command's word has RSVD zero, its OPCODE's upper nibble is the unit's number, and the bytes of the word
decode back to the command. -/
def Statement (i : Instr) : Prop :=
  (encodeWord i).toNat / 256 = 0 ∧ (encodeWord i).toNat / 16 = unit i ∧ decode (encode i) = .ok (i, [])

theorem nop : Statement .nop := by unfold Statement; decide
theorem zeroize : Statement .zeroize := by unfold Statement; decide
theorem pinEncF0 : Statement .pinEncF0 := by unfold Statement; decide
theorem pinEncF1 : Statement .pinEncF1 := by unfold Statement; decide
theorem pinEncF2 : Statement .pinEncF2 := by unfold Statement; decide
theorem pinEncF3 : Statement .pinEncF3 := by unfold Statement; decide
theorem pinEncF4 : Statement .pinEncF4 := by unfold Statement; decide
theorem pinDecF0 : Statement .pinDecF0 := by unfold Statement; decide
theorem pinDecF1 : Statement .pinDecF1 := by unfold Statement; decide
theorem pinDecF2 : Statement .pinDecF2 := by unfold Statement; decide
theorem pinDecF3 : Statement .pinDecF3 := by unfold Statement; decide
theorem pinDecF4 : Statement .pinDecF4 := by unfold Statement; decide
theorem dukptIpek : Statement .dukptIpek := by unfold Statement; decide
theorem dukptTk : Statement .dukptTk := by unfold Statement; decide
theorem dukptTkIpek : Statement .dukptTkIpek := by unfold Statement; decide
theorem dukptWk : Statement .dukptWk := by unfold Statement; decide
theorem dukptKsnInc : Statement .dukptKsnInc := by unfold Statement; decide
theorem dukptAesIk : Statement .dukptAesIk := by unfold Statement; decide
theorem dukptAesWk : Statement .dukptAesWk := by unfold Statement; decide
theorem dukptAesKsnInc : Statement .dukptAesKsnInc := by unfold Statement; decide
theorem macAlg1 : Statement .macAlg1 := by unfold Statement; decide
theorem macAlg2 : Statement .macAlg2 := by unfold Statement; decide
theorem macAlg3 : Statement .macAlg3 := by unfold Statement; decide
theorem macX99 : Statement .macX99 := by unfold Statement; decide
theorem macX919 : Statement .macX919 := by unfold Statement; decide
theorem macRetail : Statement .macRetail := by unfold Statement; decide
theorem macTdesCbc : Statement .macTdesCbc := by unfold Statement; decide
theorem macAs2805 : Statement .macAs2805 := by unfold Statement; decide
theorem macCmacAes : Statement .macCmacAes := by unfold Statement; decide
theorem macCmacTdes : Statement .macCmacTdes := by unfold Statement; decide
theorem cvvGen : Statement .cvvGen := by unfold Statement; decide
theorem cvvGenAtc : Statement .cvvGenAtc := by unfold Statement; decide
theorem cvvVerify : Statement .cvvVerify := by unfold Statement; decide
theorem cvvVerifyAtc : Statement .cvvVerifyAtc := by unfold Statement; decide
theorem cscV1 : Statement .cscV1 := by unfold Statement; decide
theorem cscV2 : Statement .cscV2 := by unfold Statement; decide
theorem cvc3Gen : Statement .cvc3Gen := by unfold Statement; decide
theorem pvvGen : Statement .pvvGen := by unfold Statement; decide
theorem pvvPin : Statement .pvvPin := by unfold Statement; decide
theorem ibmOffset : Statement .ibmOffset := by unfold Statement; decide
theorem ibmOffsetMask : Statement .ibmOffsetMask := by unfold Statement; decide
theorem ibmPin : Statement .ibmPin := by unfold Statement; decide
theorem ibmPinMask : Statement .ibmPinMask := by unfold Statement; decide

end Sys2Proof.Laws.UnitNibble
end

