-- ==== Sys2Proof/Laws/Results.lean ====
section
/-! SUPPORT. What every command's result is (R29, R272): at most 64 upper-case hex or decimal characters; and which
commands set MATCH or draw. -/

namespace Sys2Proof.Machine

/-- A string RESULT can hold (R29, R272). -/
def Showable (r : Chars) : Prop := r.length ≤ 64 ∧ ∀ c ∈ r, isHex c = true

theorem showable_nil : Showable [] := ⟨by simp, by simp⟩

theorem showable_hex {bs : Bytes} (h : bs.length ≤ 32) : Showable (hex bs) :=
  ⟨by rw [hex_length]; omega, fun _ hc => isHex_of_mem_hex hc⟩

theorem showable_hexBits {w : Nat} (x : BitVec w) (h : w ≤ 256) : Showable (hexBits x) :=
  showable_hex (by rw [ofBits_length]; omega)

theorem showable_truncated {w : Nat} (x : BitVec w) (t : Nat) (h : w ≤ 256) : Showable (truncated x t) :=
  showable_hex (by rw [List.length_take, ofBits_length]; omega)

theorem showable_of_dec {r : Chars} (hl : r.length ≤ 64) (h : ∀ c ∈ r, isDec c = true) : Showable r :=
  ⟨hl, fun c hc => isHex_of_isDec (h c hc)⟩

theorem showable_cardCode (P : Params) {k : Nat} (h : k ≤ 64) (i : Bytes × Chars) : Showable (cardCode P k i) :=
  showable_of_dec (by rw [cardCode_length]; exact h) fun _ hc => isDec_of_mem_digitsOf hc

theorem showable_addDigits {a b : Chars} (h : a.length ≤ 64 ∨ b.length ≤ 64) : Showable (addDigits a b) :=
  showable_of_dec (by rw [addDigits_length]; omega) fun _ hc => isDec_of_mem_addDigits hc

theorem showable_subDigits {a b : Chars} (h : a.length ≤ 64 ∨ b.length ≤ 64) : Showable (subDigits a b) :=
  showable_of_dec (by rw [subDigits_length]; omega) fun _ hc => isDec_of_mem_subDigits hc

theorem isHex_hexchar_val_xor {x y : Byte} (hx : isHex x = true) (hy : isHex y = true) :
    isHex (hexchar (val x ^^^ val y)) = true :=
  isHex_hexchar (Nat.xor_lt_two_pow (n := 4) (val_lt hx) (val_lt hy))

theorem pf16_isHex {f : Nat} {pin pad : Chars} (hf : f < 16) (hl : pin.length < 16) (hp : ∀ c ∈ pin, isDec c = true)
    (hq : ∀ c ∈ pad, isHex c = true) : ∀ c ∈ pf16 f pin pad, isHex c = true := by
  intro c hc
  simp only [pf16, List.mem_cons, List.mem_append] at hc
  rcases hc with rfl | rfl | h | h
  · exact isHex_hexchar hf
  · exact isHex_hexchar hl
  · exact isHex_of_isDec (hp c h)
  · exact hq c h

theorem pf32_isHex {pin : Chars} (hl : pin.length < 16) (hp : ∀ c ∈ pin, isDec c = true) :
    ∀ c ∈ pf32 pin, isHex c = true := by
  intro c hc
  simp only [pf32, List.mem_cons, List.mem_append, List.mem_replicate] at hc
  rcases hc with rfl | rfl | rfl | h | ⟨-, rfl⟩
  · exact isHex_hexchar (by decide)
  · exact isHex_hexchar (by omega)
  · exact isHex_hexchar (by omega)
  · exact isHex_of_isDec (hp c h)
  · exact isHex_hexchar (by decide)

theorem isDec_zero : isDec (dchar 0) = true := by decide

theorem panF16_isHex {pan : Chars} (hp : ∀ c ∈ pan, isDec c = true) : ∀ c ∈ panF16 pan, isHex c = true := by
  intro c hc
  simp only [panF16, pan12, List.mem_append, List.mem_replicate] at hc
  rcases hc with ⟨-, rfl⟩ | h
  · exact isHex_of_isDec isDec_zero
  · exact isHex_of_isDec (hp c (List.mem_of_mem_drop (List.mem_of_mem_take h)))

theorem panF32_isHex {pan : Chars} (hp : ∀ c ∈ pan, isDec c = true) : ∀ c ∈ panF32 pan, isHex c = true := by
  intro c hc
  rw [panF32, List.mem_append, List.mem_replicate] at hc
  rcases hc with h | ⟨-, rfl⟩
  · exact panF16_isHex hp c h
  · exact isHex_hexchar (by decide)

theorem padF_isHex (l : Nat) : ∀ c ∈ padF l, isHex c = true := by
  intro c hc
  rw [padF, List.mem_replicate] at hc
  rw [hc.2]; exact isHex_hexchar (by decide)

theorem padDraws_isHex (P : Params) (d k : Nat) : ∀ c ∈ padDraws P d k, isHex c = true := by
  intro c hc
  simp only [padDraws, List.mem_map, List.mem_range] at hc
  obtain ⟨i, -, rfl⟩ := hc
  exact isHex_hexchar (P.rng (d + i)).isLt

@[simp] theorem padF_length (l : Nat) : (padF l).length = 14 - l := by simp [padF]

@[simp] theorem padDraws_length (P : Params) (d k : Nat) : (padDraws P d k).length = k := by simp [padDraws]

@[simp] theorem pf16_length (f : Nat) (pin pad : Chars) : (pf16 f pin pad).length = 2 + (pin.length + pad.length) := by
  simp [pf16]; omega

@[simp] theorem pf32_length {pin : Chars} (h : pin.length ≤ 29) : (pf32 pin).length = 32 := by simp [pf32]; omega

theorem pan12_length {pan : Chars} (h : 13 ≤ pan.length) : (pan12 pan).length = 12 := by simp [pan12]; omega

theorem panF16_length {pan : Chars} (h : 13 ≤ pan.length) : (panF16 pan).length = 16 := by simp [panF16, pan12_length h]

theorem panF32_length {pan : Chars} (h : 13 ≤ pan.length) : (panF32 pan).length = 32 := by
  simp [panF32, panF16_length h]

theorem showable_xorHex {a b : Chars} (hl : a.length ≤ 64) (ha : ∀ c ∈ a, isHex c = true) (hb : ∀ c ∈ b, isHex c = true) :
    Showable (xorHex a b) :=
  ⟨by rw [xorHex_length]; omega, isHex_of_mem_xorHex ha hb⟩

theorem pinChk_ok_iff {P : Params} {n : Snap} {pin : Chars} :
    pinChk P n = .ok pin ↔
      slot P n Slot.pin = some pin ∧ (4 ≤ pin.length ∧ pin.length ≤ 12) ∧ ∀ c ∈ pin, isDec c = true := by
  simp [pinChk]

theorem panChk_ok_iff {P : Params} {n : Snap} {pan : Chars} :
    panChk P n = .ok pan ↔
      slot P n Slot.pan = some pan ∧ (13 ≤ pan.length ∧ pan.length ≤ 19) ∧ ∀ c ∈ pan, isDec c = true := by
  simp [panChk]

theorem showable_openField {f tag l start : Nat} {p : Chars} {a : Answer} (h : openField f tag l start p = .ok a) :
    Showable a.result := by
  obtain ⟨-, -, h2, h3, rfl⟩ := openField_ok_iff.1 h
  exact showable_of_dec (by simp; omega) h3

theorem keylen_le (t : KeyType) : t.keylen ≤ 32 := by cases t <;> decide

theorem vdParams_length_le {n : Snap} (h : LegalVdParams n) (nat : Chars) : (vdParams n nat).length ≤ 64 := by
  obtain ⟨h1, h2, h3, h4, h5, h6, -⟩ := h
  simp [vdParams]; omega

/-- R29, R272: every result is at most 64 upper-case hex or decimal characters. -/
theorem ruleOf_showable {P : Params} {i : Instr} {d : Nat} {n : Snap} {a : Answer} (h : ruleOf P i d n = .ok a) :
    Showable a.result := by
  cases i
  case nop => cases h; exact showable_nil
  case zeroize => cases h; exact showable_nil
  case pinEncF0 =>
    simp only [ruleOf, pinEncF0, bind_ok_iff, pinChk_ok_iff, panChk_ok_iff, pure_eq_ok, Except.ok.injEq] at h
    obtain ⟨pin, ⟨-, h1, h2⟩, pan, ⟨-, h3, h4⟩, rfl⟩ := h
    exact showable_xorHex (by simp; omega) (pf16_isHex (by decide) (by omega) h2 (padF_isHex _)) (panF16_isHex h4)
  case pinEncF1 =>
    simp only [ruleOf, pinEncF1, bind_ok_iff, pinChk_ok_iff, pure_eq_ok, Except.ok.injEq] at h
    obtain ⟨pin, ⟨-, h1, h2⟩, rfl⟩ := h
    exact ⟨by simp; omega, pf16_isHex (by decide) (by omega) h2 (padDraws_isHex _ _ _)⟩
  case pinEncF2 =>
    simp only [ruleOf, pinEncF2, bind_ok_iff, pinChk_ok_iff, panChk_ok_iff, pure_eq_ok, Except.ok.injEq] at h
    obtain ⟨pin, ⟨-, h1, h2⟩, pan, ⟨-, h3, h4⟩, rfl⟩ := h
    exact showable_xorHex (by simp; omega) (pf16_isHex (by decide) (by omega) h2 (padF_isHex _)) (panF16_isHex h4)
  case pinEncF3 =>
    simp only [ruleOf, pinEncF3, bind_ok_iff, pinChk_ok_iff, panChk_ok_iff, pure_eq_ok, Except.ok.injEq] at h
    obtain ⟨pin, ⟨-, h1, h2⟩, pan, ⟨-, h3, h4⟩, rfl⟩ := h
    exact showable_xorHex (by simp; omega) (pf16_isHex (by decide) (by omega) h2 (padDraws_isHex _ _ _))
      (panF16_isHex h4)
  case pinEncF4 =>
    simp only [ruleOf, pinEncF4, bind_ok_iff, pinChk_ok_iff, panChk_ok_iff, pure_eq_ok, Except.ok.injEq] at h
    obtain ⟨pin, ⟨-, h1, h2⟩, pan, ⟨-, h3, h4⟩, rfl⟩ := h
    exact showable_xorHex (by rw [pf32_length (by omega)]; decide) (pf32_isHex (by omega) h2) (panF32_isHex h4)
  case pinDecF0 | pinDecF2 | pinDecF3 =>
    simp only [ruleOf, pinDecF0, pinDecF2, pinDecF3, bind_ok_iff, open16] at h
    obtain ⟨_, -, _, -, h⟩ := h
    exact showable_openField h
  case pinDecF1 =>
    simp only [ruleOf, pinDecF1, bind_ok_iff, open16] at h
    obtain ⟨_, -, h⟩ := h
    exact showable_openField h
  case pinDecF4 =>
    simp only [ruleOf, pinDecF4, bind_ok_iff, open32] at h
    obtain ⟨_, -, _, -, h⟩ := h
    exact showable_openField h
  case dukptIpek | dukptTk | dukptTkIpek =>
    simp only [ruleOf, dukptIpek, dukptTk, dukptTkIpek, bind_ok_iff, pure_eq_ok, Except.ok.injEq] at h
    obtain ⟨_, -, _, -, rfl⟩ := h
    exact showable_hexBits _ (by decide)
  case dukptWk =>
    simp only [ruleOf, dukptWk, bind_ok_iff, pure_eq_ok, Except.ok.injEq] at h
    obtain ⟨_, -, _, -, _, -, rfl⟩ := h
    exact showable_hexBits _ (by decide)
  case dukptKsnInc | dukptAesKsnInc =>
    simp only [ruleOf, dukptKsnInc, dukptAesKsnInc, bind_ok_iff, ksnIncrement_ok_iff] at h
    obtain ⟨_, -, -, rfl⟩ := h
    exact showable_hexBits _ (by decide)
  case dukptAesIk =>
    simp only [ruleOf, dukptAesIk, bind_ok_iff, pure_eq_ok, Except.ok.injEq] at h
    obtain ⟨t, -, _, -, _, -, rfl⟩ := h
    exact showable_hex (by simp [keylen_le])
  case dukptAesWk =>
    simp only [ruleOf, dukptAesWk, bind_ok_iff, pure_eq_ok, Except.ok.injEq] at h
    obtain ⟨_, -, _, -, _, -, _, -, w, -, rfl⟩ := h
    exact showable_hex (by simp [keylen_le])
  case macAlg1 | macAlg2 | macAlg3 | macX99 | macX919 | macRetail | macTdesCbc | macAs2805 =>
    simp only [ruleOf, desMac_ok_iff] at h
    obtain ⟨_, -, rfl⟩ := h
    exact showable_truncated _ _ (by decide)
  case macCmacAes | macCmacTdes =>
    simp only [ruleOf, cmacCommand_ok_iff] at h
    obtain ⟨_, _, -, -, -, -, -, -, -, -, -, rfl⟩ := h
    exact showable_truncated _ _ (by decide)
  case cvvGen | cvvGenAtc | cscV1 | cscV2 =>
    simp only [ruleOf, cvvGen, cvvGenAtc, cscV1, cscV2, bind_ok_iff, pure_eq_ok, Except.ok.injEq] at h
    obtain ⟨_, -, rfl⟩ := h
    exact showable_cardCode _ (by decide) _
  case cvvVerify | cvvVerifyAtc =>
    simp only [ruleOf, cvvVerify, cvvVerifyAtc, bind_ok_iff, pure_eq_ok, Except.ok.injEq] at h
    obtain ⟨_, -, _, -, rfl⟩ := h
    exact showable_nil
  case cvc3Gen =>
    simp only [ruleOf, cvc3Gen, bind_ok_iff, pure_eq_ok, Except.ok.injEq] at h
    obtain ⟨_, -, _, -, _, -, _, -, _, -, _, -, rfl⟩ := h
    exact showable_cardCode _ (by decide) _
  case pvvGen =>
    simp only [ruleOf, pvvGen, bind_ok_iff, pure_eq_ok, Except.ok.injEq] at h
    obtain ⟨_, -, _, -, _, -, _, -, _, -, rfl⟩ := h
    exact showable_addDigits (.inr (by simp [tsp]))
  case pvvPin =>
    simp only [ruleOf, pvvPin, bind_ok_iff, pure_eq_ok, Except.ok.injEq] at h
    obtain ⟨_, -, _, -, _, -, _, -, _, -, rfl⟩ := h
    exact showable_subDigits (.inr (by simp [tsp]))
  case ibmOffset =>
    simp only [ruleOf, ibmOffset, bind_ok_iff, pure_eq_ok, Except.ok.injEq, vdParamsChk_ok_iff] at h
    obtain ⟨_, -, _, -, _, -, _, hv, _, -, rfl⟩ := h
    exact showable_subDigits (.inr (vdParams_length_le hv _))
  case ibmOffsetMask =>
    simp only [ruleOf, ibmOffsetMask, bind_ok_iff, pure_eq_ok, Except.ok.injEq, maskChk_ok_iff] at h
    obtain ⟨_, -, _, -, _, -, m, hm, _, -, rfl⟩ := h
    exact showable_subDigits (.inr (by simp [vdMask]))
  case ibmPin =>
    simp only [ruleOf, ibmPin, bind_ok_iff, pure_eq_ok, Except.ok.injEq, vdParamsChk_ok_iff] at h
    obtain ⟨_, -, _, -, _, -, _, hv, _, -, rfl⟩ := h
    exact showable_addDigits (.inl (vdParams_length_le hv _))
  case ibmPinMask =>
    simp only [ruleOf, ibmPinMask, bind_ok_iff, pure_eq_ok, Except.ok.injEq, maskChk_ok_iff] at h
    obtain ⟨_, -, _, -, _, -, m, hm, _, -, rfl⟩ := h
    exact showable_addDigits (.inl (by simp [vdMask]))

/-- What a completion without error shows in RESULT (R29). -/
theorem resultString_completeOk {s : State} (hm : s.mem.wf) {a : Answer} (h : a.result.length ≤ 128) :
    resultString (s.completeOk a) = a.result := by
  have hl : (s.completeOk a).resultLen.toNat = a.result.length := by
    rw [State.completeOk_resultLen, BitVec.toNat_ofNat]; omega
  unfold resultString
  rw [hl, State.completeOk_mem]
  apply List.ext_getElem
  · simp
  · intro k h1 h2
    simp only [List.getElem_map, List.getElem_range]
    rw [Memory.read_setResult hm _ (by omega), List.getD_eq_getElem _ _ h2]

/-- What a completion without error shows in RESULT, byte by byte (R29). -/
theorem resultIs_completeOk {s : State} (hm : s.mem.wf) {a : Answer} (h : a.result.length ≤ 128) :
    ResultIs (s.completeOk a) a.result :=
  ⟨by rw [State.completeOk_resultLen, BitVec.toNat_ofNat]; omega, h,
    fun k hk => by rw [State.completeOk_mem, Memory.read_setResult hm _ hk]⟩

/-- MATCH comes of the two verify commands alone (R24, R272), and draws of the two encoders that draw (R104). -/
theorem ruleOf_matched_drawn {P : Params} {i : Instr} {d : Nat} {n : Snap} {a : Answer} (h : ruleOf P i d n = .ok a) :
    (a.matched = true → i = .cvvVerify ∨ i = .cvvVerifyAtc) ∧ (a.drawn = 0 ∨ i = .pinEncF1 ∨ i = .pinEncF3) := by
  cases i <;>
    simp only [ruleOf, pinEncF0, pinEncF1, pinEncF2, pinEncF3, pinEncF4, pinDecF0, pinDecF1, pinDecF2, pinDecF3, pinDecF4,
      open16, open32, openField, dukptIpek, dukptTk, dukptTkIpek, dukptWk, dukptKsnInc, dukptAesIk, dukptAesWk,
      dukptAesKsnInc, ksnIncrement, desMac, cmacCommand, cvvGen, cvvGenAtc, cvvVerify, cvvVerifyAtc, cscV1, cscV2, cvc3Gen,
      pvvGen, pvvPin, ibmOffset, ibmOffsetMask, ibmPin, ibmPinMask, bind_ok_iff, pure_eq_ok, Except.ok.injEq] at h <;>
    (repeat (obtain ⟨_, _, h⟩ := h)) <;>
    simp

/-- Pads of equal draws are equal (R104). -/
theorem padDraws_congr {P : Params} {d d' k : Nat} (h : ∀ j, j < k → P.rng (d + j) = P.rng (d' + j)) :
    padDraws P d k = padDraws P d' k := by
  unfold padDraws
  exact List.map_congr_left fun j hj => by rw [h j (List.mem_range.1 hj)]

/-- A rule depends on the draw counter only through the nibbles it draws (R279, R104). -/
theorem ruleOf_congr_draws {P : Params} {i : Instr} {d d' : Nat} {n : Snap}
    (h : ∀ a, ruleOf P i d n = .ok a → ∀ j, j < a.drawn → P.rng (d + j) = P.rng (d' + j)) :
    ruleOf P i d' n = ruleOf P i d n := by
  cases i
  case pinEncF1 =>
    simp only [ruleOf, pinEncF1] at h ⊢
    cases hp : pinChk P n with
    | error e => rfl
    | ok pin =>
      rw [hp] at h
      show Except.ok _ = Except.ok _
      rw [padDraws_congr (h _ rfl)]
  case pinEncF3 =>
    simp only [ruleOf, pinEncF3] at h ⊢
    cases hp : pinChk P n with
    | error e => rfl
    | ok pin =>
      cases hq : panChk P n with
      | error e => rfl
      | ok pan =>
        rw [hp, hq] at h
        show Except.ok _ = Except.ok _
        rw [padDraws_congr (h _ rfl)]
  all_goals rfl

/-- How many nibbles a rule draws does not depend on the draw counter (R104). -/
theorem ruleOf_drawn_congr (P : Params) (i : Instr) (d d' : Nat) (n : Snap) :
    (∀ e, ruleOf P i d n = .error e → ruleOf P i d' n = .error e) ∧
      ∀ a, ruleOf P i d n = .ok a → ∃ b, ruleOf P i d' n = .ok b ∧ b.drawn = a.drawn := by
  cases i
  case pinEncF1 =>
    simp only [ruleOf, pinEncF1]
    cases pinChk P n with
    | error e => exact ⟨fun _ h => h, fun _ h => (nomatch h)⟩
    | ok pin => exact ⟨fun _ h => (nomatch h), fun a h => ⟨_, rfl, by cases h; rfl⟩⟩
  case pinEncF3 =>
    simp only [ruleOf, pinEncF3]
    cases pinChk P n with
    | error e => exact ⟨fun _ h => h, fun _ h => (nomatch h)⟩
    | ok pin =>
      cases panChk P n with
      | error e => exact ⟨fun _ h => h, fun _ h => (nomatch h)⟩
      | ok pan => exact ⟨fun _ h => (nomatch h), fun a h => ⟨_, rfl, by cases h; rfl⟩⟩
  all_goals exact ⟨fun _ h => h, fun a h => ⟨a, h, rfl⟩⟩

end Sys2Proof.Machine
end

