-- ==== Sys2Proof/Laws/Script.lean ====
section
/-! SUPPORT. What a line of a host program can be, said once each (R86, R87), and the exchanges of one step. -/

namespace Sys2Proof.Machine

/-- The write of a script is the bus write of R86 at `PCB_BASE + off`. -/
theorem memWrite_base (off : Nat) (v : Word) : memWrite (Config.pcbBase + off) v = wrAt off v := by
  unfold memWrite windowOffset wrAt
  by_cases h : off < 0x10000
  · rw [if_pos (by omega), if_pos h, Nat.add_sub_cancel_left]; rfl
  · rw [if_neg (by omega), if_neg h]; rfl

/-- The read of a script is the bus read of R86 at `PCB_BASE + off`. -/
theorem memRead_base (off : Nat) : memRead (Config.pcbBase + off) = rdAt off := by
  unfold memRead windowOffset rdAt
  by_cases h : off < 0x10000
  · rw [if_pos (by omega), if_pos h, Nat.add_sub_cancel_left]; rfl
  · rw [if_neg (by omega), if_neg h]; rfl

/-- A POLL is reads of STATUS with BUSY = 1, as many as it takes, then one with BUSY = 0 (R87). -/
theorem poll_iff {es : Transcript} :
    poll es = true ↔ ∃ (busy : List Word) (last : Word), (∀ v ∈ busy, v.getLsbD 0 = true) ∧ last.getLsbD 0 = false ∧
      es = (busy ++ [last]).map fun v => ⟨rd 0x004#16, .data v⟩ := by
  induction es with
  | nil => simp [poll]
  | cons e es ih =>
    obtain ⟨a, r⟩ := e
    constructor
    · intro h
      simp only [poll, Bool.and_eq_true, decide_eq_true_eq] at h
      obtain ⟨rfl, h⟩ := h
      cases r with
      | data v =>
        cases hv : v.getLsbD 0 with
        | true =>
          simp only [hv, if_true] at h
          obtain ⟨busy, last, h1, h2, h3⟩ := ih.1 h
          exact ⟨v :: busy, last, by simpa [hv] using h1, h2, by rw [h3]; rfl⟩
        | false =>
          simp only [hv, Bool.false_eq_true, if_false, List.isEmpty_iff] at h
          exact ⟨[], v, by simp, hv, by rw [h]; rfl⟩
      | written => simp at h
      | busError v => simp at h
    · rintro ⟨busy, last, h1, h2, h3⟩
      cases busy with
      | nil =>
        simp only [List.nil_append, List.map_cons, List.map_nil, List.cons.injEq, Exchange.mk.injEq] at h3
        obtain ⟨⟨rfl, rfl⟩, rfl⟩ := h3
        simp only [poll, h2, decide_true, Bool.true_and, Bool.false_eq_true, if_false, List.isEmpty_nil]
      | cons v busy =>
        simp only [List.cons_append, List.map_cons, List.cons.injEq, Exchange.mk.injEq] at h3
        obtain ⟨⟨rfl, rfl⟩, h3⟩ := h3
        have hv := h1 v List.mem_cons_self
        have := ih.2 ⟨busy, last, fun w hw => h1 w (List.mem_cons_of_mem _ hw), h2, h3⟩
        simp only [poll, hv, this, decide_true, if_true, Bool.and_self]

/-- A RUN is the write of the command's word, taken by the window, then a POLL (R87). -/
theorem run_iff {i : Instr} {es : Transcript} :
    run i es = true ↔ ∃ ps, es = ⟨wr 0x000#16 (encodeWord i), .written⟩ :: ps ∧ poll ps = true := by
  cases es with
  | nil => simp [run]
  | cons e es => simp [run]

/-- A GETRESULT reads RESULT_LEN and then the words of RESULT that hold that many characters (R87). -/
theorem getResult_iff {es : Transcript} :
    getResult es = true ↔ ∃ (len : Word) (ps : Transcript), es = ⟨rd 0x014#16, .data len⟩ :: ps ∧
      ps.map (·.access) = resultReads len.toNat := by
  cases es with
  | nil => simp [getResult]
  | cons e es =>
    obtain ⟨a, r⟩ := e
    cases r <;> simp [getResult, and_assoc]

/-- The exchanges from a host access on: the access with its answer, then the rest. -/
theorem transcript_access (k : Nat) {s : State} {a : Access} {rest : List Event} (h : s.events = .access a :: rest) :
    ∃ r, (State.access Config.params { s with events := rest } a).response = some r ∧
      transcript (k + 1) s = ⟨a, r⟩ :: transcript k (State.access Config.params { s with events := rest } a) := by
  have hs : step s = .next (State.access Config.params { s with events := rest } a) := by rw [step, h]
  have hr : ∃ r, (State.access Config.params { s with events := rest } a).response = some r := by
    rcases State.access_cases Config.params { s with events := rest } a with ⟨-, e⟩ | ⟨-, -, e⟩ | ⟨v, -, -, e⟩ <;>
      rw [e] <;> exact ⟨_, rfl⟩
  obtain ⟨r, hr⟩ := hr
  exact ⟨r, hr, by rw [transcript]; simp only [hs, h, hr]⟩

end Sys2Proof.Machine
end

