-- ==== Sys2Proof/Tests/StdCipher.lean ====
section
/-! SUPPORT. The intended value of the cipher parameter (R8): DES of FIPS 46-3 and AES encryption of FIPS 197,
written on numbers so that the kernel evaluates them. The vectors of 95_test_vectors.md are computed with it. The model
itself never uses it. PRESUMED: both standards stand outside the spec. -/

namespace Sys2Proof.Tests

/-- The bits of `x` (of `n` bits) that a table of 1-based positions selects, most significant first. -/
def permute (n : Nat) (table : List Nat) (x : Nat) : Nat :=
  table.foldl (fun v i => 2 * v + (x >>> (n - i)) % 2) 0

def desIP : List Nat :=
  [58, 50, 42, 34, 26, 18, 10, 2, 60, 52, 44, 36, 28, 20, 12, 4, 62, 54, 46, 38, 30, 22, 14, 6, 64, 56, 48, 40,
   32, 24, 16, 8, 57, 49, 41, 33, 25, 17, 9, 1, 59, 51, 43, 35, 27, 19, 11, 3, 61, 53, 45, 37, 29, 21, 13, 5,
   63, 55, 47, 39, 31, 23, 15, 7]

def desFP : List Nat :=
  [40, 8, 48, 16, 56, 24, 64, 32, 39, 7, 47, 15, 55, 23, 63, 31, 38, 6, 46, 14, 54, 22, 62, 30, 37, 5, 45, 13,
   53, 21, 61, 29, 36, 4, 44, 12, 52, 20, 60, 28, 35, 3, 43, 11, 51, 19, 59, 27, 34, 2, 42, 10, 50, 18, 58, 26,
   33, 1, 41, 9, 49, 17, 57, 25]

def desExpand : List Nat :=
  [32, 1, 2, 3, 4, 5, 4, 5, 6, 7, 8, 9, 8, 9, 10, 11, 12, 13, 12, 13, 14, 15, 16, 17, 16, 17, 18, 19, 20, 21,
   20, 21, 22, 23, 24, 25, 24, 25, 26, 27, 28, 29, 28, 29, 30, 31, 32, 1]

def desP : List Nat :=
  [16, 7, 20, 21, 29, 12, 28, 17, 1, 15, 23, 26, 5, 18, 31, 10, 2, 8, 24, 14, 32, 27, 3, 9, 19, 13, 30, 6, 22,
   11, 4, 25]

def desPC1 : List Nat :=
  [57, 49, 41, 33, 25, 17, 9, 1, 58, 50, 42, 34, 26, 18, 10, 2, 59, 51, 43, 35, 27, 19, 11, 3, 60, 52, 44, 36,
   63, 55, 47, 39, 31, 23, 15, 7, 62, 54, 46, 38, 30, 22, 14, 6, 61, 53, 45, 37, 29, 21, 13, 5, 28, 20, 12, 4]

def desPC2 : List Nat :=
  [14, 17, 11, 24, 1, 5, 3, 28, 15, 6, 21, 10, 23, 19, 12, 4, 26, 8, 16, 7, 27, 20, 13, 2, 41, 52, 31, 37, 47,
   55, 30, 40, 51, 45, 33, 48, 44, 49, 39, 56, 34, 53, 46, 42, 50, 36, 29, 32]

/-- The S-boxes S1 to S8, 64 nibbles each, row by row. -/
def desSBoxes : List Nat :=
  [0xE4D12FB83A6C59070F74E2D1A6CB953841E8D62BFC973A50FC8249175B3EA06D,
   0xF18E6B34972DC05A3D47F28EC01A69B50E7BA4D158C6932FD8A13F42B67C05E9,
   0xA09E63F51DC7B428D709346A285ECBF1D6498F30B12C5AE71AD069874FE3B52C,
   0x7DE3069A1285BC4FD8B56F03472C1AE9A690CB7DF13E52843F06A1D8945BC72E,
   0x2C417AB6853FD0E9EB2C47D150FA3986421BAD78F9C5630EB8C71E2D6F09A453,
   0xC1AF92680D34E75BAF427C9561DE0B389EF528C3704A1DB6432C95FABE17608D,
   0x4B2EF08D3C975A61D0B7491AE35C2F8614BDC37EAF6805926BD814A7950FE23C,
   0xD2846FB1A93E50C71FD8A374C56B0E927B419CE206ADF35821E74A8DFC90356B]

/-- One S-box on 6 bits. -/
def desSBox (box v : Nat) : Nat :=
  let row := 2 * (v / 32) + v % 2
  let col := v / 2 % 16
  (box >>> (4 * (63 - (16 * row + col)))) % 16

/-- The round function on a 32-bit half and a 48-bit round key. -/
def desRound (r k : Nat) : Nat :=
  let x := permute 32 desExpand r ^^^ k
  permute 32 desP ((desSBoxes.zipIdx).foldl (fun v b => 16 * v + desSBox b.1 ((x >>> (42 - 6 * b.2)) % 64)) 0)

/-- The number of key rotations done up to each round. -/
def desShifts : List Nat := [1, 2, 4, 6, 8, 10, 12, 14, 15, 17, 19, 21, 23, 25, 27, 28]

/-- Rotate 28 bits left. -/
def rot28 (x n : Nat) : Nat := (x <<< n ||| x >>> (28 - n)) % 2 ^ 28

/-- The 16 round keys. -/
def desKeys (key : Nat) : List Nat :=
  let cd := permute 64 desPC1 key
  desShifts.map fun n => permute 56 desPC2 (rot28 (cd >>> 28) n <<< 28 ||| rot28 (cd % 2 ^ 28) n)

/-- DES with the given round keys. -/
def desWith (keys : List Nat) (x : Nat) : Nat :=
  let y := permute 64 desIP x
  let lr := keys.foldl (fun (p : Nat × Nat) k => (p.2, p.1 ^^^ desRound p.2 k)) (y >>> 32, y % 2 ^ 32)
  permute 64 desFP (lr.2 <<< 32 ||| lr.1)

def stdDesE (k x : Block) : Block := BitVec.ofNat 64 (desWith (desKeys k.toNat) x.toNat)

def stdDesD (k x : Block) : Block := BitVec.ofNat 64 (desWith (desKeys k.toNat).reverse x.toNat)

/-- The AES S-box, entry 0 first. -/
def aesSBoxTable : Nat :=
  0x637C777BF26B6FC53001672BFED7AB76CA82C97DFA5947F0ADD4A2AF9CA472C0B7FD9326363FF7CC34A5E5F171D8311504C723C31896059A071280E2EB27B27509832C1A1B6E5AA0523BD6B329E32F8453D100ED20FCB15B6ACBBE394A4C58CFD0EFAAFB434D338545F9027F503C9FA851A3408F929D38F5BCB6DA2110FFF3D2CD0C13EC5F974417C4A77E3D645D197360814FDC222A908846EEB814DE5E0BDBE0323A0A4906245CC2D3AC629195E479E7C8376D8DD54EA96C56F4EA657AAE08BA78252E1CA6B4C6E8DD741F4BBD8B8A703EB5664803F60E613557B986C11D9EE1F8981169D98E949B1E87E9CE5528DF8CA1890DBFE6426841992D0FB054BB16

def aesSBox (v : Nat) : Nat := (aesSBoxTable >>> (8 * (255 - v))) % 256

/-- Doubling in the AES field. -/
def xtime (v : Nat) : Nat := if v < 128 then 2 * v else (2 * v) % 256 ^^^ 0x1B

/-- One column of MixColumns. -/
def mixColumn (a b c d : Nat) : List Nat :=
  let t := a ^^^ b ^^^ c ^^^ d
  [a ^^^ t ^^^ xtime (a ^^^ b), b ^^^ t ^^^ xtime (b ^^^ c), c ^^^ t ^^^ xtime (c ^^^ d), d ^^^ t ^^^ xtime (d ^^^ a)]

def mixColumns : List Nat → List Nat
  | a :: b :: c :: d :: rest => mixColumn a b c d ++ mixColumns rest
  | _ => []

/-- SubBytes and ShiftRows on a state of 16 bytes in column order. -/
def subShift (s : List Nat) : List Nat :=
  [0, 5, 10, 15, 4, 9, 14, 3, 8, 13, 2, 7, 12, 1, 6, 11].map fun i => aesSBox (s.getD i 0)

/-- The next key-schedule word, from the words so far, newest first. -/
def aesNextWord (nk i : Nat) (ws : List (List Nat)) : List Nat :=
  let prev := ws.getD 0 []
  let old := ws.getD (nk - 1) []
  let rcon := [0x01, 0x02, 0x04, 0x08, 0x10, 0x20, 0x40, 0x80, 0x1B, 0x36].getD (i / nk - 1) 0
  let t :=
    if i % nk = 0 then
      match prev with
      | a :: rest => (rest ++ [a]).map aesSBox |>.zipIdx.map fun p => if p.2 = 0 then p.1 ^^^ rcon else p.1
      | [] => []
    else if nk = 8 ∧ i % nk = 4 then prev.map aesSBox
    else prev
  List.zipWith (· ^^^ ·) old t

def aesSchedule (nk : Nat) : Nat → Nat → List (List Nat) → List (List Nat)
  | 0, _, ws => ws
  | n + 1, i, ws => aesSchedule nk n (i + 1) (aesNextWord nk i ws :: ws)

def aesKeyWords : List Nat → List (List Nat)
  | a :: b :: c :: d :: rest => [a, b, c, d] :: aesKeyWords rest
  | _ => []

/-- The words grouped by four: the round keys. -/
def roundKeys : List (List Nat) → List (List Nat)
  | a :: b :: c :: d :: rest => (a ++ b ++ c ++ d) :: roundKeys rest
  | _ => []

def aesRounds : List (List Nat) → List Nat → List Nat
  | [], s => s
  | [k], s => List.zipWith (· ^^^ ·) (subShift s) k
  | k :: ks, s => aesRounds ks (List.zipWith (· ^^^ ·) (mixColumns (subShift s)) k)

def stdAesE (key : Bytes) (x : Block16) : Block16 :=
  let nk := key.length / 4
  let ws := (aesSchedule nk (4 * (nk + 7) - nk) nk (aesKeyWords (key.map BitVec.toNat)).reverse).reverse
  let state := (Machine.bytesOf 16 x.toNat).map BitVec.toNat
  match roundKeys ws with
  | k :: ks => Machine.toBits 128 ((aesRounds ks (List.zipWith (· ^^^ ·) state k)).map (BitVec.ofNat 8))
  | [] => 0#128

/-- The draws of the vectors of 95_test_vectors.md: A, B, C, D, E, F, 0, 1, 2, 3. -/
def stdDraws (n : Nat) : Fin 16 := Fin.ofNat 16 (10 + n)

/-- The standard cipher with every default of R10. AES decryption is used by no command and is left as the identity;
the AES DUKPT functions have no default and answer zeros of the right length. -/
def stdCipher : Params where
  desE := stdDesE
  desD := stdDesD
  aesE := stdAesE
  aesD _ x := x
  dataMax := defaultDataMax
  dukptStep _ x := x
  variant := defaultVariant
  aesDukptIK _ t _ := Vector.replicate t.keylen 0#8
  aesDukptWK _ _ _ _ w := Vector.replicate w.keylen 0#8
  rng := stdDraws

/-- `stdCipher` with the default DUKPT step (R145). -/
def stdParams : Params := { stdCipher with dukptStep := Machine.defaultDukptStep stdCipher }

end Sys2Proof.Tests
end

