-- ==== Sys2Proof/Tests/Slice0.lean ====
section
/-! SUPPORT. The package's own tests. Expected values come from the spec: the encodings of R80 to R84, the examples of the
command rules, the values of 95_test_vectors.md. After them, for each obligation with hypotheses, a theorem that shows
states and operands that meet them. -/

namespace Sys2Proof.Tests

open Sys2Proof Sys2Proof.Machine

/-! ## Helpers -/

/-- The `n` hex characters of a number, the most significant first: `hx 4 0x12AB` is "12AB". -/
def hx (n v : Nat) : Chars := (List.range n).map fun i => hexchar (v >>> (4 * (n - 1 - i)) % 16)

/-- A snapshot with one more operand in it. -/
def put (n : Snap) (k : Slot) (str : Chars) : Snap :=
  { n with
    slotLen := n.slotLen.set k.val (BitVec.ofNat 32 str.length) k.isLt
    data := n.data.writeBytes (slotBase k) str }

/-- A snapshot with nothing in it but the PARAM registers. -/
def blank (p0 p1 p2 : Word) : Snap where
  word := 0#32
  param0 := p0
  param1 := p1
  param2 := p2
  slotLen := Vector.replicate 15 0#32
  data := []

/-- A snapshot with the given PARAM registers and operands. -/
def snapOf (p0 p1 p2 : Word) (ops : List (Slot × Chars)) : Snap :=
  ops.foldl (fun n o => put n o.1 o.2) (blank p0 p1 p2)

/-- The reset state with a command in flight that has the given snapshot. -/
def busy (n : Snap) : State :=
  { State.reset with
    cmd := n.word
    status := Status.issued (opcodeField n.word)
    snap := some n }

/-- The reset state with events to come. -/
def upcoming (es : List Event) : State := { State.reset with events := es }

/-- What a field of the state a run ends in satisfies. -/
def after (o : Host.Outcome State Fault Refusal) (p : State → Bool) : Bool :=
  match o with
  | .next t => p t
  | .fault _ => false
  | .refused _ => false

/-! ## Well-formedness: a refused term for each check -/

theorem test_legal_refuses_rsvd : legalCommandWord 0x00000110#32 = false := by decide
theorem test_legal_refuses_rsvd_top_bit : legalCommandWord 0x80000000#32 = false := by decide
theorem test_legal_refuses_unlisted_opcode : legalCommandWord 0x0000003A#32 = false := by decide
theorem test_legalOpcode_refuses_each_range :
    [0x02#8, 0x0F#8, 0x15#8, 0x17#8, 0x1D#8, 0x1F#8, 0x25#8, 0x27#8, 0x2B#8, 0x2F#8, 0x3A#8, 0x3F#8, 0x46#8, 0x47#8, 0x49#8,
      0x50#8, 0xFF#8].all (fun op => !legalOpcode op) = true := by decide
theorem test_accepted_refuses_width : Access.accepted ⟨2, 0x008#16, .read⟩ = false := by decide
theorem test_accepted_refuses_offset : Access.accepted ⟨4, 0x00A#16, .read⟩ = false := by decide
theorem test_accepted_takes_word : Access.accepted (rd 0x008#16) = true := by decide
theorem test_dataMax_refuses_odd : legalDataMax 4097 = false := by decide
theorem test_dataMax_refuses_small : legalDataMax 14 = false := by decide
theorem test_dataMax_refuses_large : legalDataMax 61442 = false := by decide
theorem test_dataMax_takes_default : legalDataMax defaultDataMax = true := by decide

/-! ## Decoding: each command's word written out from R80 and R83 -/

theorem test_decode_nop : decodeWord 0b000000000000000000000000_0000_0000#32 = .ok .nop := by decide
theorem test_decode_zeroize : decodeWord 0b000000000000000000000000_0000_0001#32 = .ok .zeroize := by decide
theorem test_decode_pinEncF0 : decodeWord 0b000000000000000000000000_0001_0000#32 = .ok .pinEncF0 := by decide
theorem test_decode_pinEncF1 : decodeWord 0b000000000000000000000000_0001_0001#32 = .ok .pinEncF1 := by decide
theorem test_decode_pinEncF2 : decodeWord 0b000000000000000000000000_0001_0010#32 = .ok .pinEncF2 := by decide
theorem test_decode_pinEncF3 : decodeWord 0b000000000000000000000000_0001_0011#32 = .ok .pinEncF3 := by decide
theorem test_decode_pinEncF4 : decodeWord 0b000000000000000000000000_0001_0100#32 = .ok .pinEncF4 := by decide
theorem test_decode_pinDecF0 : decodeWord 0b000000000000000000000000_0001_1000#32 = .ok .pinDecF0 := by decide
theorem test_decode_pinDecF1 : decodeWord 0b000000000000000000000000_0001_1001#32 = .ok .pinDecF1 := by decide
theorem test_decode_pinDecF2 : decodeWord 0b000000000000000000000000_0001_1010#32 = .ok .pinDecF2 := by decide
theorem test_decode_pinDecF3 : decodeWord 0b000000000000000000000000_0001_1011#32 = .ok .pinDecF3 := by decide
theorem test_decode_pinDecF4 : decodeWord 0b000000000000000000000000_0001_1100#32 = .ok .pinDecF4 := by decide
theorem test_decode_dukptIpek : decodeWord 0b000000000000000000000000_0010_0000#32 = .ok .dukptIpek := by decide
theorem test_decode_dukptTk : decodeWord 0b000000000000000000000000_0010_0001#32 = .ok .dukptTk := by decide
theorem test_decode_dukptTkIpek : decodeWord 0b000000000000000000000000_0010_0010#32 = .ok .dukptTkIpek := by decide
theorem test_decode_dukptWk : decodeWord 0b000000000000000000000000_0010_0011#32 = .ok .dukptWk := by decide
theorem test_decode_dukptKsnInc : decodeWord 0b000000000000000000000000_0010_0100#32 = .ok .dukptKsnInc := by decide
theorem test_decode_dukptAesIk : decodeWord 0b000000000000000000000000_0010_1000#32 = .ok .dukptAesIk := by decide
theorem test_decode_dukptAesWk : decodeWord 0b000000000000000000000000_0010_1001#32 = .ok .dukptAesWk := by decide
theorem test_decode_dukptAesKsnInc : decodeWord 0b000000000000000000000000_0010_1010#32 = .ok .dukptAesKsnInc := by decide
theorem test_decode_macAlg1 : decodeWord 0b000000000000000000000000_0011_0000#32 = .ok .macAlg1 := by decide
theorem test_decode_macAlg2 : decodeWord 0b000000000000000000000000_0011_0001#32 = .ok .macAlg2 := by decide
theorem test_decode_macAlg3 : decodeWord 0b000000000000000000000000_0011_0010#32 = .ok .macAlg3 := by decide
theorem test_decode_macX99 : decodeWord 0b000000000000000000000000_0011_0011#32 = .ok .macX99 := by decide
theorem test_decode_macX919 : decodeWord 0b000000000000000000000000_0011_0100#32 = .ok .macX919 := by decide
theorem test_decode_macRetail : decodeWord 0b000000000000000000000000_0011_0101#32 = .ok .macRetail := by decide
theorem test_decode_macTdesCbc : decodeWord 0b000000000000000000000000_0011_0110#32 = .ok .macTdesCbc := by decide
theorem test_decode_macAs2805 : decodeWord 0b000000000000000000000000_0011_0111#32 = .ok .macAs2805 := by decide
theorem test_decode_macCmacAes : decodeWord 0b000000000000000000000000_0011_1000#32 = .ok .macCmacAes := by decide
theorem test_decode_macCmacTdes : decodeWord 0b000000000000000000000000_0011_1001#32 = .ok .macCmacTdes := by decide
theorem test_decode_cvvGen : decodeWord 0b000000000000000000000000_0100_0000#32 = .ok .cvvGen := by decide
theorem test_decode_cvvGenAtc : decodeWord 0b000000000000000000000000_0100_0001#32 = .ok .cvvGenAtc := by decide
theorem test_decode_cvvVerify : decodeWord 0b000000000000000000000000_0100_0010#32 = .ok .cvvVerify := by decide
theorem test_decode_cvvVerifyAtc : decodeWord 0b000000000000000000000000_0100_0011#32 = .ok .cvvVerifyAtc := by decide
theorem test_decode_cscV1 : decodeWord 0b000000000000000000000000_0100_0100#32 = .ok .cscV1 := by decide
theorem test_decode_cscV2 : decodeWord 0b000000000000000000000000_0100_0101#32 = .ok .cscV2 := by decide
theorem test_decode_cvc3Gen : decodeWord 0b000000000000000000000000_0100_1000#32 = .ok .cvc3Gen := by decide
theorem test_decode_pvvGen : decodeWord 0b000000000000000000000000_0100_1010#32 = .ok .pvvGen := by decide
theorem test_decode_pvvPin : decodeWord 0b000000000000000000000000_0100_1011#32 = .ok .pvvPin := by decide
theorem test_decode_ibmOffset : decodeWord 0b000000000000000000000000_0100_1100#32 = .ok .ibmOffset := by decide
theorem test_decode_ibmOffsetMask : decodeWord 0b000000000000000000000000_0100_1101#32 = .ok .ibmOffsetMask := by decide
theorem test_decode_ibmPin : decodeWord 0b000000000000000000000000_0100_1110#32 = .ok .ibmPin := by decide
theorem test_decode_ibmPinMask : decodeWord 0b000000000000000000000000_0100_1111#32 = .ok .ibmPinMask := by decide
theorem test_decode_refuses_rsvd : decodeWord 0x00000110#32 = .error .reservedBitsSet := by decide
theorem test_decode_refuses_unlisted : decodeWord 0x00000016#32 = .error (.unlistedOpcode 0x16#8) := by decide
theorem test_decode_bytes_little_endian : decode [0x4F#8, 0x00#8, 0x00#8, 0x00#8, 0x77#8] = .ok (.ibmPinMask, [0x77#8]) := by
  decide
theorem test_decode_refuses_short : decode [0x00#8, 0x00#8, 0x00#8] = .error .truncated := by decide
theorem test_table_word : decodeTableWord 32 0x0000004A = some .pvvGen := by decide

/-! ## The examples of the command rules, with the standard cipher (95_test_vectors.md; draws A, B, C, ... of R106) -/

/-- R105, example -/
theorem test_pinEncF0 :
    ruleOf stdParams .pinEncF0 0 (snapOf 0x00000000#32 0x00000000#32 0x00000000#32
      [(Slot.pin, hx 4 0x1234), (Slot.pan, hx 17 0x43219876543210987)]) =
      .ok { result := hx 16 0x0412AC89ABCDEF67, aux := 0x00000400#32 } := by decide
/-- R304, example -/
theorem test_pinEncF0_error :
    ruleOf stdParams .pinEncF0 0 (snapOf 0x00000000#32 0x00000000#32 0x00000000#32
      [(Slot.pin, hx 3 0x123), (Slot.pan, hx 5 0x12345)]) =
      .error .invalidPinLength := by decide
/-- R106, example -/
theorem test_pinEncF1 :
    ruleOf stdParams .pinEncF1 0 (snapOf 0x00000000#32 0x00000000#32 0x00000000#32
      [(Slot.pin, hx 4 0x1234)]) =
      .ok { result := hx 16 0x141234ABCDEF0123, aux := 0x00000401#32, drawn := 10 } := by decide
/-- R107, example -/
theorem test_pinEncF2 :
    ruleOf stdParams .pinEncF2 0 (snapOf 0x00000000#32 0x00000000#32 0x00000000#32
      [(Slot.pin, hx 4 0x1234), (Slot.pan, hx 17 0x43219876543210987)]) =
      .ok { result := hx 16 0x2412AC89ABCDEF67, aux := 0x00000402#32 } := by decide
/-- R108, example -/
theorem test_pinEncF3 :
    ruleOf stdParams .pinEncF3 0 (snapOf 0x00000000#32 0x00000000#32 0x00000000#32
      [(Slot.pin, hx 4 0x1234), (Slot.pan, hx 17 0x43219876543210987)]) =
      .ok { result := hx 16 0x3412ACDD99DD11BB, aux := 0x00000403#32, drawn := 10 } := by decide
/-- R109, example -/
theorem test_pinEncF4 :
    ruleOf stdParams .pinEncF4 0 (snapOf 0x00000000#32 0x00000000#32 0x00000000#32
      [(Slot.pin, hx 4 0x1234), (Slot.pan, hx 17 0x43219876543210987)]) =
      .ok { result := hx 32 0x4041BB39ABCDEF670000000000000000, aux := 0x00000404#32 } := by decide
/-- R111, example -/
theorem test_pinDecF0 :
    ruleOf stdParams .pinDecF0 0 (snapOf 0x00000000#32 0x00000000#32 0x00000000#32
      [(Slot.pinblk, hx 16 0x0412AC89ABCDEF67), (Slot.pan, hx 17 0x43219876543210987)]) =
      .ok { result := hx 4 0x1234, aux := 0x00000400#32 } := by decide
/-- R111, corner case: a format 2 block -/
theorem test_pinDecF0_error :
    ruleOf stdParams .pinDecF0 0 (snapOf 0x00000000#32 0x00000000#32 0x00000000#32
      [(Slot.pinblk, hx 16 0x2412AC89ABCDEF67), (Slot.pan, hx 17 0x43219876543210987)]) =
      .error .invalidFormatTag := by decide
/-- R112, example -/
theorem test_pinDecF1 :
    ruleOf stdParams .pinDecF1 0 (snapOf 0x00000000#32 0x00000000#32 0x00000000#32
      [(Slot.pinblk, hx 16 0x1C123456789012AB)]) =
      .ok { result := hx 12 0x123456789012, aux := 0x00000C01#32 } := by decide
/-- R112, example -/
theorem test_pinDecF1_error :
    ruleOf stdParams .pinDecF1 0 (snapOf 0x00000000#32 0x00000000#32 0x00000000#32
      [(Slot.pinblk, hx 16 0x1D123456789012AB)]) =
      .error .invalidPinLength := by decide
/-- R113, example -/
theorem test_pinDecF2 :
    ruleOf stdParams .pinDecF2 0 (snapOf 0x00000000#32 0x00000000#32 0x00000000#32
      [(Slot.pinblk, hx 16 0x2412AC89ABCDEF67), (Slot.pan, hx 17 0x43219876543210987)]) =
      .ok { result := hx 4 0x1234, aux := 0x00000402#32 } := by decide
/-- R114, example -/
theorem test_pinDecF3 :
    ruleOf stdParams .pinDecF3 0 (snapOf 0x00000000#32 0x00000000#32 0x00000000#32
      [(Slot.pinblk, hx 16 0x3412ACDD99DD11BB), (Slot.pan, hx 17 0x43219876543210987)]) =
      .ok { result := hx 4 0x1234, aux := 0x00000403#32 } := by decide
/-- R115, example -/
theorem test_pinDecF4 :
    ruleOf stdParams .pinDecF4 0 (snapOf 0x00000000#32 0x00000000#32 0x00000000#32
      [(Slot.pinblk, hx 32 0x4041BB39ABCDEF670000000000000000), (Slot.pan, hx 17 0x43219876543210987)]) =
      .ok { result := hx 4 0x1234, aux := 0x00000404#32 } := by decide
/-- R115, errors: a 16-character block -/
theorem test_pinDecF4_error :
    ruleOf stdParams .pinDecF4 0 (snapOf 0x00000000#32 0x00000000#32 0x00000000#32
      [(Slot.pinblk, hx 16 0x0412AC89ABCDEF67), (Slot.pan, hx 17 0x43219876543210987)]) =
      .error .invalidPinBlockLength := by decide
/-- R143, example -/
theorem test_dukptIpek :
    ruleOf stdParams .dukptIpek 0 (snapOf 0x00000000#32 0x00000000#32 0x00000000#32
      [(Slot.key, hx 32 0x0123456789ABCDEFFEDCBA9876543210), (Slot.ksn, hx 20 0xFFFF9876543210E00001)]) =
      .ok { result := hx 32 0x6AC292FAA1315B4D858AB3A3D7D5933A } := by decide +kernel
/-- R146, example -/
theorem test_dukptTk :
    ruleOf stdParams .dukptTk 0 (snapOf 0x00000000#32 0x00000000#32 0x00000000#32
      [(Slot.key, hx 32 0x0123456789ABCDEFFEDCBA9876543210), (Slot.ksn, hx 20 0xFFFF9876543210E00001)]) =
      .ok { result := hx 32 0x6AC292FAA1315B4D2CA05A93E55EF15C } := by decide +kernel
/-- R148, example -/
theorem test_dukptTkIpek :
    ruleOf stdParams .dukptTkIpek 0 (snapOf 0x00000000#32 0x00000000#32 0x00000000#32
      [(Slot.key, hx 32 0x6AC292FAA1315B4D858AB3A3D7D5933A), (Slot.ksn, hx 20 0xFFFF9876543210E00003)]) =
      .ok { result := hx 32 0x6AC292FAA1315B4D0FF82883FAE2360D } := by decide +kernel
/-- R149, example, USAGE 1 -/
theorem test_dukptWk :
    ruleOf stdParams .dukptWk 0 (snapOf 0x00000000#32 0x01000000#32 0x00000000#32
      [(Slot.key, hx 32 0x0123456789ABCDEFFEDCBA9876543210), (Slot.ksn, hx 20 0xFFFF9876543210E00001)]) =
      .ok { result := hx 32 0x6AC292FAA131A44D2CA05A93E55E0E5C } := by decide +kernel
/-- R150, example -/
theorem test_dukptKsnInc :
    ruleOf stdParams .dukptKsnInc 0 (snapOf 0x00000000#32 0x00000000#32 0x00000000#32
      [(Slot.ksn, hx 20 0xFFFF9876543210E1FFFE)]) =
      .ok { result := hx 20 0xFFFF9876543210E1FFFF } := by decide
/-- R150, example -/
theorem test_dukptKsnInc_error :
    ruleOf stdParams .dukptKsnInc 0 (snapOf 0x00000000#32 0x00000000#32 0x00000000#32
      [(Slot.ksn, hx 20 0xFFFF9876543210FFFFFF)]) =
      .error .counterExhausted := by decide
/-- R154, example -/
theorem test_dukptAesKsnInc :
    ruleOf stdParams .dukptAesKsnInc 0 (snapOf 0x00000000#32 0x00000000#32 0x00000000#32
      [(Slot.ksn, hx 24 0xFFFF9876543210E000000001)]) =
      .ok { result := hx 24 0xFFFF9876543210E000000002 } := by decide
/-- R152, errors: the BDK length of AES-128 -/
theorem test_dukptAesIk :
    ruleOf stdParams .dukptAesIk 0 (snapOf 0x00000000#32 0x00020000#32 0x00000000#32
      [(Slot.key, hx 48 0x0123456789ABCDEFFEDCBA987654321089ABCDEF01234567), (Slot.ksn, hx 24 0xFFFF9876543210E000000001)]) =
      .error .invalidKeyLength := by decide
/-- R152, errors: KEYTYPE is not an AES type -/
theorem test_dukptAesIk_error :
    ruleOf stdParams .dukptAesIk 0 (snapOf 0x00000000#32 0x00010000#32 0x00000000#32
      [(Slot.key, hx 48 0x0123456789ABCDEFFEDCBA987654321089ABCDEF01234567), (Slot.ksn, hx 24 0xFFFF9876543210E000000001)]) =
      .error .invalidParameter := by decide
/-- R153, errors: USAGE above 2 -/
theorem test_dukptAesWk :
    ruleOf stdParams .dukptAesWk 0 (snapOf 0x00000000#32 0x03020000#32 0x00000000#32
      [(Slot.key, hx 32 0x0123456789ABCDEFFEDCBA9876543210), (Slot.ksn, hx 24 0xFFFF9876543210E000000001)]) =
      .error .invalidParameter := by decide
/-- R153, errors: a legacy KSN; the KSN check comes before USAGE -/
theorem test_dukptAesWk_error :
    ruleOf stdParams .dukptAesWk 0 (snapOf 0x00000000#32 0x03040000#32 0x00000000#32
      [(Slot.key, hx 64 0x0123456789ABCDEFFEDCBA98765432100123456789ABCDEFFEDCBA9876543210), (Slot.ksn, hx 20 0xFFFF9876543210E00001)]) =
      .error .invalidKsnLength := by decide
/-- R184, example, PADMETHOD 2 -/
theorem test_macAlg1 :
    ruleOf stdParams .macAlg1 0 (snapOf 0x00000008#32 0x00000000#32 0x00000002#32
      [(Slot.key, hx 16 0x0123456789ABCDEF), (Slot.data, hx 48 0x4E6F77206973207468652074696D6520666F7220616C6C20)]) =
      .ok { result := hx 16 0x10E1F0F108341B6D } := by decide +kernel
/-- R183: DATA empty -/
theorem test_macAlg1_error :
    ruleOf stdParams .macAlg1 0 (snapOf 0x00000008#32 0x00000000#32 0x00000001#32
      [(Slot.key, hx 16 0x0123456789ABCDEF), (Slot.data, [])]) =
      .error .emptyData := by decide +kernel
/-- R185, example -/
theorem test_macAlg2 :
    ruleOf stdParams .macAlg2 0 (snapOf 0x00000008#32 0x00000000#32 0x00000001#32
      [(Slot.key, hx 32 0x0123456789ABCDEFFEDCBA9876543210), (Slot.data, hx 48 0x4E6F77206973207468652074696D6520666F7220616C6C20)]) =
      .ok { result := hx 16 0x541567CBBAE5D014 } := by decide +kernel
/-- R186, example, PADMETHOD 3 -/
theorem test_macAlg3 :
    ruleOf stdParams .macAlg3 0 (snapOf 0x00000008#32 0x00000000#32 0x00000003#32
      [(Slot.key, hx 32 0x0123456789ABCDEFFEDCBA9876543210), (Slot.data, hx 48 0x4E6F77206973207468652074696D6520666F7220616C6C20)]) =
      .ok { result := hx 16 0xAB059463D7A7D170 } := by decide +kernel
/-- R187 and R184, example, TRUNC 4 -/
theorem test_macX99 :
    ruleOf stdParams .macX99 0 (snapOf 0x00000004#32 0x00000000#32 0x00000001#32
      [(Slot.key, hx 16 0x0123456789ABCDEF), (Slot.data, hx 48 0x4E6F77206973207468652074696D6520666F7220616C6C20)]) =
      .ok { result := hx 8 0x70A30640 } := by decide +kernel
/-- R188, example -/
theorem test_macX919 :
    ruleOf stdParams .macX919 0 (snapOf 0x00000008#32 0x00000000#32 0x00000001#32
      [(Slot.key, hx 32 0x0123456789ABCDEFFEDCBA9876543210), (Slot.data, hx 48 0x4E6F77206973207468652074696D6520666F7220616C6C20)]) =
      .ok { result := hx 16 0xA1C72E74EA3FA9B6 } := by decide +kernel
/-- R189, example -/
theorem test_macRetail :
    ruleOf stdParams .macRetail 0 (snapOf 0x00000008#32 0x00000000#32 0x00000001#32
      [(Slot.key, hx 32 0x0123456789ABCDEFFEDCBA9876543210), (Slot.data, hx 48 0x4E6F77206973207468652074696D6520666F7220616C6C20)]) =
      .ok { result := hx 16 0xA1C72E74EA3FA9B6 } := by decide +kernel
/-- R190, example, a 3TDEA key -/
theorem test_macTdesCbc :
    ruleOf stdParams .macTdesCbc 0 (snapOf 0x00000008#32 0x00000000#32 0x00000001#32
      [(Slot.key, hx 48 0x0123456789ABCDEFFEDCBA987654321089ABCDEF01234567), (Slot.data, hx 48 0x4E6F77206973207468652074696D6520666F7220616C6C20)]) =
      .ok { result := hx 16 0xB2FBD705B999B15D } := by decide +kernel
/-- R191, example -/
theorem test_macAs2805 :
    ruleOf stdParams .macAs2805 0 (snapOf 0x00000008#32 0x00000000#32 0x00000001#32
      [(Slot.key, hx 32 0x0123456789ABCDEFFEDCBA9876543210), (Slot.data, hx 48 0x4E6F77206973207468652074696D6520666F7220616C6C20)]) =
      .ok { result := hx 16 0xA1C72E74EA3FA9B6 } := by decide +kernel
/-- R194, example, one complete block, TRUNC 12 -/
theorem test_macCmacAes :
    ruleOf stdParams .macCmacAes 0 (snapOf 0x0000000C#32 0x00000000#32 0x00000000#32
      [(Slot.key, hx 32 0x2B7E151628AED2A6ABF7158809CF4F3C), (Slot.data, hx 32 0x6BC1BEE22E409F96E93D7E117393172A)]) =
      .ok { result := hx 24 0x070A16B46B4D4144F79BDD9D } := by decide +kernel
/-- R194, example, the empty message -/
theorem test_macCmacAes_second :
    ruleOf stdParams .macCmacAes 0 (snapOf 0x00000010#32 0x00000000#32 0x00000000#32
      [(Slot.key, hx 32 0x2B7E151628AED2A6ABF7158809CF4F3C), (Slot.data, [])]) =
      .ok { result := hx 32 0xBB1D6929E95937287FA37D129B756746 } := by decide +kernel
/-- R195, example -/
theorem test_macCmacTdes :
    ruleOf stdParams .macCmacTdes 0 (snapOf 0x00000008#32 0x00000000#32 0x00000000#32
      [(Slot.key, hx 48 0x8AA83BF8CBDA10620BC1BF19FBB6CD58BC313D4A371CA8B5), (Slot.data, hx 16 0x6BC1BEE22E409F96)]) =
      .ok { result := hx 16 0x8E8F293136283797 } := by decide +kernel
/-- R222, example -/
theorem test_cvvGen :
    ruleOf stdParams .cvvGen 0 (snapOf 0x00000000#32 0x00000000#32 0x00000000#32
      [(Slot.key, hx 32 0x0123456789ABCDEFFEDCBA9876543210), (Slot.pan, hx 16 0x4123456789012345), (Slot.exp, hx 4 0x8701), (Slot.svc, hx 3 0x101)]) =
      .ok { result := hx 3 0x561 } := by decide +kernel
/-- R223, example -/
theorem test_cvvGenAtc :
    ruleOf stdParams .cvvGenAtc 0 (snapOf 0x00000000#32 0x00000000#32 0x00000000#32
      [(Slot.atc, hx 4 0x0001), (Slot.key, hx 32 0x0123456789ABCDEFFEDCBA9876543210), (Slot.pan, hx 16 0x4123456789012345), (Slot.exp, hx 4 0x8701), (Slot.svc, hx 3 0x101)]) =
      .ok { result := hx 3 0x749 } := by decide +kernel
/-- R224, example -/
theorem test_cvvVerify :
    ruleOf stdParams .cvvVerify 0 (snapOf 0x00000000#32 0x00000000#32 0x00000000#32
      [(Slot.check, hx 3 0x561), (Slot.key, hx 32 0x0123456789ABCDEFFEDCBA9876543210), (Slot.pan, hx 16 0x4123456789012345), (Slot.exp, hx 4 0x8701), (Slot.svc, hx 3 0x101)]) =
      .ok { result := [], matched := true } := by decide +kernel
/-- R224, example -/
theorem test_cvvVerify_second :
    ruleOf stdParams .cvvVerify 0 (snapOf 0x00000000#32 0x00000000#32 0x00000000#32
      [(Slot.check, hx 3 0x562), (Slot.key, hx 32 0x0123456789ABCDEFFEDCBA9876543210), (Slot.pan, hx 16 0x4123456789012345), (Slot.exp, hx 4 0x8701), (Slot.svc, hx 3 0x101)]) =
      .ok { result := [] } := by decide +kernel
/-- R225, example -/
theorem test_cvvVerifyAtc :
    ruleOf stdParams .cvvVerifyAtc 0 (snapOf 0x00000000#32 0x00000000#32 0x00000000#32
      [(Slot.atc, hx 4 0x0001), (Slot.check, hx 3 0x749), (Slot.key, hx 32 0x0123456789ABCDEFFEDCBA9876543210), (Slot.pan, hx 16 0x4123456789012345), (Slot.exp, hx 4 0x8701), (Slot.svc, hx 3 0x101)]) =
      .ok { result := [], matched := true } := by decide +kernel
/-- R226, example -/
theorem test_cscV1 :
    ruleOf stdParams .cscV1 0 (snapOf 0x00000000#32 0x00000000#32 0x00000000#32
      [(Slot.exp, hx 4 0x2512), (Slot.key, hx 32 0x0123456789ABCDEFFEDCBA9876543210), (Slot.pan, hx 15 0x371234567890123), (Slot.svc, hx 3 0x201)]) =
      .ok { result := hx 4 0x8913 } := by decide +kernel
/-- R227, example with zero fill -/
theorem test_cscV2 :
    ruleOf stdParams .cscV2 0 (snapOf 0x00000000#32 0x00000000#32 0x00000000#32
      [(Slot.exp, hx 4 0x2501), (Slot.key, hx 32 0x0123456789ABCDEFFEDCBA9876543210), (Slot.pan, hx 15 0x371234567890123), (Slot.svc, hx 3 0x201)]) =
      .ok { result := hx 12 0x802134949000 } := by decide +kernel
/-- R229, example -/
theorem test_cvc3Gen :
    ruleOf stdParams .cvc3Gen 0 (snapOf 0x00000000#32 0x00000000#32 0x00000000#32
      [(Slot.key, hx 32 0x0123456789ABCDEFFEDCBA9876543210), (Slot.pan, hx 16 0x5412345678901234), (Slot.psn, hx 2 0x01), (Slot.track, hx 16 0x1234567890ABCDEF), (Slot.un, hx 8 0x0000ABCD), (Slot.atc, hx 4 0x00FF)]) =
      .ok { result := hx 3 0x557 } := by decide +kernel
/-- R232, example, PVKI 9 -/
theorem test_pvvGen :
    ruleOf stdParams .pvvGen 0 (snapOf 0x00000900#32 0x00000000#32 0x00000000#32
      [(Slot.pin, hx 4 0x1234), (Slot.key, hx 32 0x0123456789ABCDEFFEDCBA9876543210), (Slot.pan, hx 16 0x4123456789012345)]) =
      .ok { result := hx 4 0x1439 } := by decide +kernel
/-- R232, example with a DECTAB -/
theorem test_pvvGen_second :
    ruleOf stdParams .pvvGen 0 (snapOf 0x00000100#32 0x00000000#32 0x00000000#32
      [(Slot.pin, hx 4 0x1234), (Slot.dectab, hx 16 0x9876543210123456), (Slot.key, hx 32 0x0123456789ABCDEFFEDCBA9876543210), (Slot.pan, hx 16 0x4123456789012345)]) =
      .ok { result := hx 4 0x4548 } := by decide +kernel
/-- R233, example -/
theorem test_pvvPin :
    ruleOf stdParams .pvvPin 0 (snapOf 0x00000100#32 0x00000000#32 0x00000000#32
      [(Slot.check, hx 4 0x7439), (Slot.key, hx 32 0x0123456789ABCDEFFEDCBA9876543210), (Slot.pan, hx 16 0x4123456789012345)]) =
      .ok { result := hx 4 0x1234 } := by decide +kernel
/-- R236, example -/
theorem test_ibmOffset :
    ruleOf stdParams .ibmOffset 0 (snapOf 0x04020000#32 0x00003706#32 0x00000000#32
      [(Slot.pin, hx 6 0x987654), (Slot.key, hx 32 0x0123456789ABCDEFFEDCBA9876543210), (Slot.pan, hx 16 0x4123456789012345)]) =
      .ok { result := hx 6 0x782387 } := by decide +kernel
/-- R237, example -/
theorem test_ibmOffsetMask :
    ruleOf stdParams .ibmOffsetMask 0 (snapOf 0x00000000#32 0x00000000#32 0x00000000#32
      [(Slot.pin, hx 4 0x1234), (Slot.mask, [0x4E#8, 0x4E#8, 0x31#8, 0x32#8]), (Slot.key, hx 32 0x0123456789ABCDEFFEDCBA9876543210), (Slot.pan, hx 16 0x4123456789012345)]) =
      .ok { result := hx 4 0x1622 } := by decide +kernel
/-- R238, example -/
theorem test_ibmPin :
    ruleOf stdParams .ibmPin 0 (snapOf 0x04000000#32 0x00003004#32 0x00000000#32
      [(Slot.check, hx 4 0x1614), (Slot.key, hx 32 0x0123456789ABCDEFFEDCBA9876543210), (Slot.pan, hx 16 0x4123456789012345)]) =
      .ok { result := hx 4 0x1234 } := by decide +kernel
/-- R239, example -/
theorem test_ibmPinMask :
    ruleOf stdParams .ibmPinMask 0 (snapOf 0x00000000#32 0x00000000#32 0x00000000#32
      [(Slot.check, hx 4 0x1622), (Slot.mask, [0x4E#8, 0x4E#8, 0x31#8, 0x32#8]), (Slot.key, hx 32 0x0123456789ABCDEFFEDCBA9876543210), (Slot.pan, hx 16 0x4123456789012345)]) =
      .ok { result := hx 4 0x1234 } := by decide +kernel

/-! ## Steps of the machine -/

/-- R276, example: after reset NOP gives STATUS 0x00000002. -/
theorem test_nop_from_reset :
    after (step (State.reset.withFetchWord 32 0x00000000)) (fun t => decide (t.status.toWord = 0x00000002#32)) = true := by
  decide

/-- R278, example: 0x0000003A completes with STATUS 0x003A1F06. -/
theorem test_illegal_opcode :
    after (step (State.reset.withFetchWord 32 0x0000003A)) (fun t => decide (t.status.toWord = 0x003A1F06#32)) = true := by
  decide

/-- R278, example: 0x00000110 completes with STATUS 0x00101F06. -/
theorem test_illegal_rsvd :
    after (step (State.reset.withFetchWord 32 0x00000110)) (fun t => decide (t.status.toWord = 0x00101F06#32)) = true := by
  decide

/-- R277, example: ZEROIZE with KEY holding 32 characters leaves SLOT_LEN[0] = 0 and a zero first word; a byte beyond cap(3)
of slot PIN is cleared too (log entry 15). -/
theorem test_zeroize :
    after
      (exec .zeroize { busy (blank 0#32 0#32 0#32) with
        slotLen := (Vector.replicate 15 0#32).set 0 32#32
        mem := (Memory.writeBytes [] 0x200 (hx 32 0x0123456789ABCDEFFEDCBA9876543210)).write 0x2F0 0x41#8 })
      (fun t => decide (t.slotLen.get Slot.key = 0#32) && decide (t.mem = []) && decide (t.status.done = true)) = true := by
  decide

/-- R270, R274, the run of 95_test_vectors.md section 3.3: after a command that ended with ERRCODE 0x08 (STATUS 0x00300806),
the issue of MAC_ALG1 leaves STATUS 0x00300001, and a CMD write while it is busy 0x00300011 (log entry 19). -/
theorem test_status_at_issue_after_error :
    let s : State := { State.reset with status := (Status.issued 0x30#8).completedErr .invalidTruncation }
    let t := s.writeCmd stdParams 0x00000030#32
    s.status.toWord = 0x00300806#32 ∧ t.status.toWord = 0x00300001#32 ∧
      (t.writeCmd stdParams 0#32).status.toWord = 0x00300011#32 := by decide

/-- R62: a 16-bit access gets the bus error. -/
theorem test_bus_error :
    after (step (upcoming [.access ⟨2, 0x000#16, .write 0#32⟩]))
      (fun t => decide (t.response = some (.busError 0#32)) && decide (t.snap = none)) = true := by decide

/-- R61, R87: the first bus word of SETSLOT PIN, "1234" is 0x34333231. -/
theorem test_setSlot :
    setSlot Slot.pin (hx 4 0x1234) = [wr 0x2C0#16 0x34333231#32, wr 0x04C#16 4#32] := by decide

/-- R87: SETSLOT of slot 14 writes nothing past the window. -/
theorem test_setSlot_past_window : wrAt (slotBase Slot.data + 61440) 0x41#32 = none ∧
    wrAt (slotBase Slot.data + 61436) 0x41#32 = some (wr 0xFFFC#16 0x41#32) := by decide

/-- R87: RUN NOP with one read of STATUS before the completion and one after it, then GETRESULT. -/
theorem test_run_nop :
    let es := transcript 5 (upcoming [.access (wr 0x000#16 0#32), .access (rd 0x004#16), .engine,
      .access (rd 0x004#16), .access (rd 0x014#16)])
    run .nop (es.take 3) = true ∧ getResult (es.drop 3) = true ∧ poll [] = false ∧ run .nop (es.take 2) = false := by
  decide

/-- R87: GETRESULT reads as many words of RESULT as the RESULT_LEN it read asks for, no more and no fewer. -/
theorem test_getResult :
    (let e := fun (o : BitVec 16) (v : Word) => (⟨rd o, .data v⟩ : Exchange)
     getResult [e 0x014#16 5#32, e 0x100#16 0#32, e 0x104#16 0#32] = true ∧
      getResult [e 0x014#16 5#32, e 0x100#16 0#32] = false ∧
      getResult [e 0x014#16 4#32, e 0x100#16 0#32, e 0x104#16 0#32] = false) := by decide

/-- A host program of R87 that the machine's exchanges follow. -/
theorem test_script_follows :
    Follows [.setP2 1#8 0#8, .run .nop, .getResult]
      (transcript 5 (upcoming [.access (wr 0x010#16 1#32), .access (wr 0x000#16 0#32), .engine,
        .access (rd 0x004#16), .access (rd 0x014#16)])) :=
  ⟨_, _, (List.take_append_drop 1 _).symm, by decide, _, _, (List.take_append_drop 2 _).symm, by decide, _, [],
    (List.append_nil _).symm, by decide, rfl⟩

/-- R61: a slot word reads back as written, character 0 in bits 7:0. -/
theorem test_slot_word_reads_back :
    (State.access stdParams State.reset (wr 0x2C0#16 0x34333231#32)).readWord stdParams 0x2C0 = 0x34333231#32 ∧
      Memory.read (State.access stdParams State.reset (wr 0x2C0#16 0x34333231#32)).mem 0x2C0 = 0x31#8 := by decide

/-! ## Witnesses: states and operands that meet the hypotheses of the obligations -/

/-- A string just put into a slot is what the slot holds. -/
theorem slot_put_same {P : Params} {n : Snap} (hw : n.data.wf) {k : Slot} {str : Chars} (h : str.length ≤ cap P k)
    (h32 : str.length < 2 ^ 32) : slot P (put n k str) k = some str := by
  have hl : (put n k str).len k = str.length := by
    show ((n.slotLen.set k.val (BitVec.ofNat 32 str.length) k.isLt).get k).toNat = str.length
    rw [slotLen_get_set, if_pos rfl, BitVec.toNat_ofNat, Nat.mod_eq_of_lt h32]
  rw [slot_of_le (by omega), hl]
  congr 1
  apply List.ext_getElem
  · simp
  · intro i h1 h2
    simp only [Snap.chars, List.getElem_map, List.getElem_range]
    show Memory.read (n.data.writeBytes (slotBase k) str) (slotBase k + i) = _
    rw [Memory.read_writeBytes hw _ _ _ h2, List.getD_eq_getElem _ _ h2]

/-- A string put into a slot leaves the operands of slots 0 to 13 as they were. -/
theorem slot_put_other {n : Snap} {j k : Slot} {str : Chars} (hjk : j ≠ k) (hj : j ≠ Slot.data)
    (h : k = Slot.data ∨ str.length ≤ 64) :
    (put n k str).len j = n.len j ∧ slot Config.params (put n k str) j = slot Config.params n j := by
  have hl : (put n k str).len j = n.len j := by
    show ((n.slotLen.set k.val (BitVec.ofNat 32 str.length) k.isLt).get j).toNat = (n.slotLen.get j).toNat
    rw [slotLen_get_set, if_neg (Ne.symm hjk)]
  refine ⟨hl, ?_⟩
  unfold slot
  rw [hl]
  split
  · rename_i hc
    congr 1
    unfold Snap.chars
    apply List.map_congr_left
    intro i hi
    have hi := List.mem_range.1 hi
    have hj64 : cap Config.params j ≤ 64 := by
      revert hj
      fin_cases j <;> first | (intro _; decide) | (intro h; exact absurd rfl h)
    refine Memory.read_writeBytes_other _ _ _ _ ?_
    have h14 : j.val < 14 := by
      have h1 := j.isLt
      have h2 : j.val ≠ 14 := fun e => hj (Fin.ext e)
      omega
    unfold slotBase
    rw [if_neg hj]
    rcases h with rfl | h
    · rw [if_pos rfl]; omega
    · have : j.val ≠ k.val := fun e => hjk (Fin.ext e)
      split <;> omega
  · rfl

theorem blank_wf (p0 p1 p2 : Word) : (blank p0 p1 p2).data.wf := Memory.wf_nil

theorem put_wf {n : Snap} (h : n.data.wf) (k : Slot) (str : Chars) : (put n k str).data.wf := Memory.wf_writeBytes h _ _

/-- The DATA operand of the MAC witnesses: one byte, "AB". -/
theorem legalData_put {n : Snap} (h : n.data.wf) : LegalData (put n Slot.data (hx 2 0xAB)) (hx 2 0xAB) := by
  refine ⟨slot_put_same h ?_ (by decide), by decide, by decide⟩
  have := params_dataMax.2.1
  show (hx 2 0xAB).length ≤ Config.params.dataMax
  have : (hx 2 0xAB).length = 2 := by decide
  omega

/-- No DATA operand: the empty message. -/
theorem legalData_none (p0 p1 p2 : Word) : LegalData (blank p0 p1 p2) [] := by
  have h := slot_of_le (P := Config.params) (n := blank p0 p1 p2) (k := Slot.data) (Nat.zero_le _)
  exact ⟨h, by decide, by simp⟩

/-- The completion of a command whose rule ends without error. -/
theorem exec_ok {i : Instr} (hz : i ≠ .zeroize) {s : State} {n : Snap} (hn : s.snap = some n) {a : Answer}
    (h : ruleOf Config.params i s.draws n = .ok a) : exec i s = .next (s.completeOk a) := by
  rw [exec_of_snap i hn, completionBase_of_ne hz, h]; rfl

/-- `LegalOperand` as one Boolean, for evaluation. -/
def okSlot (n : Snap) (k : Slot) (lo hi : Nat) (set : Byte → Bool) (str : Chars) : Bool :=
  decide (slot Config.params n k = some str) && (decide (lo ≤ str.length) && (decide (str.length ≤ hi) && str.all set))

theorem legal {n : Snap} {k : Slot} {lo hi : Nat} {set : Byte → Bool} {str : Chars} (h : okSlot n k lo hi set str = true) :
    LegalOperand n k lo hi set str := by
  simp only [okSlot, Bool.and_eq_true, decide_eq_true_eq, List.all_eq_true] at h
  exact h

theorem legalKey {n : Snap} {lens : List Nat} {str : Chars} (h : okSlot n Slot.key 0 64 isHex str = true)
    (hl : str.length ∈ lens) : LegalKey n lens str :=
  ⟨(legal h).1, hl, (legal h).2.2.2⟩

theorem reset_wf : State.reset.mem.wf := Memory.wf_nil

/-! ### Stepping -/

theorem witness_StepRunsDecodedCommand :
    (busy (blank 0#32 0#32 0#32)).fetch = some 0#32 ∧ decode (bytesOfWord 0#32) = .ok (.nop, []) ∧
      (busy (blank 0#32 0#32 0#32)).events = [] ∧
      (State.reset.withCommand 0x4F#32).fetch = some 0x4F#32 ∧ decode (bytesOfWord 0x4F#32) = .ok (.ibmPinMask, []) ∧
      (State.reset.withCommand 0x4F#32).events = [.engine] := by decide

theorem witness_StepTakesEventsInOrder :
    (upcoming [.access (rd 0#16)]).events = [.access (rd 0#16)] ∧ (upcoming [.reset]).events = [.reset] ∧
      (upcoming [.engine]).events = [.engine] ∧ (upcoming [.engine]).status.busy = false ∧
      State.reset.events = [] ∧ State.reset.status.busy = false := by decide

theorem witness_IllegalWordCompletesWithError :
    (busy { blank 0#32 0#32 0#32 with word := 0x3A#32 }).fetch = some 0x3A#32 ∧ legalCommandWord 0x3A#32 = false ∧
      (busy { blank 0#32 0#32 0#32 with word := 0x3A#32 }).events = [] ∧
      (State.reset.withCommand 0x110#32).fetch = some 0x110#32 ∧ legalCommandWord 0x110#32 = false ∧
      (State.reset.withCommand 0x110#32).events = .engine :: [] ∧
      (upcoming [.access (wr 0x000#16 0x110#32), .engine]).events = .access (wr 0x000#16 0x110#32) :: .engine :: [] ∧
      (upcoming [.access (wr 0x000#16 0x110#32), .engine]).status.busy = false := by decide

theorem witness_ResetDiscardsCommandInFlight :
    ({ busy (blank 0#32 0#32 0#32) with events := [.reset, .engine] } : State).events = .reset :: [.engine] ∧
      ({ busy (blank 0#32 0#32 0#32) with events := [.reset, .engine] } : State).status.busy = true := by decide

theorem witness_CmdWriteIssuesCommand :
    (upcoming [.access (wr 0x000#16 0xFFFFFFFF#32)]).events = .access (wr 0x000#16 0xFFFFFFFF#32) :: [] ∧
      (upcoming [.access (wr 0x000#16 0xFFFFFFFF#32)]).status.busy = false := by decide

theorem witness_CmdWriteWhileBusyIsDropped :
    (({ busy (blank 0#32 0#32 0#32) with events := [.access (wr 0x000#16 1#32)] } : State).status.busy = true ∧
      exec .nop { busy (blank 0#32 0#32 0#32) with events := [.access (wr 0x000#16 1#32)] } =
        .next (({ busy (blank 0#32 0#32 0#32) with events := [.access (wr 0x000#16 1#32)] } : State).completeOk
          { result := [] })) ∧
    ({ State.reset with status := { Status.reset with overrun := true } } : State).status.overrun = true ∧
      step { State.reset with status := { Status.reset with overrun := true } } =
        .next { State.reset with status := { Status.reset with overrun := true } } :=
  ⟨⟨rfl, rfl⟩, rfl, rfl⟩

theorem witness_EveryCommandCompletes :
    (busy (blank 0#32 0#32 0#32)).snap = some (blank 0#32 0#32 0#32) := rfl

theorem witness_CompletionWritesOutcome :
    State.reset.mem.wf ∧ ({ result := List.replicate 128 0x41#8 } : Answer).result.length ≤ 128 :=
  ⟨reset_wf, by simp⟩

/-- The empty PIN slot makes PIN_ENC_F0 end with an error. -/
theorem witness_ErrorCompletionChangesNothingElse :
    exec .pinEncF0 { busy (blank 0#32 0#32 0#32) with events := [.access (wr 0x000#16 0#32)] } =
      .next (({ busy (blank 0#32 0#32 0#32) with events := [.access (wr 0x000#16 0#32)] } : State).completeErr
        .invalidPinLength) ∧
    (({ busy (blank 0#32 0#32 0#32) with events := [.access (wr 0x000#16 0#32)] } : State).completeErr
      .invalidPinLength).status.err = true ∧
    (({ busy (blank 0#32 0#32 0#32) with events := [.access (wr 0x000#16 0#32)] } : State).completeErr
      .invalidPinLength).events = .access (wr 0x000#16 0#32) :: [] :=
  ⟨rfl, rfl, rfl⟩

/-- The same snapshot in two states: with other draw counters where the command draws none, and with the same counter
where PIN_ENC_F1 draws 10 nibbles. -/
theorem witness_OutcomeDependsOnSnapshotAndDraws :
    ((busy (blank 0#32 0#32 0#32)).mem.wf ∧ (busy (blank 0#32 0#32 0#32)).snap = some (blank 0#32 0#32 0#32) ∧
      ({ busy (blank 0#32 0#32 0#32) with draws := 7 } : State).mem.wf ∧
      ({ busy (blank 0#32 0#32 0#32) with draws := 7 } : State).snap = some (blank 0#32 0#32 0#32) ∧
      (Instr.nop ≠ .pinEncF1 ∧ Instr.nop ≠ .pinEncF3) ∧
      exec .nop (busy (blank 0#32 0#32 0#32)) =
        .next ((busy (blank 0#32 0#32 0#32)).completeOk { result := [] }) ∧
      ∀ j, 0 + j < ((busy (blank 0#32 0#32 0#32)).completeOk { result := [] }).draws →
        Config.rng (0 + j) = Config.rng (7 + j)) ∧
    ∃ t, exec .pinEncF1 (busy (snapOf 0#32 0#32 0#32 [(Slot.pin, hx 4 0x1234)])) = .next t ∧ t.draws = 10 ∧
      ∀ j, 0 + j < t.draws → Config.rng (0 + j) = Config.rng (0 + j) :=
  ⟨⟨reset_wf, rfl, reset_wf, rfl, by decide, rfl, fun j h => absurd h (Nat.not_lt_zero _)⟩, _,
    exec_of_snap .pinEncF1 rfl, by rfl, fun _ _ => rfl⟩

theorem witness_SameCommandTwiceSameOutcome :
    Instr.macAlg1 ≠ .pinEncF1 ∧ Instr.macAlg1 ≠ .pinEncF3 ∧ State.reset.mem.wf :=
  ⟨by decide, by decide, reset_wf⟩

theorem witness_CommandFrame :
    Instr.nop ≠ .zeroize ∧ Instr.nop ≠ .pinEncF1 ∧ Instr.nop ≠ .pinEncF3 ∧
      exec .nop (busy (blank 0#32 0#32 0#32)) =
        .next ((busy (blank 0#32 0#32 0#32)).completeOk { result := [] }) :=
  ⟨by decide, by decide, by decide, rfl⟩

theorem witness_ZeroizeAndNop : (busy (blank 0#32 0#32 0#32)).snap = some (blank 0#32 0#32 0#32) := rfl

/-- A command in flight with a slot write, an ignored CMD write and a misaligned read to come. -/
def inFlight : State :=
  { busy (blank 0#32 0#32 0#32) with
    events := [wr 0x2C0#16 0x39#32, wr 0x000#16 1#32, rd 0x002#16].map .access ++ [.engine] }

theorem witness_HostAccessesNeverChangeRunningCommand :
    inFlight.mem.wf ∧ inFlight.status.busy = true ∧
      inFlight.events = [wr 0x2C0#16 0x39#32, wr 0x000#16 1#32, rd 0x002#16].map .access ++ [.engine] ∧
      exec .nop inFlight = .next (inFlight.completeOk { result := [] }) :=
  ⟨reset_wf, rfl, rfl, rfl⟩

theorem inFlight_FlightInv : FlightInv inFlight := by
  refine ⟨by decide, fun n h => ?_, by decide⟩
  have : n = blank 0#32 0#32 0#32 := (Option.some.inj h).symm
  subst this; rfl

theorem witness_EveryCommandEnds : FlightInv inFlight ∧ inFlight.status.busy = true := ⟨inFlight_FlightInv, rfl⟩

/-- A CMD write among the accesses while a command is in flight, and accesses without one while none is. -/
theorem witness_HostAccessesKeepResult :
    (inFlight.events = [wr 0x2C0#16 0x39#32, wr 0x000#16 1#32, rd 0x002#16].map .access ++ [.engine] ∧
      inFlight.status.busy = true) ∧
    (upcoming [.access (rd 0x000#16), .access (wr 0x004#16 1#32)]).events =
      [rd 0x000#16, wr 0x004#16 1#32].map .access ++ [] ∧
    ∀ w, wr 0x000#16 w ∉ [rd 0x000#16, wr 0x004#16 1#32] :=
  ⟨⟨rfl, rfl⟩, rfl, fun w h => by simp [wr, rd] at h⟩

theorem witness_Invariants :
    StatusInv inFlight ∧ FlightInv inFlight ∧ MemoryInv inFlight ∧ SnapInv inFlight ∧ ResultInv inFlight ∧
      ∃ t, step inFlight = .next t := by
  refine ⟨⟨fun _ => ⟨rfl, rfl, rfl⟩, by decide, fun _ => rfl⟩, inFlight_FlightInv, ⟨reset_wf, by intro c h; cases h⟩,
    fun n h => ?_, ⟨by decide, by intro k h; exact absurd h (Nat.not_lt_zero _), fun k _ _ => rfl⟩, ⟨_, rfl⟩⟩
  have : n = blank 0#32 0#32 0#32 := (Option.some.inj h).symm
  subst this
  exact ⟨Memory.wf_nil, by intro c h; cases h⟩

/-! ### The window -/

theorem witness_BusErrorExactly :
    (upcoming [.access ⟨2, 0x008#16, .read⟩]).events = .access ⟨2, 0x008#16, .read⟩ :: [] ∧
      (upcoming [.access ⟨4, 0x003#16, .read⟩]).events = .access ⟨4, 0x003#16, .read⟩ :: [] ∧
      (upcoming [.access (rd 0xFFFC#16)]).events = .access (rd 0xFFFC#16) :: [] ∧
      ¬ ((2 : Nat) = 4 ∧ (0x008#16).toNat % 4 = 0) ∧ ¬ ((4 : Nat) = 4 ∧ (0x003#16).toNat % 4 = 0) ∧
      ((rd 0xFFFC#16).width = 4 ∧ (rd 0xFFFC#16).offset.toNat % 4 = 0) := by decide

theorem witness_ReadsHaveNoEffectAndWritesRepeat :
    (upcoming [.access (rd 0x004#16)]).events = .access (rd 0x004#16) :: [] ∧ (0x004#16).toNat % 4 = 0 ∧
      State.reset.mem.wf ∧ 0x004#16 ≠ 0x000#16 :=
  ⟨rfl, by decide, reset_wf, by decide⟩

/-- Parameters whose DATA slot is not a whole number of words. -/
def oddParams : Params := { Config.params with dataMax := 18 }

/-- One offset at each end of each range, the last word with reserved bytes among them. -/
theorem witness_ReservedAndReadOnlyOffsets :
    legalDataMax oddParams.dataMax = true ∧
      (∀ o ∈ [0x020, 0x03C, 0x07C, 0x0FC, 0x180, 0x1FC, 0x580, 0xFFC, 0x1014, 0xFFFC, 0x004, 0x014, 0x018, 0x01C, 0x100,
        0x17C, 0x1010], (BitVec.ofNat 16 o).toNat = o ∧ o % 4 = 0) ∧
      0x1000 + oddParams.dataMax ≤ 0x1014 ∧ 0x1000 + oddParams.dataMax ≤ 0x1010 + 2 ∧ ¬ 0x1000 + oddParams.dataMax ≤ 0x1010 + 1 := by
  decide

theorem witness_BusWordsCarryByteLanes :
    State.reset.mem.wf ∧
      (∀ a ∈ [0x200, 0x57C, 0x1000, 0x100C], (BitVec.ofNat 16 a).toNat = a ∧ a % 4 = 0 ∧
        isSlotByte Config.params (a + 0) = true ∧ isSlotByte Config.params (a + 3) = true) ∧
      (∀ a ∈ [0x100, 0x17C], (BitVec.ofNat 16 a).toNat = a ∧ a % 4 = 0 ∧ isResultByte (a + 0) = true ∧
        isResultByte (a + 3) = true) ∧
      (0x1FF < (0x200#16).toNat ∧ (0x200#16).toNat + 4 ≤ 0x204) ∧
      ∀ a ∈ [0x100, 0x17F, 0x1FF, 0x580, 0xFFF, 0x1000 + Config.params.dataMax], isSlotByte Config.params a = false := by
  have := params_dataMax.2.1
  refine ⟨reset_wf, ?_, by decide, by decide, fun a ha => ?_⟩
  rotate_left
  · simp only [List.mem_cons, List.mem_nil_iff, or_false] at ha
    rw [Bool.eq_false_iff, Ne, isSlotByte_iff]
    omega
  intro a ha
  simp only [List.mem_cons, List.mem_nil_iff, or_false] at ha
  rcases ha with rfl | rfl | rfl | rfl <;>
    exact ⟨by decide, by decide, isSlotByte_iff.2 (by omega), isSlotByte_iff.2 (by omega)⟩

/-! ### Operands -/

/-- A snapshot with one SLOT_LEN set and no data. -/
def withLen (k : Slot) (l : Nat) : Snap :=
  { blank 0#32 0#32 0#32 with slotLen := (Vector.replicate 15 0#32).set k.val (BitVec.ofNat 32 l) k.isLt }

/-- SLOT_LEN one above the capacity, for a slot a field check reads and for DECTAB and MASK; far above it for DATA. -/
theorem witness_OperandStringOfIssue :
    cap Config.params Slot.pin < (withLen Slot.pin 13).len Slot.pin ∧
      cap Config.params Slot.dectab < (withLen Slot.dectab 17).len Slot.dectab ∧
      cap Config.params Slot.mask < (withLen Slot.mask 17).len Slot.mask ∧
      cap Config.params Slot.data < (withLen Slot.data 61442).len Slot.data := by
  refine ⟨by decide, by decide, by decide, ?_⟩
  have := params_dataMax.2.2
  have h : (withLen Slot.data 61442).len Slot.data = 61442 := by decide
  show Config.params.dataMax < _
  omega

/-- The three clauses: a length that is not accepted, a character outside the set, and a legal operand. -/
theorem witness_OperandCheckOrder :
    (∀ l, oneOf [4] l = true → l ≤ cap Config.params Slot.exp) ∧
      oneOf [4] ((withLen Slot.exp 3).len Slot.exp) = false ∧
      (oneOf [4] ((snapOf 0#32 0#32 0#32 [(Slot.exp, hx 4 0x87A1)]).len Slot.exp) = true ∧
        ∃ i, i < (snapOf 0#32 0#32 0#32 [(Slot.exp, hx 4 0x87A1)]).len Slot.exp ∧
          isDec (Memory.read (snapOf 0#32 0#32 0#32 [(Slot.exp, hx 4 0x87A1)]).data (slotBase Slot.exp + i)) = false) ∧
      oneOf [4] ((snapOf 0#32 0#32 0#32 [(Slot.exp, hx 4 0x8701)]).len Slot.exp) = true ∧
      ∀ i, i < (snapOf 0#32 0#32 0#32 [(Slot.exp, hx 4 0x8701)]).len Slot.exp →
        isDec (Memory.read (snapOf 0#32 0#32 0#32 [(Slot.exp, hx 4 0x8701)]).data (slotBase Slot.exp + i)) = true := by
  refine ⟨fun l h => ?_, by decide, ⟨by decide, 2, by decide, by decide⟩, by decide, by decide⟩
  have : l = 4 := by simpa using oneOf_iff.1 h
  subst this; decide

/-- Two snapshots that differ in a slot PIN_ENC_F1 does not list; from one counter the drawn nibbles are equal. -/
theorem witness_OnlyListedOperandsAreRead :
    (busy (snapOf 0#32 0#32 0#32 [(Slot.pin, hx 4 0x1234)])).mem.wf ∧
      (busy (snapOf 5#32 0#32 0#32 [(Slot.pin, hx 4 0x1234), (Slot.pan, hx 1 0xF)])).mem.wf ∧
      (busy (snapOf 0#32 0#32 0#32 [(Slot.pin, hx 4 0x1234)])).draws =
        (busy (snapOf 5#32 0#32 0#32 [(Slot.pin, hx 4 0x1234), (Slot.pan, hx 1 0xF)])).draws ∧
      AgreeOnListed .pinEncF1 (snapOf 0#32 0#32 0#32 [(Slot.pin, hx 4 0x1234)])
        (snapOf 5#32 0#32 0#32 [(Slot.pin, hx 4 0x1234), (Slot.pan, hx 1 0xF)]) :=
  ⟨reset_wf, reset_wf, rfl, by unfold AgreeOnListed; decide⟩

/-! ### Ciphers -/

theorem witness_TripleDesComposition :
    Config.params.CipherLawful ∧ (List.replicate 8 0x01#8).length = 8 := ⟨params_cipherLawful, by decide⟩

theorem witness_CbcChainsBlocks : 0 < 8 ∧ (List.replicate 16 0x01#8).length % 8 = 0 ∧ (List.replicate 8 0x02#8).length = 8 := by
  decide

theorem witness_CmacFunction :
    0 < 8 ∧ ([] : Bytes).length % 8 = 0 ∧ (List.replicate 8 0x02#8).length = 8 ∧ ([] : Bytes).length < 8 ∧
      ([] : Bytes) = [] ∧ (List.replicate 8 0x01#8).length % 8 = 0 ∧ (List.replicate 7 0x01#8).length < 8 ∧
      0 < (List.replicate 7 0x01#8).length := by decide

theorem witness_Alg3ProfilesAgree :
    Config.params.CipherLawful ∧ (List.replicate 8 0x01#8).length = 8 ∧ ([] : Bytes).length % 8 = 0 :=
  ⟨params_cipherLawful, by decide, by decide⟩

/-! ### MAC -/

/-- A MAC operand set: a key of `l` characters, the one-byte message, PADMETHOD and TRUNC. -/
def macSnap (l : Nat) (p t : Word) : Snap :=
  put (put (blank t 0#32 p) Slot.key (List.replicate l 0x41#8)) Slot.data (hx 2 0xAB)

theorem macSnap_data (l : Nat) (p t : Word) : LegalData (macSnap l p t) (hx 2 0xAB) :=
  legalData_put (put_wf (blank_wf _ _ _) _ _)

theorem macSnap_key (p t : Word) :
    LegalKey (macSnap 16 p t) [16] (List.replicate 16 0x41#8) ∧ LegalKey (macSnap 32 p t) [32] (List.replicate 32 0x41#8) ∧
      LegalKey (macSnap 48 p t) [32, 48] (List.replicate 48 0x41#8) ∧
      LegalKey (macSnap 64 p t) [32, 48, 64] (List.replicate 64 0x41#8) := by
  have h : ∀ l, l ≤ 64 → Holds (macSnap l p t) Slot.key (List.replicate l 0x41#8) := by
    intro l hl
    refine (slot_put_other (by decide) (by decide) (.inl rfl)).2.trans (slot_put_same (blank_wf _ _ _) ?_ (by simp; omega))
    show _ ≤ 64
    simpa using hl
  exact ⟨⟨h 16 (by decide), by decide, by decide⟩, ⟨h 32 (by decide), by decide, by decide⟩,
    ⟨h 48 (by decide), by decide, by decide⟩, ⟨h 64 (by decide), by decide, by decide⟩⟩

/-- PADMETHOD 0 and 4, one below and one above the legal values, for the key of each clause. -/
theorem witness_PaddingMethods :
    LegalKey (macSnap 16 0#32 8#32) [16] (List.replicate 16 0x41#8) ∧
      LegalKey (macSnap 32 4#32 8#32) [32] (List.replicate 32 0x41#8) ∧
      LegalKey (macSnap 48 4#32 8#32) [32, 48] (List.replicate 48 0x41#8) ∧
      LegalData (macSnap 16 0#32 8#32) (hx 2 0xAB) ∧ LegalData (macSnap 32 4#32 8#32) (hx 2 0xAB) ∧
      LegalData (macSnap 48 4#32 8#32) (hx 2 0xAB) ∧ 0 < (hx 2 0xAB).length ∧
      (macSnap 16 0#32 8#32).padmethod ∉ [1, 2, 3] ∧ (macSnap 32 4#32 8#32).padmethod ∉ [1, 2, 3] ∧
      (macSnap 48 4#32 8#32).padmethod ∉ [1, 2, 3] ∧ 0 < 8 :=
  ⟨(macSnap_key _ _).1, (macSnap_key _ _).2.1, (macSnap_key _ _).2.2.1, macSnap_data _ _ _, macSnap_data _ _ _,
    macSnap_data _ _ _, by decide, by decide, by decide, by decide, by decide⟩

/-- TRUNC 1 and 8, PADMETHOD 1 and 3, a key for each clause. -/
theorem witness_DesMacsComplete :
    (busy (macSnap 16 1#32 8#32)).snap = some (macSnap 16 1#32 8#32) ∧
      LegalKey (macSnap 16 1#32 8#32) [16] (List.replicate 16 0x41#8) ∧
      LegalKey (macSnap 32 3#32 1#32) [32] (List.replicate 32 0x41#8) ∧
      LegalKey (macSnap 48 3#32 1#32) [32, 48] (List.replicate 48 0x41#8) ∧
      LegalData (macSnap 16 1#32 8#32) (hx 2 0xAB) ∧ LegalData (macSnap 32 3#32 1#32) (hx 2 0xAB) ∧
      LegalData (macSnap 48 3#32 1#32) (hx 2 0xAB) ∧ 0 < (hx 2 0xAB).length ∧
      (macSnap 16 1#32 8#32).padmethod ∈ [1, 2, 3] ∧ (macSnap 16 1#32 8#32).trunc = 8 ∧
      (macSnap 32 3#32 1#32).padmethod ∈ [1, 2, 3] ∧ (macSnap 32 3#32 1#32).trunc = 1 ∧
      (macSnap 48 3#32 1#32).padmethod ∈ [1, 2, 3] ∧ (macSnap 48 3#32 1#32).trunc = 1 :=
  ⟨rfl, (macSnap_key _ _).1, (macSnap_key _ _).2.1, (macSnap_key _ _).2.2.1, macSnap_data _ _ _, macSnap_data _ _ _,
    macSnap_data _ _ _, by decide, by decide, by decide, by decide, by decide, by decide, by decide⟩

/-- The key of each clause with the largest TRUNC, and the empty message. -/
theorem witness_CmacsComplete :
    LegalKey (macSnap 64 0#32 16#32) [32, 48, 64] (List.replicate 64 0x41#8) ∧ (macSnap 64 0#32 16#32).trunc = 16 ∧
      LegalKey (macSnap 16 0#32 8#32) [16] (List.replicate 16 0x41#8) ∧ (macSnap 16 0#32 8#32).trunc = 8 ∧
      LegalKey (macSnap 48 0#32 8#32) [32, 48] (List.replicate 48 0x41#8) ∧ (macSnap 48 0#32 8#32).trunc = 8 ∧
      LegalData (macSnap 64 0#32 16#32) (hx 2 0xAB) ∧ LegalData (macSnap 16 0#32 8#32) (hx 2 0xAB) ∧
      LegalData (macSnap 48 0#32 8#32) (hx 2 0xAB) ∧ LegalData (blank 0#32 0#32 0#32) [] :=
  ⟨(macSnap_key _ _).2.2.2, by decide, (macSnap_key _ _).1, by decide, (macSnap_key _ _).2.2.1, by decide,
    macSnap_data _ _ _, macSnap_data _ _ _, macSnap_data _ _ _, legalData_none _ _ _⟩

/-- MAC_ALG1 with TRUNC 1 and with TRUNC 8 on the same other operands, both without error. -/
theorem witness_TruncationKeepsLeftmost :
    Instr.macAlg1 ∈ [Instr.macAlg1, .macAlg2, .macAlg3, .macX99, .macX919, .macRetail, .macTdesCbc, .macAs2805, .macCmacAes,
        .macCmacTdes] ∧
      (busy (macSnap 16 1#32 1#32)).mem.wf ∧ (busy (macSnap 16 1#32 8#32)).mem.wf ∧
      macSnap 16 1#32 8#32 = { macSnap 16 1#32 1#32 with param0 := (macSnap 16 1#32 8#32).param0 } ∧
      (macSnap 16 1#32 1#32).trunc ≤ (macSnap 16 1#32 8#32).trunc ∧
      ∃ t t', exec .macAlg1 (busy (macSnap 16 1#32 1#32)) = .next t ∧
        exec .macAlg1 (busy (macSnap 16 1#32 8#32)) = .next t' ∧ t.status.err = false ∧ t'.status.err = false := by
  have run : ∀ tr : Word, 1 ≤ (macSnap 16 1#32 tr).trunc → (macSnap 16 1#32 tr).trunc ≤ 8 →
      ∃ a, exec .macAlg1 (busy (macSnap 16 1#32 tr)) = .next ((busy (macSnap 16 1#32 tr)).completeOk a) := by
    intro tr h1 h8
    have hd := macSnap_data 16 1#32 tr
    have hk := (macSnap_key 1#32 tr).1
    have hcap : (hx 2 0xAB).length ≤ Config.params.dataMax := by
      have := params_dataMax.2.1
      have h2 : (hx 2 0xAB).length = 2 := by decide
      omega
    exact ⟨_, exec_ok (by decide) rfl (desMac_ok_iff.2 ⟨_, macChk_ok_iff.2 ⟨_, _, hk.1, hk.2.1, hk.2.2, hd.1, hcap, hd.2.1,
      by decide, hd.2.2, show byteField 1#32 0 ∈ [1, 2, 3] by decide, h1, h8, rfl⟩, rfl⟩)⟩
  obtain ⟨a, ha⟩ := run 1#32 (by decide) (by decide)
  obtain ⟨b, hb⟩ := run 8#32 (by decide) (by decide)
  exact ⟨by decide, reset_wf, reset_wf, rfl, by decide, _, _, ha, hb, rfl, rfl⟩

/-! ### PIN blocks -/

/-- The PINs and PANs of least and of greatest length. -/
def shortSnap : Snap := snapOf 0#32 0#32 0#32 [(Slot.pin, hx 4 0x1234), (Slot.pan, hx 13 0x1234567890123)]
def longSnap : Snap := snapOf 0#32 0#32 0#32 [(Slot.pin, hx 12 0x123456789012), (Slot.pan, hx 19 0x1234567890123456789)]

theorem witness_PinEncodersComplete :
    LegalOperand shortSnap Slot.pin 4 12 isDec (hx 4 0x1234) ∧
      LegalOperand shortSnap Slot.pan 13 19 isDec (hx 13 0x1234567890123) ∧
      LegalOperand longSnap Slot.pin 4 12 isDec (hx 12 0x123456789012) ∧
      LegalOperand longSnap Slot.pan 13 19 isDec (hx 19 0x1234567890123456789) :=
  ⟨legal (by decide +kernel), legal (by decide +kernel), legal (by decide +kernel), legal (by decide +kernel)⟩

/-- A block to decode, with the PAN of the examples of R111 to R115. -/
def blkSnap (l b : Nat) : Snap := snapOf 0#32 0#32 0#32 [(Slot.pinblk, hx l b), (Slot.pan, hx 17 0x43219876543210987)]

/-- The blocks of those examples. -/
theorem witness_PinDecodersComplete :
    (4 ≤ (hx 4 0x1234).length ∧ (hx 4 0x1234).length ≤ 12 ∧ (∀ c ∈ hx 4 0x1234, isDec c = true) ∧
      (∀ c ∈ hx 10 0xABCDEF0123, isHex c = true)) ∧
    LegalOperand (blkSnap 16 0x141234ABCDEF0123) Slot.pinblk 16 16 isHex (hx 16 0x141234ABCDEF0123) ∧
    hx 16 0x141234ABCDEF0123 = pf16 1 (hx 4 0x1234) (hx 10 0xABCDEF0123) ∧
    LegalOperand (blkSnap 16 0x0412AC89ABCDEF67) Slot.pan 13 19 isDec (hx 17 0x43219876543210987) ∧
    LegalOperand (blkSnap 16 0x0412AC89ABCDEF67) Slot.pinblk 16 16 isHex (hx 16 0x0412AC89ABCDEF67) ∧
    xorHex (hx 16 0x0412AC89ABCDEF67) (panF16 (hx 17 0x43219876543210987)) = pf16 0 (hx 4 0x1234) (hx 10 0xFFFFFFFFFF) ∧
    xorHex (hx 16 0x2412AC89ABCDEF67) (panF16 (hx 17 0x43219876543210987)) = pf16 2 (hx 4 0x1234) (hx 10 0xFFFFFFFFFF) ∧
    xorHex (hx 16 0x3412ACDD99DD11BB) (panF16 (hx 17 0x43219876543210987)) = pf16 3 (hx 4 0x1234) (hx 10 0xABCDEF0123) ∧
    LegalOperand (blkSnap 32 0x4041BB39ABCDEF670000000000000000) Slot.pinblk 32 32 isHex
      (hx 32 0x4041BB39ABCDEF670000000000000000) ∧
    (xorHex (hx 32 0x4041BB39ABCDEF670000000000000000) (panF32 (hx 17 0x43219876543210987))).take (3 + (hx 4 0x1234).length) =
      hexchar 4 :: hexchar 0 :: hexchar (hx 4 0x1234).length :: hx 4 0x1234 :=
  ⟨by decide +kernel, legal (by decide +kernel), by decide +kernel, legal (by decide +kernel), legal (by decide +kernel),
    by decide +kernel, by decide +kernel, by decide +kernel, legal (by decide +kernel), by decide +kernel⟩

/-- The decoder's operand set in the round trips: PAN, and then the encoder's result. -/
def decSnap (r : Chars) : Snap := put (snapOf 0#32 0#32 0#32 [(Slot.pan, hx 13 0x1234567890123)]) Slot.pinblk r

theorem shortSnap_legal : LegalOperand shortSnap Slot.pin 4 12 isDec (hx 4 0x1234) ∧
    LegalOperand shortSnap Slot.pan 13 19 isDec (hx 13 0x1234567890123) :=
  ⟨legal (by decide +kernel), legal (by decide +kernel)⟩

theorem decSnap_holds {r : Chars} (h : r.length ≤ 32) :
    Holds (decSnap r) Slot.pinblk r ∧ LegalOperand (decSnap r) Slot.pan 13 19 isDec (hx 13 0x1234567890123) := by
  have hw : (snapOf 0#32 0#32 0#32 [(Slot.pan, hx 13 0x1234567890123)]).data.wf := put_wf (blank_wf _ _ _) _ _
  have hp := (slot_put_other (n := snapOf 0#32 0#32 0#32 [(Slot.pan, hx 13 0x1234567890123)]) (j := Slot.pan)
    (k := Slot.pinblk) (str := r) (by decide) (by decide) (.inr (by omega))).2
  exact ⟨slot_put_same hw h (by omega), hp.trans (legal (lo := 13) (hi := 19) (set := isDec) (by decide +kernel)).1, by decide,
    by decide, by decide⟩

/-- For each format: the encoder completes, and its result fits the decoder's operand. -/
theorem witness_PinBlockRoundTrip :
    ∀ i ∈ [Instr.pinEncF0, .pinEncF1, .pinEncF2, .pinEncF3, .pinEncF4],
      (busy shortSnap).mem.wf ∧ LegalOperand shortSnap Slot.pin 4 12 isDec (hx 4 0x1234) ∧
        LegalOperand shortSnap Slot.pan 13 19 isDec (hx 13 0x1234567890123) ∧
        ∃ t, exec i (busy shortSnap) = .next t ∧
          (busy (decSnap (resultString t))).mem.wf ∧ Holds (decSnap (resultString t)) Slot.pinblk (resultString t) ∧
          LegalOperand (decSnap (resultString t)) Slot.pan 13 19 isDec (hx 13 0x1234567890123) := by
  intro i hi
  refine ⟨reset_wf, shortSnap_legal.1, shortSnap_legal.2, ?_⟩
  have p1 : pinChk Config.params shortSnap = .ok (hx 4 0x1234) := field_of_legal shortSnap_legal.1
  have p2 : panChk Config.params shortSnap = .ok (hx 13 0x1234567890123) := field_of_legal shortSnap_legal.2
  have fin : ∀ a : Answer, ruleOf Config.params i 0 shortSnap = .ok a → i ≠ .zeroize → a.result.length ≤ 32 →
      ∃ t, exec i (busy shortSnap) = .next t ∧
        (busy (decSnap (resultString t))).mem.wf ∧ Holds (decSnap (resultString t)) Slot.pinblk (resultString t) ∧
        LegalOperand (decSnap (resultString t)) Slot.pan 13 19 isDec (hx 13 0x1234567890123) := by
    intro a ha hz hl
    refine ⟨_, exec_ok hz rfl ha, reset_wf, ?_⟩
    rw [resultString_completeOk (s := busy shortSnap) reset_wf (by omega)]
    exact decSnap_holds hl
  have h13 : 13 ≤ (hx 13 0x1234567890123).length := by decide
  have h4 : (hx 4 0x1234).length = 4 := by decide
  have hp : (hx 4 0x1234).length ≤ 14 := by decide
  have l16 : ∀ f pad, pad.length = 10 → (xorHex (pf16 f (hx 4 0x1234) pad) (panF16 (hx 13 0x1234567890123))).length ≤ 32 := by
    intro f pad h; rw [xorHex_length, pf16_length]; omega
  simp only [List.mem_cons, List.mem_nil_iff, or_false] at hi
  rcases hi with rfl | rfl | rfl | rfl | rfl
  · exact fin { result := xorHex (pf16 0 (hx 4 0x1234) (padF (hx 4 0x1234).length)) (panF16 (hx 13 0x1234567890123))
                aux := auxWord 0 (hx 4 0x1234).length }
      (by simp only [ruleOf, pinEncF0, p1, p2, ok_bind]; rfl) (by decide) (l16 _ _ (by rw [padF_length, h4]))
  · exact fin { result := pf16 1 (hx 4 0x1234) (padDraws Config.params 0 (14 - (hx 4 0x1234).length))
                aux := auxWord 1 (hx 4 0x1234).length, drawn := 14 - (hx 4 0x1234).length }
      (by simp only [ruleOf, pinEncF1, p1, ok_bind]; rfl) (by decide) (by simp only [pf16_length, padDraws_length]; omega)
  · exact fin { result := xorHex (pf16 2 (hx 4 0x1234) (padF (hx 4 0x1234).length)) (panF16 (hx 13 0x1234567890123))
                aux := auxWord 2 (hx 4 0x1234).length }
      (by simp only [ruleOf, pinEncF2, p1, p2, ok_bind]; rfl) (by decide) (l16 _ _ (by rw [padF_length, h4]))
  · exact fin { result := xorHex (pf16 3 (hx 4 0x1234) (padDraws Config.params 0 (14 - (hx 4 0x1234).length)))
                  (panF16 (hx 13 0x1234567890123))
                aux := auxWord 3 (hx 4 0x1234).length, drawn := 14 - (hx 4 0x1234).length }
      (by simp only [ruleOf, pinEncF3, p1, p2, ok_bind]; rfl) (by decide) (l16 _ _ (by rw [padDraws_length, h4]))
  · exact fin { result := xorHex (pf32 (hx 4 0x1234)) (panF32 (hx 13 0x1234567890123)), aux := auxWord 4 (hx 4 0x1234).length }
      (by simp only [ruleOf, pinEncF4, p1, p2, ok_bind]; rfl) (by decide)
      (by simp only; rw [xorHex_length, pf32_length (by omega)]; omega)

/-! ### DUKPT -/

/-- KEY and KSN of R143's example with a USAGE. -/
def dukptSnap (u : Word) : Snap :=
  snapOf 0#32 u 0#32 [(Slot.key, hx 32 0x0123456789ABCDEFFEDCBA9876543210), (Slot.ksn, hx 20 0xFFFF9876543210E00001)]

/-- USAGE 0, 2 and 3. -/
theorem witness_LegacyDukptCompletes :
    (LegalKey (dukptSnap 0x00000000#32) [32] (hx 32 0x0123456789ABCDEFFEDCBA9876543210) ∧
      LegalOperand (dukptSnap 0x00000000#32) Slot.ksn 20 20 isHex (hx 20 0xFFFF9876543210E00001) ∧
      usageOf (dukptSnap 0x00000000#32).usage = some .pin) ∧
    (LegalKey (dukptSnap 0x02000000#32) [32] (hx 32 0x0123456789ABCDEFFEDCBA9876543210) ∧
      LegalOperand (dukptSnap 0x02000000#32) Slot.ksn 20 20 isHex (hx 20 0xFFFF9876543210E00001) ∧
      usageOf (dukptSnap 0x02000000#32).usage = some .data) ∧
    (LegalKey (dukptSnap 0x03000000#32) [32] (hx 32 0x0123456789ABCDEFFEDCBA9876543210) ∧
      LegalOperand (dukptSnap 0x03000000#32) Slot.ksn 20 20 isHex (hx 20 0xFFFF9876543210E00001) ∧
      2 < (dukptSnap 0x03000000#32).usage) :=
  ⟨⟨legalKey (by decide +kernel) (by decide), legal (by decide +kernel), by decide +kernel⟩,
    ⟨legalKey (by decide +kernel) (by decide), legal (by decide +kernel), by decide +kernel⟩,
    ⟨legalKey (by decide +kernel) (by decide), legal (by decide +kernel), by decide +kernel⟩⟩

theorem witness_LegacyKeyDerivation :
    (0xFFFF9876543210E00001#80).extractLsb' 21 59 = (0xFFFF9876543210E1FFFF#80).extractLsb' 21 59 := by decide

/-- The last counter that is accepted. -/
theorem witness_KsnIncrementEveryOutcome :
    (0xFFFF9876543210E1FFFE#80).toNat % 2 ^ 21 ≠ 0x1FFFFF ∧ (0xFFFF9876543210E0001FFFFE#96).toNat % 2 ^ 21 ≠ 0x1FFFFF := by
  decide

/-- An AES-128 and an AES-256 base derivation key, with the least and the greatest USAGE and WKTYPE. -/
def aesSnap (l : Nat) (p1 p2 : Word) : Snap :=
  snapOf 0#32 p1 p2 [(Slot.key, hx l 0x1), (Slot.ksn, hx 24 0xFFFF9876543210E000000001)]

theorem witness_AesDukptCompletes :
    (aesTypeOf (aesSnap 32 0x00020000#32 0#32).keytype = some .aes128 ∧
      LegalKey (aesSnap 32 0x00020000#32 0#32) [2 * KeyType.keylen .aes128] (hx 32 0x1) ∧
      LegalOperand (aesSnap 32 0x00020000#32 0#32) Slot.ksn 24 24 isHex (hx 24 0xFFFF9876543210E000000001) ∧
      usageOf (aesSnap 32 0x00020000#32 0#32).usage = some .pin ∧
      keyTypeOf (aesSnap 32 0x00020000#32 0#32).wktype = some .tdea2) ∧
    (aesTypeOf (aesSnap 64 0x02040000#32 0x00000400#32).keytype = some .aes256 ∧
      LegalKey (aesSnap 64 0x02040000#32 0x00000400#32) [2 * KeyType.keylen .aes256] (hx 64 0x1) ∧
      LegalOperand (aesSnap 64 0x02040000#32 0x00000400#32) Slot.ksn 24 24 isHex (hx 24 0xFFFF9876543210E000000001) ∧
      usageOf (aesSnap 64 0x02040000#32 0x00000400#32).usage = some .data ∧
      keyTypeOf (aesSnap 64 0x02040000#32 0x00000400#32).wktype = some .aes256) :=
  ⟨⟨by decide +kernel, legalKey (by decide +kernel) (by decide), legal (by decide +kernel), by decide +kernel,
      by decide +kernel⟩,
    ⟨by decide +kernel, legalKey (by decide +kernel) (by decide), legal (by decide +kernel), by decide +kernel,
      by decide +kernel⟩⟩

/-! ### Card verification -/

/-- The operands of R222 to R225 with a PAN of `l` digits. -/
def cardSnap (l : Nat) : Snap :=
  snapOf 0#32 0#32 0#32 [(Slot.key, hx 32 0x1), (Slot.pan, hx l 0x1), (Slot.exp, hx 4 0x8701), (Slot.svc, hx 3 0x101),
    (Slot.atc, hx 4 0x0001), (Slot.check, hx 3 0x561)]

/-- The operands of CvvAndCscComplete and CvvVerifyMatchesGenerated, the PAN of least and of greatest length. -/
theorem witness_CvvAndCscComplete :
    (LegalKey (cardSnap 12) [32] (hx 32 0x1) ∧ LegalOperand (cardSnap 12) Slot.exp 4 4 isDec (hx 4 0x8701) ∧
      LegalOperand (cardSnap 12) Slot.svc 3 3 isDec (hx 3 0x101) ∧
      LegalOperand (cardSnap 12) Slot.pan 12 19 isDec (hx 12 0x1) ∧
      LegalOperand (cardSnap 12) Slot.atc 4 4 isDec (hx 4 0x0001) ∧
      LegalOperand (cardSnap 12) Slot.check 3 3 isDec (hx 3 0x561)) ∧
    LegalOperand (cardSnap 19) Slot.pan 12 19 isDec (hx 19 0x1) ∧
    (LegalKey (cardSnap 15) [32] (hx 32 0x1) ∧ LegalOperand (cardSnap 15) Slot.exp 4 4 isDec (hx 4 0x8701) ∧
      LegalOperand (cardSnap 15) Slot.svc 3 3 isDec (hx 3 0x101) ∧
      LegalOperand (cardSnap 15) Slot.pan 15 15 isDec (hx 15 0x1)) :=
  ⟨⟨legalKey (by decide +kernel) (by decide), legal (by decide +kernel), legal (by decide +kernel), legal (by decide +kernel),
      legal (by decide +kernel), legal (by decide +kernel)⟩,
    legal (by decide +kernel),
    ⟨legalKey (by decide +kernel) (by decide), legal (by decide +kernel), legal (by decide +kernel),
      legal (by decide +kernel)⟩⟩

/-- The same operands meet the hypotheses of the verify statement. -/
theorem witness_CvvVerifyMatchesGenerated :
    LegalKey (cardSnap 12) [32] (hx 32 0x1) ∧ LegalOperand (cardSnap 12) Slot.check 3 3 isDec (hx 3 0x561) :=
  ⟨witness_CvvAndCscComplete.1.1, witness_CvvAndCscComplete.1.2.2.2.2.2⟩

/-- CSC_V1 and CSC_V2 complete without error on a PAN of 15 digits. -/
theorem witness_DigitExtraction :
    (busy (cardSnap 15)).mem.wf ∧
      ∃ a b, exec .cscV1 (busy (cardSnap 15)) = .next ((busy (cardSnap 15)).completeOk a) ∧
        exec .cscV2 (busy (cardSnap 15)) = .next ((busy (cardSnap 15)).completeOk b) := by
  obtain ⟨h1, h2, h3, h4⟩ := witness_CvvAndCscComplete.2.2
  have k1 : cardKey Config.params (cardSnap 15) = .ok (hx 32 0x1) := field_of_key h1
  have k2 : field Config.params (cardSnap 15) Slot.pan (oneOf [15]) isDec .invalidPanLength = .ok (hx 15 0x1) :=
    field_of_fixed h4
  have k3 : fixedField Config.params (cardSnap 15) Slot.exp 4 isDec = .ok (hx 4 0x8701) := field_of_fixed h2
  have k4 : fixedField Config.params (cardSnap 15) Slot.svc 3 isDec = .ok (hx 3 0x101) := field_of_fixed h3
  have hi : cscInput Config.params (cardSnap 15) = .ok (bytes (hx 32 0x1), fill32 (hx 15 0x1 ++ hx 4 0x8701 ++ hx 3 0x101)) := by
    simp only [cscInput, k1, k2, k3, k4, ok_bind]; rfl
  generalize bytes (hx 32 0x1) = ky at hi
  generalize fill32 (hx 15 0x1 ++ hx 4 0x8701 ++ hx 3 0x101) = blk at hi
  exact ⟨reset_wf, { result := cardCode Config.params 4 (ky, blk) }, { result := cardCode Config.params 12 (ky, blk) },
    exec_ok (by decide) rfl (by simp only [ruleOf, cscV1, hi, ok_bind]; rfl),
    exec_ok (by decide) rfl (by simp only [ruleOf, cscV2, hi, ok_bind]; rfl)⟩

/-- The operands of R229 with a TRACK of `l` characters. -/
def cvc3Snap (l : Nat) : Snap :=
  snapOf 0#32 0#32 0#32 [(Slot.key, hx 32 0x1), (Slot.pan, hx 16 0x5412345678901234), (Slot.psn, hx 2 0x01),
    (Slot.track, hx l 0xA), (Slot.un, hx 8 0xABCD), (Slot.atc, hx 4 0x00FF)]

/-- TRACK of 1 and of 64 characters. -/
theorem witness_Cvc3Completes :
    LegalKey (cvc3Snap 1) [32] (hx 32 0x1) ∧ LegalOperand (cvc3Snap 1) Slot.pan 12 19 isDec (hx 16 0x5412345678901234) ∧
      LegalOperand (cvc3Snap 1) Slot.psn 2 2 isDec (hx 2 0x01) ∧ LegalOperand (cvc3Snap 1) Slot.track 1 64 isHex (hx 1 0xA) ∧
      LegalOperand (cvc3Snap 1) Slot.un 8 8 isHex (hx 8 0xABCD) ∧ LegalOperand (cvc3Snap 1) Slot.atc 4 4 isHex (hx 4 0x00FF) ∧
      LegalOperand (cvc3Snap 64) Slot.track 1 64 isHex (hx 64 0xA) :=
  ⟨legalKey (by decide +kernel) (by decide), legal (by decide +kernel), legal (by decide +kernel), legal (by decide +kernel),
    legal (by decide +kernel), legal (by decide +kernel), legal (by decide +kernel)⟩

/-- The operands of the PIN verification commands: KEY, PAN, a PIN, a value in CHECK. -/
def pinSnap (p0 p1 : Word) (pin check : Chars) : Snap :=
  snapOf p0 p1 0#32 [(Slot.key, hx 32 0x1), (Slot.pan, hx 16 0x4123456789012345), (Slot.pin, pin), (Slot.check, check)]

/-- PVKI 9 and 10, the default table and a table in DECTAB. -/
theorem witness_PvvCommandsComplete :
    (LegalKey (pinSnap 0x00000900#32 0#32 (hx 4 0x1234) (hx 4 0x7439)) [32, 48] (hx 32 0x1) ∧
      LegalOperand (pinSnap 0x00000900#32 0#32 (hx 4 0x1234) (hx 4 0x7439)) Slot.pan 12 19 isDec (hx 16 0x4123456789012345) ∧
      TableInForce (pinSnap 0x00000900#32 0#32 (hx 4 0x1234) (hx 4 0x7439)) defaultDectab ∧
      LegalOperand (pinSnap 0x00000900#32 0#32 (hx 4 0x1234) (hx 4 0x7439)) Slot.pin 4 4 isDec (hx 4 0x1234) ∧
      LegalOperand (pinSnap 0x00000900#32 0#32 (hx 4 0x1234) (hx 4 0x7439)) Slot.check 4 4 isDec (hx 4 0x7439) ∧
      (pinSnap 0x00000900#32 0#32 (hx 4 0x1234) (hx 4 0x7439)).pvki ≤ 9) ∧
    (LegalKey (pinSnap 0x00000A00#32 0#32 (hx 4 0x1234) (hx 4 0x7439)) [32, 48] (hx 32 0x1) ∧
      LegalOperand (pinSnap 0x00000A00#32 0#32 (hx 4 0x1234) (hx 4 0x7439)) Slot.pan 12 19 isDec (hx 16 0x4123456789012345) ∧
      TableInForce (pinSnap 0x00000A00#32 0#32 (hx 4 0x1234) (hx 4 0x7439)) defaultDectab ∧
      LegalOperand (pinSnap 0x00000A00#32 0#32 (hx 4 0x1234) (hx 4 0x7439)) Slot.pin 4 4 isDec (hx 4 0x1234) ∧
      LegalOperand (pinSnap 0x00000A00#32 0#32 (hx 4 0x1234) (hx 4 0x7439)) Slot.check 4 4 isDec (hx 4 0x7439) ∧
      9 < (pinSnap 0x00000A00#32 0#32 (hx 4 0x1234) (hx 4 0x7439)).pvki) ∧
    TableInForce (put (pinSnap 0#32 0#32 [] []) Slot.dectab (hx 16 0x9876543210123456)) (hx 16 0x9876543210123456) :=
  ⟨⟨legalKey (by decide +kernel) (by decide), legal (by decide +kernel), .inl ⟨by decide +kernel, rfl⟩,
      legal (by decide +kernel), legal (by decide +kernel), by decide +kernel⟩,
    ⟨legalKey (by decide +kernel) (by decide), legal (by decide +kernel), .inl ⟨by decide +kernel, rfl⟩,
      legal (by decide +kernel), legal (by decide +kernel), by decide +kernel⟩,
    .inr (legal (by decide +kernel))⟩

/-- PINLEN 4 with START 12 and LENGTH 4, the last natural digits; PINLEN 12 with LENGTH 12; masks of 4 and 12 characters. -/
theorem witness_IbmCommandsComplete :
    (LegalVdParams (pinSnap 0x040C0000#32 0x00003004#32 (hx 4 0x1234) (hx 4 0x1614)) ∧
      (pinSnap 0x040C0000#32 0x00003004#32 (hx 4 0x1234) (hx 4 0x1614)).pinlen = 4 ∧
      LegalKey (pinSnap 0x040C0000#32 0x00003004#32 (hx 4 0x1234) (hx 4 0x1614)) [32, 48] (hx 32 0x1) ∧
      LegalOperand (pinSnap 0x040C0000#32 0x00003004#32 (hx 4 0x1234) (hx 4 0x1614)) Slot.pan 12 19 isDec
        (hx 16 0x4123456789012345) ∧
      TableInForce (pinSnap 0x040C0000#32 0x00003004#32 (hx 4 0x1234) (hx 4 0x1614)) defaultDectab ∧
      LegalOperand (pinSnap 0x040C0000#32 0x00003004#32 (hx 4 0x1234) (hx 4 0x1614)) Slot.pin 4 4 isDec (hx 4 0x1234) ∧
      LegalOperand (pinSnap 0x040C0000#32 0x00003004#32 (hx 4 0x1234) (hx 4 0x1614)) Slot.check 4 4 isDec (hx 4 0x1614)) ∧
    (LegalVdParams (pinSnap 0x0C040000#32 0x0000390C#32 (hx 12 0x123456789012) []) ∧
      LegalOperand (pinSnap 0x0C040000#32 0x0000390C#32 (hx 12 0x123456789012) []) Slot.pin 12 12 isDec
        (hx 12 0x123456789012)) ∧
    (LegalOperand (put (pinSnap 0#32 0#32 (hx 4 0x1234) (hx 4 0x1622)) Slot.mask [charN, charN, 0x31#8, 0x32#8]) Slot.mask 4 12
        isMask [charN, charN, 0x31#8, 0x32#8] ∧
      LegalOperand (put (pinSnap 0#32 0#32 (hx 4 0x1234) (hx 4 0x1622)) Slot.mask [charN, charN, 0x31#8, 0x32#8]) Slot.pin 4 4
        isDec (hx 4 0x1234) ∧
      LegalOperand (put (pinSnap 0#32 0#32 (hx 4 0x1234) (hx 4 0x1622)) Slot.mask [charN, charN, 0x31#8, 0x32#8]) Slot.check 4 4
        isDec (hx 4 0x1622) ∧
      LegalOperand (put (pinSnap 0#32 0#32 [] []) Slot.mask (List.replicate 12 charN)) Slot.mask 4 12 isMask
        (List.replicate 12 charN)) :=
  ⟨⟨by unfold LegalVdParams; decide +kernel, by decide +kernel, legalKey (by decide +kernel) (by decide),
      legal (by decide +kernel), .inl ⟨by decide +kernel, rfl⟩, legal (by decide +kernel), legal (by decide +kernel)⟩,
    ⟨by unfold LegalVdParams; decide +kernel, legal (by decide +kernel)⟩,
    ⟨legal (by decide +kernel), legal (by decide +kernel), legal (by decide +kernel), legal (by decide +kernel)⟩⟩

/-- A snapshot whose result goes to CHECK: what the other slots hold stays. -/
theorem put_check {n : Snap} (hw : n.data.wf) {r : Chars} (h : r.length ≤ 12) :
    Holds (put n Slot.check r) Slot.check r ∧ ∀ k ∈ [Slot.key, Slot.pan, Slot.dectab, Slot.mask],
      (put n Slot.check r).len k = n.len k ∧ slot Config.params (put n Slot.check r) k = slot Config.params n k := by
  refine ⟨slot_put_same hw h (by omega), fun k hk => ?_⟩
  simp only [List.mem_cons, List.mem_nil_iff, or_false] at hk
  rcases hk with rfl | rfl | rfl | rfl <;> exact slot_put_other (by decide) (by decide) (.inr (by omega))

theorem snapOf_wf (p0 p1 p2 : Word) (ops : List (Slot × Chars)) : (snapOf p0 p1 p2 ops).data.wf := by
  have h : ∀ (l : List (Slot × Chars)) (n : Snap), n.data.wf → (l.foldl (fun n o => put n o.1 o.2) n).data.wf := by
    intro l
    induction l with
    | nil => exact fun _ h => h
    | cons o l ih => exact fun n h => ih _ (put_wf h _ _)
  exact h ops _ (blank_wf _ _ _)

/-- PVV_GEN completes without error, and its result stands in CHECK beside the other operands. -/
theorem witness_PvvSymmetry :
    let n := pinSnap 0x00000900#32 0#32 (hx 4 0x1234) (hx 4 0x7439)
    (busy n).mem.wf ∧ Holds n Slot.pin (hx 4 0x1234) ∧
      ∃ t, exec .pvvGen (busy n) = .next t ∧ t.status.err = false ∧
        Holds (put n Slot.check (resultString t)) Slot.check (resultString t) ∧
        ∀ k ∈ [Slot.key, Slot.pan, Slot.dectab, Slot.mask],
          (put n Slot.check (resultString t)).len k = n.len k ∧
            slot Config.params (put n Slot.check (resultString t)) k = slot Config.params n k := by
  obtain ⟨hk, hpan, ht, hpin, -, hv⟩ := witness_PvvCommandsComplete.1
  intro n
  have hw : n.data.wf := snapOf_wf _ _ _ _
  have k1 : pdkChk Config.params n = .ok (hx 32 0x1) := field_of_key hk
  have k2 : cardPan Config.params n = .ok (hx 16 0x4123456789012345) := field_of_legal hpan
  have k3 : decChk Config.params n = .ok defaultDectab := decChk_of_inForce ht
  have k4 : field Config.params n Slot.pin (oneOf [4]) isDec .invalidPinLength = .ok (hx 4 0x1234) := field_of_fixed hpin
  have hv : decide (n.pvki ≤ 9) = true := decide_eq_true hv
  have hh : Holds n Slot.pin (hx 4 0x1234) := hpin.1
  clear_value n
  have hl : ∀ x : Chars, (addDigits (hx 4 0x1234) x).length ≤ 12 := by
    intro x; rw [addDigits_length]; exact (Nat.min_le_left _ _).trans (by decide)
  refine ⟨reset_wf, hh, _, exec_ok (i := .pvvGen) (by decide) rfl (a := {
      result := addDigits (hx 4 0x1234)
        (tsp (naturalDigits Config.params (bytes (hx 32 0x1)) (hx 16 0x4123456789012345) defaultDectab) n.pvki) })
    (by simp only [ruleOf, pvvGen, k1, k2, k3, k4, hv, ok_bind, require_true]; rfl), rfl, ?_⟩
  rw [resultString_completeOk (s := busy n) reset_wf ((hl _).trans (by decide))]
  exact put_check hw (hl _)

/-- IBM_OFFSET_MASK completes without error on the mask "NN12", and its result stands in CHECK beside the others. -/
theorem witness_OffsetSymmetry_mask :
    let n := put (pinSnap 0#32 0#32 (hx 4 0x1234) (hx 4 0x1622)) Slot.mask [charN, charN, 0x31#8, 0x32#8]
    (busy n).mem.wf ∧ Holds n Slot.pin (hx 4 0x1234) ∧
      ∃ t, exec .ibmOffsetMask (busy n) = .next t ∧ t.status.err = false ∧
        Holds (put n Slot.check (resultString t)) Slot.check (resultString t) ∧
        ∀ k ∈ [Slot.key, Slot.pan, Slot.dectab, Slot.mask],
          (put n Slot.check (resultString t)).len k = n.len k ∧
            slot Config.params (put n Slot.check (resultString t)) k = slot Config.params n k := by
  obtain ⟨hm, hpin, -, -⟩ := witness_IbmCommandsComplete.2.2
  intro n
  have hw : n.data.wf := put_wf (snapOf_wf _ _ _ _) _ _
  have k1 : pdkChk Config.params n = .ok (hx 32 0x1) := field_of_key (legalKey (by decide +kernel) (by decide))
  have k2 : cardPan Config.params n = .ok (hx 16 0x4123456789012345) := field_of_legal (legal (by decide +kernel))
  have k3 : decChk Config.params n = .ok defaultDectab := decChk_of_inForce (.inl ⟨by decide +kernel, rfl⟩)
  have k4 : maskChk Config.params n = .ok [charN, charN, 0x31#8, 0x32#8] := maskChk_ok_iff.2 hm
  have k5 : field Config.params n Slot.pin (oneOf [4]) isDec .invalidPinLength = .ok (hx 4 0x1234) := field_of_fixed hpin
  have hh : Holds n Slot.pin (hx 4 0x1234) := hpin.1
  clear_value n
  have hl : ∀ x : Chars, (subDigits (hx 4 0x1234) x).length ≤ 12 := by
    intro x; rw [subDigits_length]; exact (Nat.min_le_left _ _).trans (by decide)
  refine ⟨reset_wf, hh, _, exec_ok (i := .ibmOffsetMask) (by decide) rfl (a := {
      result := subDigits (hx 4 0x1234) (vdMask [charN, charN, 0x31#8, 0x32#8]
        (naturalDigits Config.params (bytes (hx 32 0x1)) (hx 16 0x4123456789012345) defaultDectab)) })
    (by simp only [ruleOf, ibmOffsetMask, k1, k2, k3, k4, List.length_cons, List.length_nil, k5, ok_bind]; rfl), rfl, ?_⟩
  rw [resultString_completeOk (s := busy n) reset_wf ((hl _).trans (by decide))]
  exact put_check hw (hl _)

/-- IBM_OFFSET completes without error, and its result stands in CHECK beside the other operands. -/
theorem witness_OffsetSymmetry :
    let n := pinSnap 0x040C0000#32 0x00003004#32 (hx 4 0x1234) (hx 4 0x1614)
    (busy n).mem.wf ∧ Holds n Slot.pin (hx 4 0x1234) ∧
      ∃ t, exec .ibmOffset (busy n) = .next t ∧ t.status.err = false ∧
        Holds (put n Slot.check (resultString t)) Slot.check (resultString t) ∧
        ∀ k ∈ [Slot.key, Slot.pan, Slot.dectab, Slot.mask],
          (put n Slot.check (resultString t)).len k = n.len k ∧
            slot Config.params (put n Slot.check (resultString t)) k = slot Config.params n k := by
  obtain ⟨hv, hlen, hk, hpan, ht, hpin, -⟩ := witness_IbmCommandsComplete.1
  intro n
  have hw : n.data.wf := snapOf_wf _ _ _ _
  have k1 : pdkChk Config.params n = .ok (hx 32 0x1) := field_of_key hk
  have k2 : cardPan Config.params n = .ok (hx 16 0x4123456789012345) := field_of_legal hpan
  have k3 : decChk Config.params n = .ok defaultDectab := decChk_of_inForce ht
  have k4 : vdParamsChk n = .ok () := vdParamsChk_ok_iff.2 hv
  have k5 : field Config.params n Slot.pin (oneOf [4]) isDec .invalidPinLength = .ok (hx 4 0x1234) := field_of_fixed hpin
  have hlen : n.pinlen = 4 := hlen
  have hh : Holds n Slot.pin (hx 4 0x1234) := hpin.1
  clear_value n
  have hl : ∀ x : Chars, (subDigits (hx 4 0x1234) x).length ≤ 12 := by
    intro x; rw [subDigits_length]; exact (Nat.min_le_left _ _).trans (by decide)
  refine ⟨reset_wf, hh, _, exec_ok (i := .ibmOffset) (by decide) rfl (a := {
      result := subDigits (hx 4 0x1234)
        (vdParams n (naturalDigits Config.params (bytes (hx 32 0x1)) (hx 16 0x4123456789012345) defaultDectab)) })
    (by simp only [ruleOf, ibmOffset, k1, k2, k3, k4, hlen, k5, ok_bind]; rfl), rfl, ?_⟩
  rw [resultString_completeOk (s := busy n) reset_wf ((hl _).trans (by decide))]
  exact put_check hw (hl _)

end Sys2Proof.Tests
end

section
/-! PROOFS. Triple DES: what each DES call sees of a key made of 8-byte parts, and that decryption undoes encryption. -/

namespace Sys2Proof.Machine

/-! ## The parts of a key -/

/-- DES takes the first 8 bytes of its key; what follows them is not read (R8). -/
theorem desE_append (P : Params) {k : Bytes} (hk : k.length = 8) (r : Bytes) (x : Block) :
    desE P (k ++ r) x = P.desE (toBits 64 k) x := by
  rw [desE, List.take_left' hk]

theorem desD_append (P : Params) {k : Bytes} (hk : k.length = 8) (r : Bytes) (x : Block) :
    desD P (k ++ r) x = P.desD (toBits 64 k) x := by
  rw [desD, List.take_left' hk]

/-- `DES_E` under a key of exactly one part. -/
theorem desE_part (P : Params) {k : Bytes} (hk : k.length = 8) (x : Block) :
    desE P k x = P.desE (toBits 64 k) x := by
  rw [desE, List.take_of_length_le hk.le]

theorem desD_part (P : Params) {k : Bytes} (hk : k.length = 8) (x : Block) :
    desD P k x = P.desD (toBits 64 k) x := by
  rw [desD, List.take_of_length_le hk.le]

/-- A 16-byte key's third part is its first (R9): `desE` and `desD` read the first 8 bytes of what `thirdKey` answers. -/
theorem thirdKey_two_parts {k1 k2 : Bytes} (h1 : k1.length = 8) (h2 : k2.length = 8) :
    thirdKey (k1 ++ k2) = k1 ++ k2 :=
  if_neg (by simp [h1, h2])

theorem thirdKey_three_parts {k1 k2 k3 : Bytes} (h1 : k1.length = 8) (h2 : k2.length = 8) (h3 : k3.length = 8) :
    thirdKey (k1 ++ k2 ++ k3) = k3 := by
  rw [thirdKey, if_pos (by simp [h1, h2, h3]), List.drop_left' (by simp [h1, h2])]

/-! ## The composition under two and three parts -/

theorem tdesE_two_parts (P : Params) {k1 k2 : Bytes} (h1 : k1.length = 8) (h2 : k2.length = 8) (x : Block) :
    tdesE P (k1 ++ k2) x = P.desE (toBits 64 k1) (P.desD (toBits 64 k2) (P.desE (toBits 64 k1) x)) := by
  rw [tdesE, thirdKey_two_parts h1 h2, List.drop_left' h1, desE_append P h1, desD_part P h2, desE_append P h1]

theorem tdesD_two_parts (P : Params) {k1 k2 : Bytes} (h1 : k1.length = 8) (h2 : k2.length = 8) (x : Block) :
    tdesD P (k1 ++ k2) x = P.desD (toBits 64 k1) (P.desE (toBits 64 k2) (P.desD (toBits 64 k1) x)) := by
  rw [tdesD, thirdKey_two_parts h1 h2, List.drop_left' h1, desD_append P h1, desE_part P h2, desD_append P h1]

theorem tdesE_three_parts (P : Params) {k1 k2 k3 : Bytes} (h1 : k1.length = 8) (h2 : k2.length = 8)
    (h3 : k3.length = 8) (x : Block) :
    tdesE P (k1 ++ k2 ++ k3) x = P.desE (toBits 64 k3) (P.desD (toBits 64 k2) (P.desE (toBits 64 k1) x)) := by
  rw [tdesE, thirdKey_three_parts h1 h2 h3, List.append_assoc, List.drop_left' h1, desE_append P h1,
    desD_append P h2, desE_part P h3]

theorem tdesD_three_parts (P : Params) {k1 k2 k3 : Bytes} (h1 : k1.length = 8) (h2 : k2.length = 8)
    (h3 : k3.length = 8) (x : Block) :
    tdesD P (k1 ++ k2 ++ k3) x = P.desD (toBits 64 k1) (P.desE (toBits 64 k2) (P.desD (toBits 64 k3) x)) := by
  rw [tdesD, thirdKey_three_parts h1 h2 h3, List.append_assoc, List.drop_left' h1, desD_part P h3,
    desE_append P h2, desD_append P h1]

/-! ## Decryption undoes encryption -/

theorem desD_desE {P : Params} (h : P.CipherLawful) (k : Bytes) (x : Block) : desD P k (desE P k x) = x :=
  h.1 _ x

theorem desE_desD {P : Params} (h : P.CipherLawful) (k : Bytes) (x : Block) : desE P k (desD P k x) = x :=
  desE_desD_of_lawful h _ x

/-- The three DES calls cancel from the inside out, whatever the key's length. The middle pair is `DES_E` after `DES_D`,
which R8 does not assume: it follows since the blocks are finite in number. -/
theorem tdesD_tdesE {P : Params} (h : P.CipherLawful) (k : Bytes) (x : Block) : tdesD P k (tdesE P k x) = x := by
  rw [tdesD, tdesE, desD_desE h (thirdKey k), desE_desD h (k.drop 8), desD_desE h k]

/-- Settles O35: the composition part by part for both key lengths, and its inverse under the assumption of R8. -/
theorem tripleDesComposition : Obligations.TripleDesComposition := by
  intro P k1 k2 k3 x h1 h2 h3
  exact ⟨tdesE_two_parts P h1 h2 x, tdesE_three_parts P h1 h2 h3 x, tdesD_two_parts P h1 h2 x,
    tdesD_three_parts P h1 h2 h3 x, fun h => ⟨tdesD_tdesE h _ x, tdesD_tdesE h _ x⟩⟩

end Sys2Proof.Machine
end

section
/-! PROOFS. What every step keeps: a property of the block's state that each operation keeps is kept by every step, and
the invariants of R24, R29, R36, R271 and of the window memory are such properties. -/

namespace Sys2Proof.Machine

/-! ## From the operations to a step (R69, R305) -/

/-- The states agree on every field that an invariant of the block speaks of. -/
structure AgreeOnInvariantFields (s t : State) : Prop where
  cmd : t.cmd = s.cmd
  status : t.status = s.status
  snap : t.snap = s.snap
  mem : t.mem = s.mem
  resultLen : t.resultLen = s.resultLen

/-- The property holds at reset, and every operation of the block keeps it. The registers of which no invariant speaks
need no operation of their own: `frame` covers their writes. -/
structure KeptByOperations (I : State → Prop) : Prop where
  reset : I State.reset
  frame : ∀ {s t}, I s → AgreeOnInvariantFields s t → I t
  issue : ∀ {s} (w), I s → I (s.issue Config.params w)
  overrun : ∀ {s}, I s → I { s with status := s.status.overran }
  writeBuffer : ∀ {s} (a v), I s → I (s.writeBuffer Config.params a v)
  zeroize : ∀ {s}, I s → I (s.zeroizeOperands Config.params)
  completeOk : ∀ {s} {a : Answer}, Showable a.result → I s → I (s.completeOk a)
  completeErr : ∀ {s} (e), I s → I (s.completeErr e)

namespace KeptByOperations

variable {I : State → Prop} {s t : State}

theorem writeCmd (h : KeptByOperations I) (hs : I s) (w : Word) : I (s.writeCmd Config.params w) := by
  unfold State.writeCmd
  split
  · exact h.overrun hs
  · exact h.issue w hs

theorem writeWord (h : KeptByOperations I) (hs : I s) (off : Nat) (v : Word) :
    I (s.writeWord Config.params off v) := by
  rcases State.writeWord_cases Config.params s off v with
    ⟨-, e⟩ | ⟨-, e⟩ | ⟨-, e⟩ | ⟨-, e⟩ | ⟨k, -, e⟩ | ⟨-, e⟩ | e <;> rw [e]
  case inl => exact h.writeCmd hs v
  case inr.inr.inr.inr.inr.inl => exact h.writeBuffer off v hs
  all_goals exact h.frame hs ⟨rfl, rfl, rfl, rfl, rfl⟩

theorem respond (h : KeptByOperations I) (hs : I s) (r : BusResponse) : I (s.respond r) :=
  h.frame hs ⟨rfl, rfl, rfl, rfl, rfl⟩

theorem access (h : KeptByOperations I) (hs : I s) (a : Access) : I (State.access Config.params s a) := by
  rcases State.access_cases Config.params s a with ⟨-, e⟩ | ⟨-, -, e⟩ | ⟨v, -, -, e⟩ <;> rw [e]
  · exact h.respond hs _
  · exact h.respond hs _
  · exact h.respond (h.writeWord hs _ v) _

theorem completionBase (h : KeptByOperations I) (hs : I s) (i : Instr) : I (completionBase i s) := by
  unfold Machine.completionBase
  split
  · exact h.zeroize hs
  · exact hs

theorem complete_ruleOf (h : KeptByOperations I) (hs : I s) (P : Params) (i : Instr) (d : Nat) (n : Snap) :
    I (s.complete (ruleOf P i d n)) := by
  cases hr : ruleOf P i d n with
  | ok a => exact h.completeOk (ruleOf_showable hr) hs
  | error e => exact h.completeErr e hs

theorem engineTurn (h : KeptByOperations I) (hs : I s) (ht : engineTurn s = .next t) : I t := by
  rcases engineTurn_next ht with ⟨-, rfl⟩ | ⟨-, n, -, ⟨i, -, rfl⟩ | ⟨-, rfl⟩⟩
  · exact hs
  · exact h.complete_ruleOf (h.completionBase hs i) _ i _ n
  · exact h.completeErr _ hs

/-- A property that holds at reset and that every operation keeps is kept by every step. -/
theorem step (h : KeptByOperations I) (hs : I s) (ht : step s = .next t) : I t := by
  have hev : ∀ rest, I { s with events := rest } := fun _ => h.frame hs ⟨rfl, rfl, rfl, rfl, rfl⟩
  rcases step_next ht with ⟨-, ht⟩ | ⟨rest, -, ht⟩ | ⟨a, rest, -, rfl⟩ | ⟨rest, -, rfl⟩
  · exact h.engineTurn hs ht
  · exact h.engineTurn (hev rest) ht
  · exact h.access (hev rest) a
  · exact h.frame h.reset ⟨rfl, rfl, rfl, rfl, rfl⟩

/-- Two properties that are kept side by side. -/
theorem and {J : State → Prop} (hI : KeptByOperations I) (hJ : KeptByOperations J) :
    KeptByOperations fun s => I s ∧ J s where
  reset := ⟨hI.reset, hJ.reset⟩
  frame h hst := ⟨hI.frame h.1 hst, hJ.frame h.2 hst⟩
  issue w := And.imp (hI.issue w) (hJ.issue w)
  overrun := And.imp hI.overrun hJ.overrun
  writeBuffer a v := And.imp (hI.writeBuffer a v) (hJ.writeBuffer a v)
  zeroize := And.imp hI.zeroize hJ.zeroize
  completeOk ha := And.imp (hI.completeOk ha) (hJ.completeOk ha)
  completeErr e := And.imp (hI.completeErr e) (hJ.completeErr e)

end KeptByOperations

/-! ## STATUS and the command in flight (R24, R36, R271) -/

/-- The code of every error is nonzero, which sets it apart from ERRCODE after a completion without error (R24, R300). -/
theorem ErrCode.code_ne_zero (e : ErrCode) : e.code ≠ 0#8 := by cases e <;> decide

theorem statusInv_kept : KeptByOperations StatusInv where
  reset := by simp [StatusInv, State.reset]
  frame h hst := by rwa [StatusInv, hst.status]
  issue w _ := by simp [StatusInv]
  overrun h := h
  writeBuffer _ _ h := h
  zeroize h := h
  completeOk _ _ := by simp [StatusInv]
  completeErr e _ := by simp [StatusInv, e.code_ne_zero]

/-- An issue creates SNAP and sets BUSY, a completion discards SNAP and clears BUSY; neither CMD nor LAST_OP changes
without the other. -/
theorem flightInv_kept : KeptByOperations FlightInv where
  reset := by simp [FlightInv, State.reset, opcodeField]
  frame h hst := by rwa [FlightInv, hst.cmd, hst.status, hst.snap]
  issue w _ := by simp [FlightInv]
  overrun h := h
  writeBuffer _ _ h := h
  zeroize h := h
  completeOk _ := fun ⟨_, _, hop⟩ => ⟨by simp, by simp, hop⟩
  completeErr _ := fun ⟨_, _, hop⟩ => ⟨by simp, by simp, hop⟩

/-- Settles O22: each of the two invariants is kept by every operation of the block, so by every step. -/
theorem statusAndFlightKept : Obligations.StatusAndFlightKept := by
  intro s t hst hfl ht
  exact (statusInv_kept.and flightInv_kept).step ⟨hst, hfl⟩ ht

/-! ## The window memory and the snapshot (R22, R63, R270) -/

/-- A cell of a memory with some offsets cleared is an old one. -/
theorem Memory.mem_of_mem_clear {m : Memory} {p : Nat → Bool} {c : Host.Cell} (h : c ∈ m.clear p) : c ∈ m :=
  List.mem_of_mem_filter h

/-- A cell of what is kept of a memory stands at a kept offset. -/
theorem Memory.offset_of_mem_keep {m : Memory} {p : Nat → Bool} {c : Host.Cell} (h : c ∈ m.keep p) : p c.1 = true :=
  (List.mem_filter.1 h).2

/-- A completion adds cells in RESULT only. -/
theorem Memory.mem_setResult {m : Memory} {r : Chars} {c : Host.Cell} (h : c ∈ m.setResult r) :
    isResultByte c.1 = true ∨ c ∈ m := by
  rcases Memory.mem_writeBytes h with ⟨hlo, hhi⟩ | h
  · rw [List.length_take] at hhi
    exact .inl (isResultByte_iff.2 (by omega))
  · exact .inr (Memory.mem_of_mem_clear h)

/-- A bus write adds cells in slot data only. -/
theorem State.mem_writeBuffer {P : Params} {s : State} {a : Nat} {v : Word} {c : Host.Cell}
    (h : c ∈ (s.writeBuffer P a v).mem) : c ∈ s.mem ∨ isSlotByte P c.1 = true := by
  rcases Memory.mem_hostWrite h with h | h
  · rcases Memory.mem_hostWrite h with h | h
    · rcases Memory.mem_hostWrite h with h | h
      · exact Memory.mem_hostWrite h
      · exact .inr h
    · exact .inr h
  · exact .inr h

/-- RESULT written by a completion keeps the memory's form and offsets. -/
theorem memoryInv_setResult {s t : State} {r : Chars} (h : MemoryInv s) (ht : t.mem = s.mem.setResult r) :
    MemoryInv t := by
  obtain ⟨hwf, hoff⟩ := h
  rw [MemoryInv, ht]
  refine ⟨Memory.wf_setResult hwf r, fun c hc => ?_⟩
  rcases Memory.mem_setResult hc with hc | hc
  · exact .inl hc
  · exact hoff c hc

theorem memoryInv_kept : KeptByOperations MemoryInv where
  reset := ⟨Memory.wf_nil, fun _ hc => (List.not_mem_nil hc).elim⟩
  frame h hst := by rwa [MemoryInv, hst.mem]
  issue _ h := h
  overrun h := h
  writeBuffer := by
    rintro s a v ⟨hwf, hoff⟩
    refine ⟨State.writeBuffer_wf _ hwf a v, fun c hc => ?_⟩
    rcases State.mem_writeBuffer hc with hc | hc
    · exact hoff c hc
    · exact .inr hc
  zeroize := fun ⟨hwf, hoff⟩ => ⟨Memory.wf_clear hwf _, fun c hc => hoff c (Memory.mem_of_mem_clear hc)⟩
  completeOk _ h := memoryInv_setResult h rfl
  completeErr _ h := memoryInv_setResult h rfl

theorem snapInv_of_snap_none {s : State} (h : s.snap = none) : SnapInv s := by simp [SnapInv, h]

/-- The snapshot taken at an issue inherits the memory's canonical form and holds operand bytes alone (R270). -/
theorem snapInv_issue {s : State} (h : MemoryInv s) (w : Word) : SnapInv (s.issue Config.params w) := by
  intro n hn
  obtain rfl : s.snapshot Config.params w = n := by simpa using hn
  exact ⟨Memory.wf_keep h.1 _, fun c hc => Memory.offset_of_mem_keep hc⟩

/-- The snapshot is made of the memory at an issue, so its invariant is kept together with the memory's. -/
theorem memoryInv_snapInv_kept : KeptByOperations fun s => MemoryInv s ∧ SnapInv s where
  reset := ⟨memoryInv_kept.reset, snapInv_of_snap_none rfl⟩
  frame h hst := ⟨memoryInv_kept.frame h.1 hst, by rw [SnapInv, hst.snap]; exact h.2⟩
  issue w h := ⟨memoryInv_kept.issue w h.1, snapInv_issue h.1 w⟩
  overrun h := h
  writeBuffer a v h := ⟨memoryInv_kept.writeBuffer a v h.1, h.2⟩
  zeroize h := ⟨memoryInv_kept.zeroize h.1, h.2⟩
  completeOk ha h := ⟨memoryInv_kept.completeOk ha h.1, snapInv_of_snap_none rfl⟩
  completeErr e h := ⟨memoryInv_kept.completeErr e h.1, snapInv_of_snap_none rfl⟩

/-- Settles O23: the two invariants are kept together by every operation. -/
theorem memoryAndSnapshotKept : Obligations.MemoryAndSnapshotKept := by
  intro s t hm hs ht
  exact memoryInv_snapInv_kept.step ⟨hm, hs⟩ ht

/-! ## RESULT (R29, R272) -/

/-- Only RESULT_LEN and the bytes of RESULT matter to the invariant of RESULT. -/
theorem resultInv_congr {s t : State} (hlen : t.resultLen = s.resultLen)
    (hmem : ∀ x, isResultByte x = true → Memory.read t.mem x = Memory.read s.mem x) (h : ResultInv s) : ResultInv t := by
  obtain ⟨hle, hhex, hzero⟩ := h
  rw [ResultInv, hlen]
  refine ⟨hle, fun k hk => ?_, fun k hk hk' => ?_⟩
  · rw [hmem _ (resultByte_of_lt (by omega))]; exact hhex k hk
  · rw [hmem _ (resultByte_of_lt hk')]; exact hzero k hk hk'

/-- A completion that leaves a showable string and its length leaves RESULT as R29 asks. -/
theorem resultInv_setResult {s t : State} {r : Chars} (hwf : s.mem.wf) (hr : Showable r)
    (hmem : t.mem = s.mem.setResult r) (hlen : t.resultLen = BitVec.ofNat 32 r.length) : ResultInv t := by
  obtain ⟨hle, hhex⟩ := hr
  have hlen' : t.resultLen.toNat = r.length := by rw [hlen, BitVec.toNat_ofNat]; omega
  rw [ResultInv, hlen', hmem]
  refine ⟨hle, fun k hk => ?_, fun k hk hk' => ?_⟩
  · rw [Memory.read_setResult hwf r (by omega), List.getD_eq_getElem _ _ hk]
    exact hhex _ (List.getElem_mem hk)
  · rw [Memory.read_setResult hwf r hk', List.getD_eq_default _ _ hk]

/-- A completion writes RESULT into a canonical memory, so RESULT's invariant is kept together with the memory's. -/
theorem memoryInv_resultInv_kept : KeptByOperations fun s => MemoryInv s ∧ ResultInv s where
  reset := ⟨memoryInv_kept.reset, by simp [ResultInv, State.reset]⟩
  frame h hst := ⟨memoryInv_kept.frame h.1 hst, resultInv_congr hst.resultLen (fun _ _ => by rw [hst.mem]) h.2⟩
  issue _ h := h
  overrun h := h
  writeBuffer a v h := ⟨memoryInv_kept.writeBuffer a v h.1, resultInv_congr (State.writeBuffer_resultLen _ _ a v)
    (fun _ hx => State.writeBuffer_noslot _ _ a v (isSlotByte_of_isResultByte hx)) h.2⟩
  zeroize h := ⟨memoryInv_kept.zeroize h.1, resultInv_congr (State.zeroizeOperands_resultLen _ _)
    (fun _ hx => by simp [isSlotByte_of_isResultByte hx]) h.2⟩
  completeOk ha h := ⟨memoryInv_kept.completeOk ha h.1, resultInv_setResult h.1.1 ha rfl rfl⟩
  completeErr e h := ⟨memoryInv_kept.completeErr e h.1, resultInv_setResult h.1.1 showable_nil rfl rfl⟩

/-- Settles O24: the invariant of RESULT is kept together with that of the memory. -/
theorem resultStringKept : Obligations.ResultStringKept := by
  intro s t hm hr ht
  obtain ⟨-, hr'⟩ := memoryInv_resultInv_kept.step ⟨hm, hr⟩ ht
  exact hr'

/-- Settles O8: each invariant the steps keep holds at reset. -/
theorem resetMeetsInvariants : Obligations.ResetMeetsInvariants :=
  ⟨statusInv_kept.reset, flightInv_kept.reset, memoryInv_kept.reset, memoryInv_snapInv_kept.reset.2,
    memoryInv_resultInv_kept.reset.2⟩

end Sys2Proof.Machine
end

section
/-! PROOFS. The window and the operands: what an aligned access does at each kind of offset (R62, R63), the registers the
host stores into (R65), and the operand string with its check (R32, R34). -/

namespace Sys2Proof.Machine

/-! ## An accepted access (R62) -/

theorem State.access_rd (P : Params) (s : State) {off : BitVec 16} (h4 : off.toNat % 4 = 0) :
    State.access P s (rd off) = s.respond (.data (s.readWord P off.toNat)) := by
  simp [State.access, rd, Access.accepted, h4]

theorem State.access_wr (P : Params) (s : State) {off : BitVec 16} (v : Word) (h4 : off.toNat % 4 = 0) :
    State.access P s (wr off v) = (s.writeWord P off.toNat v).respond .written := by
  simp [State.access, wr, Access.accepted, h4]

/-! ## Offsets that are reserved or read-only (R63, R27) -/

/-- What stands at or above `0x1000 + DATA_MAX` is neither RESULT nor slot data (R31). -/
theorem reserved_above_data {P : Params} {a : Nat} (h : 0x1000 + P.dataMax ≤ a) :
    isResultByte a = false ∧ isSlotByte P a = false := by
  constructor
  · rw [Bool.eq_false_iff, Ne, isResultByte_iff]; omega
  · rw [Bool.eq_false_iff, Ne, isSlotByte_iff]; omega

theorem State.windowByte_above_data {P : Params} (s : State) {a : Nat} (h : 0x1000 + P.dataMax ≤ a) :
    s.windowByte P a = 0#8 := by
  obtain ⟨hr, hs⟩ := reserved_above_data h
  simp [State.windowByte, hr, hs]

theorem Memory.hostWrite_noslot {P : Params} {a : Nat} (m : Memory) (b : Byte) (h : isSlotByte P a = false) :
    m.hostWrite P a b = m := by
  simp [Memory.hostWrite, h]

/-- A bus word with no byte of slot data in it ignores a write. -/
theorem State.writeBuffer_eq_self {P : Params} (s : State) {a : Nat} (v : Word)
    (h : ∀ j, j < 4 → isSlotByte P (a + j) = false) : s.writeBuffer P a v = s := by
  have h0 : isSlotByte P a = false := h 0 (by decide)
  simp only [State.writeBuffer, Memory.hostWrite_noslot _ _ h0, Memory.hostWrite_noslot _ _ (h 1 (by decide)),
    Memory.hostWrite_noslot _ _ (h 2 (by decide)), Memory.hostWrite_noslot _ _ (h 3 (by decide))]

theorem State.writeWord_buffer {P : Params} (s : State) {off : Nat} (v : Word) (ht : targetOf off = .buffer) :
    s.writeWord P off v = s.writeBuffer P off v := by
  simp only [State.writeWord, ht]

theorem State.readWord_buffer {P : Params} (s : State) {off : Nat} (ht : targetOf off = .buffer) :
    s.readWord P off = s.bufferWord P off := by
  simp only [State.readWord, ht]

/-- The word offsets that R63 reserves: the gaps of the register map, and what lies above the DATA region. -/
def ReservedOffset (P : Params) (off : Nat) : Prop :=
  0x020 ≤ off ∧ off < 0x040 ∨ 0x07C ≤ off ∧ off < 0x100 ∨ 0x180 ≤ off ∧ off < 0x200 ∨ 0x580 ≤ off ∧ off < 0x1000 ∨
    0x1000 + P.dataMax ≤ off

/-- The word offsets that are not reserved and ignore writes (R24, R27, R29, R35). -/
def ReadOnlyOffset (off : Nat) : Prop :=
  off = 0x004 ∨ off = 0x014 ∨ off = 0x018 ∨ off = 0x01C ∨ 0x100 ≤ off ∧ off < 0x180

/-- A reserved offset is a gap of the register map, or a buffer word above the DATA region. -/
theorem ReservedOffset.cases {P : Params} {off : Nat} (h4 : off % 4 = 0) (h : ReservedOffset P off) :
    targetOf off = .reserved ∨ targetOf off = .buffer ∧ 0x1000 + P.dataMax ≤ off := by
  unfold ReservedOffset at h
  by_cases hgap : off < 0x1000
  · exact .inl ((targetOf_reserved h4).2 (by omega))
  · exact .inr ⟨targetOf_buffer.2 (by omega), by omega⟩

theorem State.readWord_reserved {P : Params} (s : State) {off : Nat} (h4 : off % 4 = 0) (h : ReservedOffset P off) :
    s.readWord P off = 0#32 := by
  rcases h.cases h4 with ht | ⟨ht, hd⟩
  · simp only [State.readWord, ht]
  · rw [s.readWord_buffer ht, State.bufferWord, s.windowByte_above_data hd, s.windowByte_above_data (by omega),
      s.windowByte_above_data (by omega), s.windowByte_above_data (by omega)]
    rfl

theorem State.writeWord_reserved {P : Params} (s : State) {off : Nat} (v : Word) (h4 : off % 4 = 0)
    (h : ReservedOffset P off) : s.writeWord P off v = s := by
  rcases h.cases h4 with ht | ⟨ht, hd⟩
  · simp only [State.writeWord, ht]
  · rw [s.writeWord_buffer v ht]
    exact s.writeBuffer_eq_self v fun j _ => (reserved_above_data (show 0x1000 + P.dataMax ≤ off + j by omega)).2

theorem State.writeWord_readOnly {P : Params} (s : State) {off : Nat} (v : Word) (h4 : off % 4 = 0)
    (h : ReadOnlyOffset off) : s.writeWord P off v = s := by
  rcases h with rfl | rfl | rfl | rfl | ⟨hlo, hhi⟩
  case inr.inr.inr.inr =>
    rw [s.writeWord_buffer v (targetOf_buffer.2 (.inl ⟨hlo, hhi⟩))]
    exact s.writeBuffer_eq_self v fun j _ => isSlotByte_of_isResultByte (isResultByte_iff.2 (by omega))
  all_goals rfl

/-- The four bytes of a bus word put together are the four bytes it is taken apart into (R61). -/
theorem bytesOfWord_wordOfBytes (b0 b1 b2 b3 : Byte) : bytesOfWord (wordOfBytes b0 b1 b2 b3) = [b0, b1, b2, b3] := by
  have lane : ∀ {lo : Nat} {b : Byte},
      (∀ i, i < 8 → (wordOfBytes b0 b1 b2 b3).getLsbD (lo + i) = b.getLsbD i) →
        (wordOfBytes b0 b1 b2 b3).extractLsb' lo 8 = b := by
    intro lo b h
    refine BitVec.eq_of_getLsbD_eq fun i hi => ?_
    rw [BitVec.getLsbD_extractLsb', decide_eq_true hi, Bool.true_and, h i hi]
  simp only [bytesOfWord, List.cons.injEq, and_true]
  refine ⟨lane fun i hi => ?_, lane fun i hi => ?_, lane fun i hi => ?_, lane fun i hi => ?_⟩
  all_goals
    simp only [wordOfBytes, BitVec.getLsbD_append]
    grind

/-- Lane `j` of a buffer's bus word is the byte at offset `j` of it (R61). -/
theorem State.extractLsb'_bufferWord (P : Params) (s : State) (a : Nat) {j : Nat} (h : j < 4) :
    (s.bufferWord P a).extractLsb' (8 * j) 8 = s.windowByte P (a + j) := by
  have hb : bytesOfWord (s.bufferWord P a) =
      [s.windowByte P a, s.windowByte P (a + 1), s.windowByte P (a + 2), s.windowByte P (a + 3)] :=
    bytesOfWord_wordOfBytes _ _ _ _
  simp only [bytesOfWord, List.cons.injEq, and_true] at hb
  obtain ⟨h0, h1, h2, h3⟩ := hb
  match j, h with
  | 0, _ => exact h0
  | 1, _ => exact h1
  | 2, _ => exact h2
  | 3, _ => exact h3

/-- Settles O28 for every DATA_MAX, legal or not: a reserved word is a gap of the register map or lies above the DATA
region, and in the word DATA_MAX ends in the reserved bytes are no slot bytes (log entry 13). -/
theorem reservedAndReadOnlyOffsets : Obligations.ReservedAndReadOnlyOffsets := by
  intro P s off v _ h4
  refine ⟨fun h => ?_, fun h => ?_, fun h => ?_, fun j hj h => ?_⟩
  · rw [State.access_rd P s h4, State.access_wr P s v h4, s.readWord_reserved h4 h, s.writeWord_reserved v h4 h]
    exact ⟨rfl, rfl⟩
  · rw [State.access_wr P s v h4, s.writeWord_readOnly v h4 h]
    rfl
  · rw [State.access_rd P s h4, h]
    rfl
  · have hbuf : targetOf off.toNat = .buffer := targetOf_buffer.2 (by omega)
    obtain ⟨-, -, -, -, hmem, -, -⟩ := State.access_frame P s (wr off v)
    rw [s.readWord_buffer hbuf, State.extractLsb'_bufferWord P s _ hj, s.windowByte_above_data h]
    exact ⟨rfl, hmem _ (reserved_above_data h).2⟩

/-! ## Registers the host stores into (R25, R26, R28, R33, R65) -/

theorem State.readWord_slotLen (P : Params) (s : State) (k : Slot) :
    s.readWord P (0x040 + 4 * k.val) = s.slotLen.get k := by
  simp only [State.readWord, targetOf_slotLen]

theorem State.writeWord_slotLen (P : Params) (s : State) (k : Slot) (v : Word) :
    s.writeWord P (0x040 + 4 * k.val) v = { s with slotLen := s.slotLen.set k.val v k.isLt } := by
  simp only [State.writeWord, targetOf_slotLen]

/-- The offset of a SLOT_LEN register fits the window (R33). -/
theorem slotLenOffset_toNat (k : Slot) : (BitVec.ofNat 16 (0x040 + 4 * k.val)).toNat = 0x040 + 4 * k.val := by
  rw [BitVec.toNat_ofNat]; omega

theorem State.access_wr_slotLen (P : Params) (s : State) (k : Slot) (v : Word) :
    State.access P s (wr (BitVec.ofNat 16 (0x040 + 4 * k.val)) v) =
      { s with slotLen := s.slotLen.set k.val v k.isLt, response := some .written } := by
  rw [State.access_wr P s v (by rw [slotLenOffset_toNat]; omega), slotLenOffset_toNat, State.writeWord_slotLen]
  rfl

/-- Settles O29: the PARAM registers by the register map, SLOT_LEN by the law of its register file. -/
theorem paramAndSlotLenWritesStore : Obligations.ParamAndSlotLenWritesStore := by
  refine ⟨fun s v => ?_, fun s v k => ?_⟩
  · have h0 := State.access_wr Config.params s v (off := 0x008#16) rfl
    have h1 := State.access_wr Config.params s v (off := 0x00C#16) rfl
    have h2 := State.access_wr Config.params s v (off := 0x010#16) rfl
    rw [h0, h1, h2]
    exact ⟨rfl, rfl, rfl, rfl, rfl, rfl⟩
  · dsimp only
    rw [slotLenOffset_toNat, State.readWord_slotLen, State.access_wr_slotLen]
    refine ⟨rfl, ?_, fun j hj => ?_, ?_⟩
    · rw [slotLen_get_set, if_pos rfl]
    · rw [slotLen_get_set, if_neg hj.symm]
    · rw [slotLen_get_set, if_pos rfl]

/-! ## The operand string (R32) -/

/-- A SLOT_LEN above the capacity makes the slot INVALID. -/
theorem slot_eq_none {P : Params} {n : Snap} {k : Slot} (h : cap P k < n.len k) : slot P n k = none :=
  if_neg (by omega)

theorem field_of_invalid {P : Params} {n : Snap} {k : Slot} (h : cap P k < n.len k) (lens : Nat → Bool)
    (set : Byte → Bool) (e : ErrCode) : field P n k lens set e = .error e := by
  rw [field, slot_eq_none h]

/-- Within a slot's capacity the snapshot shows the bytes of the issue (R270). -/
theorem chars_snapshot (P : Params) (s : State) (w : Word) {k : Slot} {l : Nat} (h : l ≤ cap P k) :
    (s.snapshot P w).chars k l = (List.range l).map fun i => Memory.read s.mem (slotBase k + i) := by
  refine List.map_congr_left fun i hi => ?_
  have hi' : i < cap P k := (List.mem_range.1 hi).trans_le h
  rw [State.snapshot_data, Memory.read_keep, if_pos (slot_offset P k hi').2]

theorem dataLengthChk_of_invalid {P : Params} {n : Snap} (h : cap P Slot.data < n.len Slot.data) :
    dataLengthChk P n = .error .invalidDataLength := by
  have hlt : P.dataMax < n.len Slot.data := h
  rw [dataLengthChk, decide_eq_false (by omega), Bool.false_and, require_false]

/-- The capacity of DECTAB is 16, so no other length passes R230. -/
theorem decChk_of_invalid {P : Params} {n : Snap} (h : cap P Slot.dectab < n.len Slot.dectab) :
    decChk P n = .error .invalidDecimalizationTable := by
  have hlt : 16 < n.len Slot.dectab := h
  rw [decChk, if_neg (by omega), if_neg (by omega)]

/-- The capacity of MASK is above every length R235 accepts. -/
theorem maskChk_of_invalid {P : Params} {n : Snap} (h : cap P Slot.mask < n.len Slot.mask) :
    maskChk P n = .error .invalidMask := by
  have hlt : 16 < n.len Slot.mask := h
  rw [maskChk, if_neg (by rw [between_iff]; omega)]

/-- Settles O31: the snapshot keeps every byte within a slot's capacity, and an INVALID slot has no string to check. -/
theorem operandStringOfIssue : Obligations.OperandStringOfIssue := by
  refine ⟨fun s w k => ?_, fun n k lens set e h => field_of_invalid h lens set e, fun n =>
    ⟨dataLengthChk_of_invalid, decChk_of_invalid, maskChk_of_invalid⟩⟩
  have hlen : (s.snapshot Config.params w).len k = (s.slotLen.get k).toNat := rfl
  rw [← hlen]
  split
  case isTrue h => rw [slot_of_le h, chars_snapshot _ s w h]
  case isFalse h => exact slot_eq_none (by omega)

/-! ## The operand check (R34) -/

/-- Every character of a slot's string is in the set exactly when every byte of the slot, up to its length, is. -/
theorem chars_all_iff {n : Snap} {k : Slot} {l : Nat} {set : Byte → Bool} :
    (n.chars k l).all set = true ↔ ∀ i, i < l → set (Memory.read n.data (slotBase k + i)) = true := by
  simp [Snap.chars]

theorem isDec_iff {c : Byte} : isDec c = true ↔ 0x30 ≤ c.toNat ∧ c.toNat ≤ 0x39 := by simp [isDec]

theorem isHex_iff {c : Byte} :
    isHex c = true ↔ 0x30 ≤ c.toNat ∧ c.toNat ≤ 0x39 ∨ 0x41 ≤ c.toNat ∧ c.toNat ≤ 0x46 := by
  simp [isHex, isDec_iff]

theorem isMask_iff {c : Byte} : isMask c = true ↔ 0x30 ≤ c.toNat ∧ c.toNat ≤ 0x39 ∨ c.toNat = 0x4E := by
  have hN : c = charN ↔ c.toNat = 0x4E := BitVec.toNat_inj.symm
  simp [isMask, isDec_iff, hN]

/-- Settles O32: the check is the two nested tests of `field_eq`, as every accepted length is within the capacity. -/
theorem operandCheckOrder : Obligations.OperandCheckOrder := by
  refine ⟨fun n k lens set e hcap => ?_, fun c => ⟨isDec_iff, isHex_iff, isMask_iff⟩⟩
  rw [field_eq (hcap _)]
  refine ⟨fun hl => ?_, fun hl ⟨i, hi, hc⟩ => ?_, fun hl hall => ?_⟩
  · rw [hl, if_neg Bool.false_ne_true]
  · have hnot : ¬ (n.chars k (n.len k)).all set = true := fun h => by
      simp [chars_all_iff.1 h i hi] at hc
    rw [if_pos hl, if_neg hnot]
  · rw [if_pos hl, if_pos (chars_all_iff.2 hall)]
    exact ⟨_, slot_of_le (hcap _ hl), rfl⟩

end Sys2Proof.Machine
end

section
/-! PROOFS. The host's accesses: the step each event takes (R69, R305), the bus error (R62, R317), reads and repeated
writes (R65), the byte lanes of a bus word (R61), and what a run of accesses keeps (R70, R73). -/

namespace Sys2Proof.Machine

/-! ## The step of each event (R69, R305) -/

theorem step_of_access {s : State} {a : Access} {rest : List Event} (h : s.events = .access a :: rest) :
    step s = .next (State.access Config.params { s with events := rest } a) := by
  rw [step, h]

theorem step_of_reset {s : State} {rest : List Event} (h : s.events = .reset :: rest) :
    step s = .next (State.resetBlock { s with events := rest }) := by
  rw [step, h]

theorem step_of_engine {s : State} {rest : List Event} (h : s.events = .engine :: rest) :
    step s = engineTurn { s with events := rest } := by
  rw [step, h]

theorem step_of_no_event {s : State} (h : s.events = []) : step s = engineTurn s := by
  rw [step, h]

/-- With no command in flight the engine's turn changes nothing (R272). -/
theorem engineTurn_idle {s : State} (h : s.status.busy = false) : engineTurn s = .next s := by
  rw [engineTurn, h, if_neg Bool.false_ne_true]

/-- Settles O4: one step equation for each form of the event list. -/
theorem stepTakesEventsInOrder : Obligations.StepTakesEventsInOrder := by
  refine ⟨fun s a rest h => step_of_access h, fun s rest h => step_of_reset h, fun s rest h hb => ?_, fun s h hb => ?_⟩
  · rw [step_of_engine h]
    exact engineTurn_idle hb
  · rw [step_of_no_event h]
    exact engineTurn_idle hb

/-! ## The bus error (R62, R317) -/

theorem State.access_of_not_accepted (P : Params) (s : State) {a : Access}
    (h : ¬ (a.width = 4 ∧ a.offset.toNat % 4 = 0)) : State.access P s a = s.respond (.busError 0#32) :=
  if_neg fun ha => h (accepted_iff.1 ha)

/-- An accepted access is answered with data or with "written". -/
theorem State.access_response_of_accepted (P : Params) (s : State) {a : Access} (h : a.accepted = true) (v : Word) :
    (State.access P s a).response ≠ some (.busError v) := by
  rcases State.access_cases P s a with ⟨hn, -⟩ | ⟨-, -, e⟩ | ⟨w, -, -, e⟩
  · simp [h] at hn
  · simp [e]
  · simp [e]

/-- Settles O26: a refused access only answers, an accepted one never answers with a bus error. -/
theorem busErrorExactly : Obligations.BusErrorExactly := by
  intro s a rest h
  rw [step_of_access h]
  refine ⟨fun hn => ?_, fun hacc => ⟨_, rfl, State.access_response_of_accepted _ _ (accepted_iff.2 hacc)⟩⟩
  rw [State.access_of_not_accepted _ _ hn]
  rfl

/-! ## The byte lanes of a bus word (R61) -/

/-- The word that holds a stored byte is a buffer word. -/
theorem targetOf_of_stored {P : Params} {off j : Nat} (h4 : off % 4 = 0) (hj : j < 4)
    (h : isSlotByte P (off + j) = true ∨ isResultByte (off + j) = true) : targetOf off = .buffer := by
  rw [isSlotByte_iff, isResultByte_iff] at h
  exact targetOf_buffer.2 (by omega)

theorem State.windowByte_of_stored {P : Params} (s : State) {x : Nat}
    (h : isSlotByte P x = true ∨ isResultByte x = true) : s.windowByte P x = Memory.read s.mem x :=
  if_pos (by simpa [or_comm] using h)

/-- A bus write changes no byte outside its word, whatever the form of the memory. -/
theorem State.read_writeBuffer_other (P : Params) (s : State) {a x : Nat} (v : Word) (h : x < a ∨ a + 4 ≤ x) :
    Memory.read (s.writeBuffer P a v).mem x = Memory.read s.mem x := by
  rw [State.writeBuffer, Memory.read_hostWrite_other _ _ _ (by omega), Memory.read_hostWrite_other _ _ _ (by omega),
    Memory.read_hostWrite_other _ _ _ (by omega), Memory.read_hostWrite_other _ _ _ (by omega)]

/-- A byte of slot data reads as the lane of the bus word last written over it. -/
theorem State.read_writeBuffer_lane {P : Params} {s : State} (hm : s.mem.wf) (a : Nat) (v : Word) {j : Nat} (hj : j < 4)
    (hs : isSlotByte P (a + j) = true) :
    Memory.read (s.writeBuffer P a v).mem (a + j) = v.extractLsb' (8 * j) 8 := by
  have h1 := Memory.wf_hostWrite P hm a (v.extractLsb' 0 8)
  have h2 := Memory.wf_hostWrite P h1 (a + 1) (v.extractLsb' 8 8)
  have h3 := Memory.wf_hostWrite P h2 (a + 2) (v.extractLsb' 16 8)
  match j, hj with
  | 0, _ =>
    rw [State.writeBuffer, Memory.read_hostWrite_other _ _ _ (by omega), Memory.read_hostWrite_other _ _ _ (by omega),
      Memory.read_hostWrite_other _ _ _ (by omega)]
    exact Memory.read_hostWrite_same hm _ hs
  | 1, _ =>
    rw [State.writeBuffer, Memory.read_hostWrite_other _ _ _ (by omega), Memory.read_hostWrite_other _ _ _ (by omega)]
    exact Memory.read_hostWrite_same h1 _ hs
  | 2, _ =>
    rw [State.writeBuffer, Memory.read_hostWrite_other _ _ _ (by omega)]
    exact Memory.read_hostWrite_same h2 _ hs
  | 3, _ => exact Memory.read_hostWrite_same h3 _ hs

theorem State.writeCmd_mem (P : Params) (s : State) (w : Word) : (s.writeCmd P w).mem = s.mem := by
  unfold State.writeCmd
  split <;> rfl

theorem State.read_writeWord_other (P : Params) (s : State) {off x : Nat} (v : Word) (h : x < off ∨ off + 4 ≤ x) :
    Memory.read (s.writeWord P off v).mem x = Memory.read s.mem x := by
  cases ht : targetOf off with
  | cmd => simp only [State.writeWord, ht, State.writeCmd_mem]
  | buffer => rw [s.writeWord_buffer v ht, s.read_writeBuffer_other P v h]
  | _ => simp only [State.writeWord, ht]

/-- An access changes no byte outside the four at its offset. -/
theorem State.read_access_other (P : Params) (s : State) (a : Access) {x : Nat}
    (h : x < a.offset.toNat ∨ a.offset.toNat + 4 ≤ x) :
    Memory.read (State.access P s a).mem x = Memory.read s.mem x := by
  rcases State.access_cases P s a with ⟨-, e⟩ | ⟨-, -, e⟩ | ⟨v, -, -, e⟩ <;> rw [e, State.respond_mem]
  exact s.read_writeWord_other P v h

/-- Settles O30: a stored byte stands in a buffer word, whose lanes are read and written one by one; the registers by
the register map. -/
theorem busWordsCarryByteLanes : Obligations.BusWordsCarryByteLanes := by
  refine ⟨fun s off j h4 hj hx => ?_, fun s off v j hm h4 hj hx => ?_, fun s off v a h => ?_, fun s off v a h => ?_,
    fun s => ⟨rfl, rfl, rfl, rfl, rfl, rfl, rfl, rfl, fun k => s.readWord_slotLen _ k⟩⟩
  · rw [s.readWord_buffer (targetOf_of_stored h4 hj hx), State.extractLsb'_bufferWord _ s _ hj,
      s.windowByte_of_stored hx]
  · rw [State.access_wr _ s v h4, State.respond_mem, s.writeWord_buffer v (targetOf_of_stored h4 hj (.inl hx))]
    exact State.read_writeBuffer_lane hm _ v hj hx
  · exact s.read_access_other _ (wr off v) h
  · obtain ⟨-, -, -, -, hmem, -, -⟩ := State.access_frame Config.params s (wr off v)
    exact hmem a h

/-! ## Reads and repeated writes (R65) -/

/-- A bus write made twice leaves what it left the first time: every byte of its word that is slot data holds its lane
already, and every other byte is out of its reach. -/
theorem State.writeBuffer_writeBuffer {P : Params} {s : State} (hm : s.mem.wf) (a : Nat) (v : Word) :
    (s.writeBuffer P a v).writeBuffer P a v = s.writeBuffer P a v := by
  have hm1 : (s.writeBuffer P a v).mem.wf := State.writeBuffer_wf P hm a v
  have hmem : ((s.writeBuffer P a v).writeBuffer P a v).mem = (s.writeBuffer P a v).mem := by
    refine Memory.ext_read (State.writeBuffer_wf P hm1 a v) hm1 fun x => ?_
    by_cases hin : x < a ∨ a + 4 ≤ x
    · exact State.read_writeBuffer_other P _ v hin
    · obtain ⟨j, rfl⟩ : ∃ j, x = a + j := ⟨x - a, by omega⟩
      have hj : j < 4 := by omega
      cases hs : isSlotByte P (a + j) with
      | false => exact State.writeBuffer_noslot P _ a v hs
      | true => rw [State.read_writeBuffer_lane hm1 a v hj hs, State.read_writeBuffer_lane hm a v hj hs]
  calc (s.writeBuffer P a v).writeBuffer P a v
      = { s.writeBuffer P a v with mem := ((s.writeBuffer P a v).writeBuffer P a v).mem } := rfl
    _ = s.writeBuffer P a v := by rw [hmem]

/-- An accepted write of anything but CMD, made twice, is the same as made once. -/
theorem State.writeWord_writeWord {P : Params} {s : State} (hm : s.mem.wf) {off : Nat} (v : Word) (h0 : off ≠ 0) :
    (s.writeWord P off v).writeWord P off v = s.writeWord P off v := by
  cases ht : targetOf off with
  | cmd => exact absurd (targetOf_cmd.1 ht) h0
  | slotLen k => simp only [State.writeWord, ht, Vector.set_set]
  | buffer => rw [s.writeWord_buffer v ht, State.writeWord_buffer _ v ht, State.writeBuffer_writeBuffer hm]
  | _ => simp only [State.writeWord, ht]

theorem State.writeCmd_respond (P : Params) (s : State) (w : Word) (r : BusResponse) :
    (s.respond r).writeCmd P w = (s.writeCmd P w).respond r := by
  unfold State.writeCmd
  rw [State.respond_status]
  by_cases hb : s.status.busy = true
  · rw [if_pos hb, if_pos hb]
    rfl
  · rw [if_neg hb, if_neg hb]
    rfl

/-- A write does not look at the last answer (log entry 11). -/
theorem State.writeWord_respond (P : Params) (s : State) (off : Nat) (v : Word) (r : BusResponse) :
    (s.respond r).writeWord P off v = (s.writeWord P off v).respond r := by
  cases ht : targetOf off with
  | cmd => simp only [State.writeWord, ht, State.writeCmd_respond]
  | _ => simp only [State.writeWord, ht] <;> rfl

/-- Settles O27: a read only answers; a write is a bus error both times, or a repeated write of one target. -/
theorem readsHaveNoEffectAndWritesRepeat : Obligations.ReadsHaveNoEffectAndWritesRepeat := by
  refine ⟨fun s off rest h h4 => ?_, fun s off v hm h0 => ?_⟩
  · rw [step_of_access h, State.access_rd _ _ h4]
    rfl
  · have h0' : off.toNat ≠ 0 := fun h => h0 (BitVec.eq_of_toNat_eq h)
    by_cases h4 : off.toNat % 4 = 0
    · rw [State.access_wr _ s v h4, State.access_wr _ _ v h4, State.writeWord_respond,
        State.writeWord_writeWord hm v h0']
      rfl
    · have hn : ¬ ((wr off v).width = 4 ∧ (wr off v).offset.toNat % 4 = 0) := fun h => h4 h.2
      rw [State.access_of_not_accepted _ s hn, State.access_of_not_accepted _ _ hn]
      rfl

/-! ## A run of accesses (R69, R70, R73) -/

/-- A property that does not speak of the events to come and that each of the accesses keeps is kept by the whole run. -/
theorem run_accesses {I : State → Prop} (hev : ∀ {t : State} (es : List Event), I t → I { t with events := es })
    {accesses : List Access} (hacc : ∀ a ∈ accesses, ∀ {t : State}, I t → I (State.access Config.params t a))
    {s : State} (hs : I s) {rest : List Event} (h : s.events = accesses.map .access ++ rest) :
    ∃ t, core.run accesses.length s = .next t ∧ t.events = rest ∧ I t := by
  induction accesses generalizing s with
  | nil => exact ⟨s, rfl, h, hs⟩
  | cons a accesses ih =>
    have hrun := run_next (k := accesses.length) (step_of_access h)
    obtain ⟨-, -, -, hevents, -, -, -⟩ :=
      State.access_frame Config.params { s with events := accesses.map .access ++ rest } a
    obtain ⟨t, ht⟩ := ih (fun b hb => hacc b (List.mem_cons_of_mem a hb)) (hacc a List.mem_cons_self (hev _ hs)) hevents
    exact ⟨t, by rwa [List.length_cons, hrun]⟩

/-! ## The command in flight (R73, R355) -/

/-- All that decides a command's outcome, and CMD, is the same in the second state: the command is still in flight with
its snapshot, and no nibble was drawn. The form of the memory is kept, so that RESULT takes the outcome. -/
structure SameCommandInFlight (s t : State) : Prop where
  busy : t.status.busy = true
  snap : t.snap = s.snap
  cmd : t.cmd = s.cmd
  draws : t.draws = s.draws
  wf : t.mem.wf

theorem SameCommandInFlight.access {s t : State} (h : SameCommandInFlight s t) (a : Access) :
    SameCommandInFlight s (State.access Config.params t a) := by
  obtain ⟨-, -, hdraws, -, -, hwf, hflight⟩ := State.access_frame Config.params t a
  obtain ⟨hsnap, hcmd, hst⟩ := hflight h.busy
  refine ⟨?_, hsnap.trans h.snap, hcmd.trans h.cmd, hdraws.trans h.draws, hwf h.wf⟩
  rcases hst with e | e <;> rw [e] <;> exact h.busy

/-- A completion writes all that `SameOutcome` compares, from the outcome alone. -/
theorem sameOutcome_complete {s t : State} (hs : s.mem.wf) (ht : t.mem.wf) (r : Except ErrCode Answer) :
    SameOutcome (t.complete r) (s.complete r) := by
  have hread (str : Chars) {k : Nat} (hk : k < 128) :
      Memory.read (t.mem.setResult str) (0x100 + k) = Memory.read (s.mem.setResult str) (0x100 + k) := by
    rw [Memory.read_setResult ht _ hk, Memory.read_setResult hs _ hk]
  cases r with
  | ok a => exact ⟨rfl, rfl, rfl, rfl, rfl, rfl, fun _ hk => hread a.result hk⟩
  | error e => exact ⟨rfl, rfl, rfl, rfl, rfl, rfl, fun _ hk => hread [] hk⟩

theorem completionBase_wf (i : Instr) {s : State} (h : s.mem.wf) : (completionBase i s).mem.wf := by
  unfold completionBase
  split
  · exact Memory.wf_clear h _
  · exact h

/-- The same command in flight completes with the same outcome (R279). -/
theorem SameCommandInFlight.exec {s t : State} (h : SameCommandInFlight s t) (hs : s.mem.wf) {i : Instr} {u : State}
    (hu : exec i s = .next u) : ∃ v, exec i t = .next v ∧ SameOutcome v u := by
  obtain ⟨n, hn, rfl⟩ := exec_next hu
  refine ⟨_, exec_of_snap i (h.snap.trans hn), ?_⟩
  rw [h.draws]
  exact sameOutcome_complete (completionBase_wf i hs) (completionBase_wf i h.wf) _

/-- Settles O19: every access keeps the command in flight, and with it the outcome. -/
theorem hostAccessesNeverChangeRunningCommand : Obligations.HostAccessesNeverChangeRunningCommand := by
  intro s accesses rest hm hb hev
  obtain ⟨t, hrun, hrest, ht⟩ := run_accesses (I := SameCommandInFlight s)
    (fun _ h => ⟨h.busy, h.snap, h.cmd, h.draws, h.wf⟩) (fun a _ _ h => h.access a) ⟨hb, rfl, rfl, rfl, hm⟩ hev
  exact ⟨t, hrun, hrest, ht.busy, ht.snap, ht.cmd, fun i u hu => ht.exec hm hu⟩

/-! ## RESULT and STATUS (R70, R272, R350) -/

/-- The second state shows what the last completion left in RESULT, RESULT_LEN and RESULT_AUX in the first. -/
structure SameResult (s t : State) : Prop where
  resultLen : t.resultLen = s.resultLen
  resultAux : t.resultAux = s.resultAux
  mem : ∀ x, isResultByte x = true → Memory.read t.mem x = Memory.read s.mem x

theorem SameResult.access {s t : State} (h : SameResult s t) (a : Access) :
    SameResult s (State.access Config.params t a) := by
  obtain ⟨hlen, haux, -, -, hmem, -, -⟩ := State.access_frame Config.params t a
  exact ⟨hlen.trans h.resultLen, haux.trans h.resultAux, fun x hx =>
    (hmem x (isSlotByte_of_isResultByte hx)).trans (h.mem x hx)⟩

/-- The fields of STATUS but OVERRUN are the same. -/
def SameStatusButOverrun (s t : State) : Prop := t.status = { s.status with overrun := t.status.overrun }

theorem SameStatusButOverrun.busy {s t : State} (h : SameStatusButOverrun s t) : t.status.busy = s.status.busy := by
  rw [h]

/-- None of the accesses can issue a command: one is in flight, or none of them writes CMD (R270, R274). -/
def NoIssue (s : State) (accesses : List Access) : Prop :=
  s.status.busy = true ∨ ∀ w, wr 0x000#16 w ∉ accesses

theorem SameStatusButOverrun.access {s t : State} (h : SameStatusButOverrun s t) {accesses : List Access}
    (hno : NoIssue s accesses) {a : Access} (ha : a ∈ accesses) :
    SameStatusButOverrun s (State.access Config.params t a) := by
  have hcase : t.status.busy = true ∨ ∀ w, a ≠ wr 0x000#16 w := by
    rw [h.busy]
    exact hno.imp_right fun hnot w e => hnot w (e ▸ ha)
  have hst := State.access_status Config.params t a hcase
  rw [h] at hst
  exact hst

/-- Settles O21: every access keeps RESULT, and every access that is no accepted CMD write keeps STATUS but OVERRUN. -/
theorem hostAccessesKeepResult : Obligations.HostAccessesKeepResult := by
  intro s accesses rest hev
  obtain ⟨t, hrun, hrest, hres, hst⟩ := run_accesses
    (I := fun t => SameResult s t ∧ (NoIssue s accesses → SameStatusButOverrun s t))
    (fun _ ⟨hres, hst⟩ => ⟨⟨hres.resultLen, hres.resultAux, hres.mem⟩, hst⟩)
    (fun a ha _ ⟨hres, hst⟩ => ⟨hres.access a, fun hno => (hst hno).access hno ha⟩)
    ⟨⟨rfl, rfl, fun _ _ => rfl⟩, fun _ => rfl⟩ hev
  exact ⟨t, hrun, hrest, hres.resultLen, hres.resultAux, fun k hk => hres.mem _ (resultByte_of_lt hk), hst⟩

end Sys2Proof.Machine
end

section
/-! PROOFS. The command word (R80 to R84): its two fields as numbers, the opcode map as a function of the OPCODE, and
that decoder, encoder and legality speak of the same words. -/

namespace Sys2Proof

/-! ## The fields of a word (R80) -/

theorem opcodeField_toNat (w : Word) : (opcodeField w).toNat = w.toNat % 256 := by
  simp [opcodeField, BitVec.extractLsb'_toNat]

theorem rsvdField_toNat (w : Word) : (rsvdField w).toNat = w.toNat / 256 := by
  rw [rsvdField, BitVec.extractLsb'_toNat, Nat.shiftRight_eq_div_pow]
  omega

theorem encodeWord_toNat (i : Instr) : (encodeWord i).toNat = i.opcode.toNat := by
  rw [encodeWord, BitVec.toNat_setWidth]
  omega

theorem rsvdField_eq_zero_iff {w : Word} : rsvdField w = 0 ↔ w.toNat / 256 = 0 := by
  rw [← rsvdField_toNat, ← BitVec.toNat_inj]
  rfl

/-- A word is a command's word exactly when its fields are those R80 gives it. -/
theorem eq_encodeWord_iff {w : Word} {i : Instr} :
    w = encodeWord i ↔ rsvdField w = 0 ∧ (opcodeField w).toNat = i.opcode.toNat := by
  rw [← BitVec.toNat_inj, encodeWord_toNat, rsvdField_eq_zero_iff, opcodeField_toNat]
  omega

/-! ## The opcode map (R83) -/

theorem opcodeTable_keys : ∀ p ∈ opcodeTable, p.1 = p.2.opcode.toNat := by decide

/-- No earlier row of the map hides a command's own. -/
theorem lookup_opcode (i : Instr) : opcodeTable.lookup i.opcode.toNat = some i := by
  cases i <;> rfl

/-- The opcode map and the encoder's OPCODE column are the same relation. -/
theorem lookup_eq_some_iff {k : Nat} {i : Instr} : opcodeTable.lookup k = some i ↔ k = i.opcode.toNat := by
  constructor
  · intro h
    obtain ⟨before, after, htable, -⟩ := List.lookup_eq_some_iff.1 h
    exact opcodeTable_keys (k, i) (by simp [htable])
  · rintro rfl
    exact lookup_opcode i

/-! ## Decoding (R81, R82) -/

theorem decodeWord_ok_iff_lookup {w : Word} {i : Instr} :
    decodeWord w = .ok i ↔ rsvdField w = 0 ∧ opcodeTable.lookup (opcodeField w).toNat = some i := by
  unfold decodeWord
  by_cases hr : rsvdField w = 0
  · cases opcodeTable.lookup (opcodeField w).toNat <;> simp [hr]
  · rw [if_neg hr]
    exact ⟨nofun, fun h => absurd h.1 hr⟩

theorem decodeWord_ok_iff {w : Word} {i : Instr} : decodeWord w = .ok i ↔ w = encodeWord i := by
  rw [decodeWord_ok_iff_lookup, lookup_eq_some_iff, eq_encodeWord_iff]

theorem decodeWord_encodeWord (i : Instr) : decodeWord (encodeWord i) = .ok i := decodeWord_ok_iff.2 rfl

theorem decode_encode (i : Instr) (rest : List Byte) : decode (encode i ++ rest) = .ok (i, rest) := by
  rw [encode, decode_bytesOfWord, decodeWord_encodeWord]

/-! ## Legality (R82, R84) -/

/-- The values that no range of R84 covers are the rows of R83. -/
theorem mem_opcodeTable_keys {op : Byte} (h : legalOpcode op = true) : op.toNat ∈ opcodeTable.map Prod.fst := by
  have hlt := op.isLt
  simp [legalOpcode, illegalOpcodeRanges, opcodeTable] at h ⊢
  omega

theorem legalOpcode_iff {op : Byte} : legalOpcode op = true ↔ ∃ i : Instr, op.toNat = i.opcode.toNat := by
  constructor
  · intro h
    obtain ⟨p, hp, hop⟩ := List.mem_map.1 (mem_opcodeTable_keys h)
    exact ⟨p.2, hop.symm.trans (opcodeTable_keys p hp)⟩
  · rintro ⟨i, h⟩
    rw [BitVec.eq_of_toNat_eq h]
    cases i <;> rfl

theorem legalCommandWord_iff {w : Word} : legalCommandWord w = true ↔ ∃ i, w = encodeWord i := by
  have hop : w.setWidth 8 = opcodeField w := BitVec.setWidth_eq_extractLsb' (by omega)
  simp only [legalCommandWord, hop, Bool.and_eq_true, decide_eq_true_eq, legalOpcode_iff, eq_encodeWord_iff,
    rsvdField_eq_zero_iff, exists_and_left]

/-! ## The obligations -/

/-- Settles O1: the decoder reads exactly the words the encoder writes, and these are the legal ones. -/
theorem decodeEncodeAgree : Obligations.DecodeEncodeAgree :=
  ⟨decode_encode, fun _ _ => decodeWord_ok_iff, fun _ => by simp only [legalCommandWord_iff, decodeWord_ok_iff]⟩

/-- Settles O2: each word is the word of its command. -/
theorem knownWordsDecode : Obligations.KnownWordsDecode :=
  ⟨decodeWord_encodeWord .nop, decodeWord_encodeWord .zeroize, decodeWord_encodeWord .pinEncF0,
    decodeWord_encodeWord .pinDecF4, decodeWord_encodeWord .dukptTk, decodeWord_encodeWord .dukptAesKsnInc,
    decodeWord_encodeWord .macAlg3, decodeWord_encodeWord .macCmacTdes, decodeWord_encodeWord .cvvVerify,
    decodeWord_encodeWord .ibmPinMask⟩

end Sys2Proof
end

section
/-! PROOFS. What a command reads (R83, R85): each check and each input of a command rule depends on its snapshot through
the slots and PARAM fields it names alone, so a rule gives the same on snapshots that agree on what R83 lists. -/

namespace Sys2Proof.Machine

/-! ## What the snapshots agree on -/

/-- Two snapshots show a command the same operand in slot `k`: SLOT_LEN and the operand string (R32, R33). -/
structure SameSlot (n m : Snap) (k : Slot) : Prop where
  len : n.len k = m.len k
  str : slot Config.params n k = slot Config.params m k

/-- The PARAM fields of the parameter mode are the same (R234). -/
structure SameVdFields (n m : Snap) : Prop where
  pinlen : n.pinlen = m.pinlen
  start : n.start = m.start
  length : n.length = m.length
  padchar : n.padchar = m.padchar

section
variable {i : Instr} {n m : Snap}

theorem AgreeOnListed.slot (h : AgreeOnListed i n m) (k : Slot) (hk : k ∈ listedSlots i := by decide) : SameSlot n m k :=
  ⟨(h.1 k hk).1, (h.1 k hk).2⟩

theorem AgreeOnListed.value (h : AgreeOnListed i n m) (f : ParamField) (hf : f ∈ listedFields i := by decide) :
    f.value n = f.value m :=
  h.2 f hf

theorem AgreeOnListed.vdFields (h : AgreeOnListed i n m)
    (hl : listedFields i = [.pinlen, .start, .length, .padchar]) : SameVdFields n m where
  pinlen := h.value .pinlen (by simp [hl])
  start := h.value .start (by simp [hl])
  length := h.value .length (by simp [hl])
  padchar := BitVec.eq_of_toNat_eq (h.value .padchar (by simp [hl]))

/-! ## The checks (R34, R103, R143, R183, R222, R230, R234, R235) -/

theorem field_congr {k : Slot} (h : SameSlot n m k) : field Config.params n k = field Config.params m k := by
  funext lens set e
  simp only [field, h.len, h.str]

theorem decChk_congr (h : SameSlot n m Slot.dectab) : decChk Config.params n = decChk Config.params m := by
  simp only [decChk, h.len, h.str]

theorem maskChk_congr (h : SameSlot n m Slot.mask) : maskChk Config.params n = maskChk Config.params m := by
  simp only [maskChk, h.len, h.str]

theorem vdParamsChk_congr (h : SameVdFields n m) : vdParamsChk n = vdParamsChk m := by
  simp only [vdParamsChk, h.pinlen, h.start, h.length, h.padchar]

theorem vdParams_congr (h : SameVdFields n m) : vdParams n = vdParams m := by
  funext nat
  simp only [vdParams, h.pinlen, h.start, h.length, h.padchar]

theorem cvvInput_congr (hkey : SameSlot n m Slot.key) (hpan : SameSlot n m Slot.pan) (hexp : SameSlot n m Slot.exp)
    (hsvc : SameSlot n m Slot.svc) : cvvInput Config.params n = cvvInput Config.params m := by
  simp only [cvvInput, cardKey, cardPan, fixedField, field_congr hkey, field_congr hpan, field_congr hexp,
    field_congr hsvc]

theorem cvvAtcInput_congr (hkey : SameSlot n m Slot.key) (hpan : SameSlot n m Slot.pan) (hexp : SameSlot n m Slot.exp)
    (hsvc : SameSlot n m Slot.svc) (hatc : SameSlot n m Slot.atc) :
    cvvAtcInput Config.params n = cvvAtcInput Config.params m := by
  simp only [cvvAtcInput, cardKey, cardPan, fixedField, field_congr hkey, field_congr hpan, field_congr hexp,
    field_congr hsvc, field_congr hatc]

theorem cscInput_congr (hkey : SameSlot n m Slot.key) (hpan : SameSlot n m Slot.pan) (hexp : SameSlot n m Slot.exp)
    (hsvc : SameSlot n m Slot.svc) : cscInput Config.params n = cscInput Config.params m := by
  simp only [cscInput, cardKey, fixedField, field_congr hkey, field_congr hpan, field_congr hexp, field_congr hsvc]

theorem desMac_congr (hkey : SameSlot n m Slot.key) (hdata : SameSlot n m Slot.data)
    (hpad : n.padmethod = m.padmethod) (htrunc : n.trunc = m.trunc) (keyLens : List Nat)
    (mac : Bytes → Bytes → Block) : desMac Config.params keyLens mac n = desMac Config.params keyLens mac m := by
  simp only [desMac, macChk, dataLengthChk, dataChars, field_congr hkey, hdata.len, hdata.str, hpad, htrunc]

theorem cmacCommand_congr {w : Nat} (hkey : SameSlot n m Slot.key) (hdata : SameSlot n m Slot.data)
    (htrunc : n.trunc = m.trunc) (keyLens : List Nat) (maxTrunc : Nat) (mac : Bytes → Bytes → BitVec w) :
    cmacCommand Config.params keyLens maxTrunc mac n = cmacCommand Config.params keyLens maxTrunc mac m := by
  simp only [cmacCommand, dataLengthChk, dataChars, field_congr hkey, hdata.len, hdata.str, htrunc]

/-! ## The rules -/

/-- A rule reads its snapshot only where R83 lists it: each command by the slots and fields of its row. -/
theorem ruleOf_congr_listed (h : AgreeOnListed i n m) (d : Nat) :
    ruleOf Config.params i d n = ruleOf Config.params i d m := by
  cases i with
  | nop | zeroize => rfl
  | pinEncF1 => simp only [ruleOf, pinEncF1, pinChk, field_congr (h.slot Slot.pin)]
  | pinEncF0 | pinEncF2 | pinEncF3 | pinEncF4 =>
    simp only [ruleOf, pinEncF0, pinEncF2, pinEncF3, pinEncF4, pinChk, panChk, field_congr (h.slot Slot.pin),
      field_congr (h.slot Slot.pan)]
  | pinDecF1 => simp only [ruleOf, pinDecF1, blkChk, field_congr (h.slot Slot.pinblk)]
  | pinDecF0 | pinDecF2 | pinDecF3 | pinDecF4 =>
    simp only [ruleOf, pinDecF0, pinDecF2, pinDecF3, pinDecF4, blkChk, panChk, field_congr (h.slot Slot.pinblk),
      field_congr (h.slot Slot.pan)]
  | dukptIpek | dukptTk | dukptTkIpek =>
    simp only [ruleOf, dukptIpek, dukptTk, dukptTkIpek, legacyKey, ksnChk, field_congr (h.slot Slot.key),
      field_congr (h.slot Slot.ksn)]
  | dukptWk =>
    have husage : n.usage = m.usage := h.value .usage
    simp only [ruleOf, dukptWk, legacyKey, ksnChk, field_congr (h.slot Slot.key), field_congr (h.slot Slot.ksn), husage]
  | dukptKsnInc | dukptAesKsnInc =>
    simp only [ruleOf, dukptKsnInc, dukptAesKsnInc, ksnChk, field_congr (h.slot Slot.ksn)]
  | dukptAesIk =>
    have htype : n.keytype = m.keytype := h.value .keytype
    simp only [ruleOf, dukptAesIk, aesBdk, ksnChk, field_congr (h.slot Slot.key), field_congr (h.slot Slot.ksn), htype]
  | dukptAesWk =>
    have htype : n.keytype = m.keytype := h.value .keytype
    have husage : n.usage = m.usage := h.value .usage
    have hwk : n.wktype = m.wktype := h.value .wktype
    simp only [ruleOf, dukptAesWk, aesBdk, ksnChk, field_congr (h.slot Slot.key), field_congr (h.slot Slot.ksn), htype,
      husage, hwk]
  | macAlg1 | macAlg2 | macAlg3 | macX99 | macX919 | macRetail | macTdesCbc | macAs2805 =>
    exact desMac_congr (h.slot Slot.key) (h.slot Slot.data) (h.value .padmethod) (h.value .trunc) _ _
  | macCmacAes | macCmacTdes =>
    exact cmacCommand_congr (h.slot Slot.key) (h.slot Slot.data) (h.value .trunc) _ _ _
  | cvvGen =>
    simp only [ruleOf, cvvGen, cvvInput_congr (h.slot Slot.key) (h.slot Slot.pan) (h.slot Slot.exp) (h.slot Slot.svc)]
  | cvvGenAtc =>
    simp only [ruleOf, cvvGenAtc, cvvAtcInput_congr (h.slot Slot.key) (h.slot Slot.pan) (h.slot Slot.exp)
      (h.slot Slot.svc) (h.slot Slot.atc)]
  | cvvVerify =>
    simp only [ruleOf, cvvVerify, fixedField, field_congr (h.slot Slot.check),
      cvvInput_congr (h.slot Slot.key) (h.slot Slot.pan) (h.slot Slot.exp) (h.slot Slot.svc)]
  | cvvVerifyAtc =>
    simp only [ruleOf, cvvVerifyAtc, fixedField, field_congr (h.slot Slot.check),
      cvvAtcInput_congr (h.slot Slot.key) (h.slot Slot.pan) (h.slot Slot.exp) (h.slot Slot.svc) (h.slot Slot.atc)]
  | cscV1 | cscV2 =>
    simp only [ruleOf, cscV1, cscV2,
      cscInput_congr (h.slot Slot.key) (h.slot Slot.pan) (h.slot Slot.exp) (h.slot Slot.svc)]
  | cvc3Gen =>
    simp only [ruleOf, cvc3Gen, cardKey, cardPan, fixedField, field_congr (h.slot Slot.key),
      field_congr (h.slot Slot.pan), field_congr (h.slot Slot.psn), field_congr (h.slot Slot.track),
      field_congr (h.slot Slot.un), field_congr (h.slot Slot.atc)]
  | pvvGen =>
    have hpvki : n.pvki = m.pvki := h.value .pvki
    simp only [ruleOf, pvvGen, pdkChk, cardPan, field_congr (h.slot Slot.key), field_congr (h.slot Slot.pan),
      field_congr (h.slot Slot.pin), decChk_congr (h.slot Slot.dectab), hpvki]
  | pvvPin =>
    have hpvki : n.pvki = m.pvki := h.value .pvki
    simp only [ruleOf, pvvPin, pdkChk, cardPan, fixedField, field_congr (h.slot Slot.key), field_congr (h.slot Slot.pan),
      field_congr (h.slot Slot.check), decChk_congr (h.slot Slot.dectab), hpvki]
  | ibmOffset =>
    have hvd := h.vdFields rfl
    simp only [ruleOf, ibmOffset, pdkChk, cardPan, field_congr (h.slot Slot.key), field_congr (h.slot Slot.pan),
      field_congr (h.slot Slot.pin), decChk_congr (h.slot Slot.dectab), vdParamsChk_congr hvd, vdParams_congr hvd,
      hvd.pinlen]
  | ibmOffsetMask =>
    simp only [ruleOf, ibmOffsetMask, pdkChk, cardPan, field_congr (h.slot Slot.key), field_congr (h.slot Slot.pan),
      field_congr (h.slot Slot.pin), decChk_congr (h.slot Slot.dectab), maskChk_congr (h.slot Slot.mask)]
  | ibmPin =>
    have hvd := h.vdFields rfl
    simp only [ruleOf, ibmPin, pdkChk, cardPan, fixedField, field_congr (h.slot Slot.key), field_congr (h.slot Slot.pan),
      field_congr (h.slot Slot.check), decChk_congr (h.slot Slot.dectab), vdParamsChk_congr hvd, vdParams_congr hvd,
      hvd.pinlen]
  | ibmPinMask =>
    simp only [ruleOf, ibmPinMask, pdkChk, cardPan, fixedField, field_congr (h.slot Slot.key),
      field_congr (h.slot Slot.pan), field_congr (h.slot Slot.check), decChk_congr (h.slot Slot.dectab),
      maskChk_congr (h.slot Slot.mask)]

end

/-! ## The outcome (R272, R279, R104) -/

@[simp] theorem completionBase_draws (i : Instr) (s : State) : (completionBase i s).draws = s.draws := by
  unfold completionBase
  split <;> rfl

/-- Where a command's rule gives the same on both snapshots, it draws as many nibbles in both states, and with equal
nibbles the outcomes are the same. -/
theorem exec_sameOutcome_of_ruleOf_eq {i : Instr} {s s' : State} {n n' : Snap} (hm : s.mem.wf) (hm' : s'.mem.wf)
    (hn : s.snap = some n) (hn' : s'.snap = some n')
    (hrule : ∀ d, ruleOf Config.params i d n = ruleOf Config.params i d n') :
    ∃ t t', exec i s = .next t ∧ exec i s' = .next t' ∧ t.draws + s'.draws = t'.draws + s.draws ∧
      ((∀ j, s.draws + j < t.draws → Config.rng (s.draws + j) = Config.rng (s'.draws + j)) → SameOutcome t t') := by
  refine ⟨_, _, exec_of_snap i hn, exec_of_snap i hn', ?_⟩
  rw [← hrule s'.draws]
  have hwf := completionBase_wf i hm
  have hwf' := completionBase_wf i hm'
  obtain ⟨herr, hok⟩ := ruleOf_drawn_congr Config.params i s.draws s'.draws n
  cases hr : ruleOf Config.params i s.draws n with
  | error e =>
    rw [herr e hr]
    exact ⟨by simp [Nat.add_comm], fun _ => sameOutcome_complete hwf' hwf _⟩
  | ok a =>
    obtain ⟨b, hb, hdrawn⟩ := hok a hr
    refine ⟨by simp [hb, hdrawn]; omega, fun hrng => ?_⟩
    have hsame : ruleOf Config.params i s'.draws n = ruleOf Config.params i s.draws n := by
      refine ruleOf_congr_draws fun a' ha' j hj => hrng j ?_
      cases hr.symm.trans ha'
      simpa using hj
    rw [hsame, hr]
    exact sameOutcome_complete hwf' hwf _

/-- Settles O33: on snapshots that agree on the listed operands the rule gives the same, and with it the outcome. -/
theorem onlyListedOperandsAreRead : Obligations.OnlyListedOperandsAreRead :=
  fun _ _ _ _ _ hm hm' hn hn' h => exec_sameOutcome_of_ruleOf_eq hm hm' hn hn' (ruleOf_congr_listed h)

end Sys2Proof.Machine
end

section
/-! PROOFS. The PIN block codec (R100 to R116): the checks of R103 as one chain of tests, what the last steps of a
decoder make of a field, the outcome of the ten commands, and that decoding undoes encoding. -/

namespace Sys2Proof.Machine

/-! ## Completion (R272) -/

/-- Every command but ZEROIZE completes in the state itself with what its rule answers. -/
theorem exec_of_snap_ne {i : Instr} (hi : i ≠ .zeroize) {s : State} {n : Snap} (hn : s.snap = some n) :
    exec i s = .next (s.complete (ruleOf Config.params i s.draws n)) := by
  rw [exec_of_snap i hn, completionBase_of_ne hi]

theorem exec_of_ruleOf_ok {i : Instr} (hi : i ≠ .zeroize) {s : State} {n : Snap} (hn : s.snap = some n) {a : Answer}
    (h : ruleOf Config.params i s.draws n = .ok a) : exec i s = .next (s.completeOk a) := by
  rw [exec_of_snap_ne hi hn, h, complete_ok]

/-! ## Checks in sequence (R15) -/

theorem require_bind {β : Type} (c : Bool) (e : ErrCode) (f : Unit → Except ErrCode β) :
    (require c e >>= f) = if c = true then f () else .error e := by
  cases c <;> rfl

theorem ite_error_bind {α β : Type} (c : Prop) [Decidable c] (x : Except ErrCode α) (e : ErrCode)
    (f : α → Except ErrCode β) :
    ((if c then x else .error e) >>= f) = if c then x >>= f else .error e := by
  split <;> rfl

theorem complete_ite (s : State) (c : Prop) [Decidable c] (x y : Except ErrCode Answer) :
    s.complete (if c then x else y) = if c then s.complete x else s.complete y :=
  apply_ite s.complete c x y

/-! ## The checks of R103 -/

theorem pinChk_of_legal {n : Snap} {pin : Chars} (h : LegalOperand n Slot.pin 4 12 isDec pin) :
    pinChk Config.params n = .ok pin :=
  field_of_legal h

theorem panChk_of_legal {n : Snap} {pan : Chars} (h : LegalOperand n Slot.pan 13 19 isDec pan) :
    panChk Config.params n = .ok pan :=
  field_of_legal h

theorem blkChk_of_legal {n : Snap} {k : Nat} {blk : Chars} (h : LegalOperand n Slot.pinblk k k isHex blk) :
    blkChk Config.params n k = .ok blk :=
  field_of_fixed h

/-- The check of R34 for a range of lengths within the capacity: an INVALID slot fails the length test like any other
length. -/
theorem field_between_eq {P : Params} {k : Slot} {lo hi : Nat} (hcap : hi ≤ cap P k) (n : Snap) (set : Byte → Bool)
    (e : ErrCode) :
    field P n k (between lo hi) set e =
      if lo ≤ n.len k ∧ n.len k ≤ hi then
        if ∀ c ∈ n.chars k (n.len k), set c = true then .ok (n.chars k (n.len k)) else .error .invalidCharacter
      else .error e := by
  rw [field_eq fun h => (between_iff.1 h).2.trans hcap]
  simp only [between_iff, List.all_eq_true]

/-- The capacity of PIN is 12. -/
theorem pinChk_eq (P : Params) (n : Snap) :
    pinChk P n =
      if 4 ≤ n.len Slot.pin ∧ n.len Slot.pin ≤ 12 then
        if ∀ c ∈ n.chars Slot.pin (n.len Slot.pin), isDec c = true then .ok (n.chars Slot.pin (n.len Slot.pin))
        else .error .invalidCharacter
      else .error .invalidPinLength :=
  field_between_eq (Nat.le_refl 12) n isDec .invalidPinLength

/-- The capacity of PAN is 19. -/
theorem panChk_eq (P : Params) (n : Snap) :
    panChk P n =
      if 13 ≤ n.len Slot.pan ∧ n.len Slot.pan ≤ 19 then
        if ∀ c ∈ n.chars Slot.pan (n.len Slot.pan), isDec c = true then .ok (n.chars Slot.pan (n.len Slot.pan))
        else .error .invalidCharacter
      else .error .invalidPanLength :=
  field_between_eq (Nat.le_refl 19) n isDec .invalidPanLength

/-- The capacity of PINBLK is 32, the longer of the two block lengths. -/
theorem blkChk_eq (P : Params) (n : Snap) {k : Nat} (hk : k ≤ 32) :
    blkChk P n k =
      if n.len Slot.pinblk = k then
        if ∀ c ∈ n.chars Slot.pinblk (n.len Slot.pinblk), isHex c = true then
          .ok (n.chars Slot.pinblk (n.len Slot.pinblk))
        else .error .invalidCharacter
      else .error .invalidPinBlockLength := by
  have hcap : oneOf [k] (n.len Slot.pinblk) = true → n.len Slot.pinblk ≤ cap P Slot.pinblk :=
    fun h => (List.mem_singleton.1 (oneOf_iff.1 h)).trans_le hk
  rw [blkChk, field_eq hcap]
  simp only [oneOf_iff, List.mem_singleton, List.all_eq_true]

/-! ## The last steps of a decoder (R110) -/

/-- Every outcome of steps (d) to (f). -/
theorem openField_eq (f tag l start : Nat) (p : Chars) :
    openField f tag l start p =
      if tag = f then
        if 4 ≤ l ∧ l ≤ 12 then
          if ∀ c ∈ (p.drop start).take l, isDec c = true then
            .ok { result := (p.drop start).take l, aux := auxWord f l }
          else .error .invalidPinDigit
        else .error .invalidPinLength
      else .error .invalidFormatTag := by
  simp only [openField, require_bind, decide_eq_true_eq, between_iff, List.all_eq_true, pure_eq_ok]

/-- A PIN of 4 to 12 decimal digits (R103). -/
structure PinDigits (pin : Chars) : Prop where
  four_le : 4 ≤ pin.length
  le_twelve : pin.length ≤ 12
  dec : ∀ c ∈ pin, isDec c = true

theorem PinDigits.of_legal {n : Snap} {pin : Chars} (h : LegalOperand n Slot.pin 4 12 isDec pin) : PinDigits pin := by
  obtain ⟨-, h4, h12, hdec⟩ := h
  exact ⟨h4, h12, hdec⟩

/-- A length of a PIN is read back from its nibble. -/
theorem PinDigits.val_length {pin : Chars} (hp : PinDigits pin) : val (hexchar pin.length) = pin.length :=
  val_hexchar (hp.le_twelve.trans_lt (by decide))

/-- A field that reads `f`, the length of the PIN and, from `start` on, the PIN opens to the PIN, whatever follows. -/
theorem openField_append {pin : Chars} (hp : PinDigits pin) {start : Nat} {head : Chars}
    (hstart : head.length = start) (f : Nat) (pad : Chars) :
    openField f f pin.length start (head ++ (pin ++ pad)) = .ok { result := pin, aux := auxWord f pin.length } := by
  have hpin : ((head ++ (pin ++ pad)).drop start).take pin.length = pin := by
    rw [List.drop_left' hstart, List.take_left]
  rw [openField_ok_iff, hpin]
  exact ⟨rfl, hp.four_le, hp.le_twelve, hp.dec, rfl⟩

theorem open16_pf16 {pin : Chars} (hp : PinDigits pin) {f : Nat} (hf : f < 16) (pad : Chars) :
    open16 f (pf16 f pin pad) = .ok { result := pin, aux := auxWord f pin.length } := by
  have htag : nibble (pf16 f pin pad) 0 = f := val_hexchar hf
  have hlen : nibble (pf16 f pin pad) 1 = pin.length := hp.val_length
  rw [open16, htag, hlen]
  exact openField_append hp (head := [hexchar f, hexchar pin.length]) rfl f pad

/-- The pad of a format 4 field is whatever follows the PIN. -/
theorem open32_of_take {pin p : Chars} (hp : PinDigits pin)
    (htake : p.take (3 + pin.length) = hexchar 4 :: hexchar 0 :: hexchar pin.length :: pin) :
    open32 p = .ok { result := pin, aux := auxWord 4 pin.length } := by
  obtain ⟨pad, rfl⟩ : ∃ pad, p = [hexchar 4, hexchar 0, hexchar pin.length] ++ (pin ++ pad) := by
    refine ⟨p.drop (3 + pin.length), ?_⟩
    conv_lhs => rw [← List.take_append_drop (3 + pin.length) p, htake]
    rfl
  generalize hfield : [hexchar 4, hexchar 0, hexchar pin.length] ++ (pin ++ pad) = p
  have htag : nibble p 0 = 4 := by subst hfield; rfl
  have htens : nibble p 1 = 0 := by subst hfield; rfl
  have hunits : nibble p 2 = pin.length := by subst hfield; exact hp.val_length
  rw [open32, htag, htens, hunits, Nat.mul_zero, Nat.zero_add, ← hfield]
  exact openField_append hp (head := [hexchar 4, hexchar 0, hexchar pin.length]) rfl 4 pad

/-! ## The encoders on legal operands (R105 to R109) -/

section
variable {s : State} {n : Snap} {pin pan : Chars} (hn : s.snap = some n)
  (hpin : LegalOperand n Slot.pin 4 12 isDec pin)
include hn hpin

theorem exec_pinEncF1 : exec .pinEncF1 s = .next (s.completeOk
    { result := pf16 1 pin (padDraws Config.params s.draws (14 - pin.length)), aux := auxWord 1 pin.length,
      drawn := 14 - pin.length }) :=
  exec_of_ruleOf_ok (by decide) hn (by simp only [ruleOf, pinEncF1, pinChk_of_legal hpin, ok_bind, pure_eq_ok])

variable (hpan : LegalOperand n Slot.pan 13 19 isDec pan)
include hpan

theorem exec_pinEncF0 : exec .pinEncF0 s = .next (s.completeOk
    { result := xorHex (pf16 0 pin (padF pin.length)) (panF16 pan), aux := auxWord 0 pin.length }) :=
  exec_of_ruleOf_ok (by decide) hn
    (by simp only [ruleOf, pinEncF0, pinChk_of_legal hpin, panChk_of_legal hpan, ok_bind, pure_eq_ok])

theorem exec_pinEncF2 : exec .pinEncF2 s = .next (s.completeOk
    { result := xorHex (pf16 2 pin (padF pin.length)) (panF16 pan), aux := auxWord 2 pin.length }) :=
  exec_of_ruleOf_ok (by decide) hn
    (by simp only [ruleOf, pinEncF2, pinChk_of_legal hpin, panChk_of_legal hpan, ok_bind, pure_eq_ok])

theorem exec_pinEncF3 : exec .pinEncF3 s = .next (s.completeOk
    { result := xorHex (pf16 3 pin (padDraws Config.params s.draws (14 - pin.length))) (panF16 pan),
      aux := auxWord 3 pin.length, drawn := 14 - pin.length }) :=
  exec_of_ruleOf_ok (by decide) hn
    (by simp only [ruleOf, pinEncF3, pinChk_of_legal hpin, panChk_of_legal hpan, ok_bind, pure_eq_ok])

theorem exec_pinEncF4 : exec .pinEncF4 s = .next (s.completeOk
    { result := xorHex (pf32 pin) (panF32 pan), aux := auxWord 4 pin.length }) :=
  exec_of_ruleOf_ok (by decide) hn
    (by simp only [ruleOf, pinEncF4, pinChk_of_legal hpin, panChk_of_legal hpan, ok_bind, pure_eq_ok])

end

/-- Settles O40: each encoder's rule, once its checks have passed. -/
theorem pinEncodersComplete : Obligations.PinEncodersComplete :=
  fun _ _ _ _ hn hpin => ⟨exec_pinEncF1 hn hpin, fun hpan =>
    ⟨exec_pinEncF0 hn hpin hpan, exec_pinEncF2 hn hpin hpan, exec_pinEncF3 hn hpin hpan,
      exec_pinEncF4 hn hpin hpan⟩⟩

/-! ## The decoders on a well-formed block (R111 to R115) -/

section
variable {s : State} {n : Snap} {blk pan pin pad : Chars} (hn : s.snap = some n) (hp : PinDigits pin)
include hn hp

theorem exec_pinDecF1 (hblk : LegalOperand n Slot.pinblk 16 16 isHex blk) (hfield : blk = pf16 1 pin pad) :
    exec .pinDecF1 s = .next (s.completeOk { result := pin, aux := auxWord 1 pin.length }) :=
  exec_of_ruleOf_ok (by decide) hn
    (by simp only [ruleOf, pinDecF1, blkChk_of_legal hblk, ok_bind, hfield, open16_pf16 hp (by decide : 1 < 16)])

variable (hpan : LegalOperand n Slot.pan 13 19 isDec pan)
include hpan

theorem exec_pinDecF0 (hblk : LegalOperand n Slot.pinblk 16 16 isHex blk)
    (hfield : xorHex blk (panF16 pan) = pf16 0 pin pad) :
    exec .pinDecF0 s = .next (s.completeOk { result := pin, aux := auxWord 0 pin.length }) :=
  exec_of_ruleOf_ok (by decide) hn (by simp only [ruleOf, pinDecF0, blkChk_of_legal hblk, panChk_of_legal hpan, ok_bind,
    hfield, open16_pf16 hp (by decide : 0 < 16)])

theorem exec_pinDecF2 (hblk : LegalOperand n Slot.pinblk 16 16 isHex blk)
    (hfield : xorHex blk (panF16 pan) = pf16 2 pin pad) :
    exec .pinDecF2 s = .next (s.completeOk { result := pin, aux := auxWord 2 pin.length }) :=
  exec_of_ruleOf_ok (by decide) hn (by simp only [ruleOf, pinDecF2, blkChk_of_legal hblk, panChk_of_legal hpan, ok_bind,
    hfield, open16_pf16 hp (by decide : 2 < 16)])

theorem exec_pinDecF3 (hblk : LegalOperand n Slot.pinblk 16 16 isHex blk)
    (hfield : xorHex blk (panF16 pan) = pf16 3 pin pad) :
    exec .pinDecF3 s = .next (s.completeOk { result := pin, aux := auxWord 3 pin.length }) :=
  exec_of_ruleOf_ok (by decide) hn (by simp only [ruleOf, pinDecF3, blkChk_of_legal hblk, panChk_of_legal hpan, ok_bind,
    hfield, open16_pf16 hp (by decide : 3 < 16)])

theorem exec_pinDecF4 (hblk : LegalOperand n Slot.pinblk 32 32 isHex blk)
    (hfield : (xorHex blk (panF32 pan)).take (3 + pin.length) =
      hexchar 4 :: hexchar 0 :: hexchar pin.length :: pin) :
    exec .pinDecF4 s = .next (s.completeOk { result := pin, aux := auxWord 4 pin.length }) :=
  exec_of_ruleOf_ok (by decide) hn (by simp only [ruleOf, pinDecF4, blkChk_of_legal hblk, panChk_of_legal hpan, ok_bind,
    open32_of_take hp hfield])

end

/-- Settles O41: each decoder opens the field its checks let through; nothing is asked of the pad. -/
theorem pinDecodersComplete : Obligations.PinDecodersComplete := by
  intro s n blk pan pin pad hn h4 h12 hdec _
  have hp : PinDigits pin := ⟨h4, h12, hdec⟩
  exact ⟨exec_pinDecF1 hn hp, fun hpan =>
    ⟨fun hblk => ⟨exec_pinDecF0 hn hp hpan hblk, exec_pinDecF2 hn hp hpan hblk, exec_pinDecF3 hn hp hpan hblk⟩,
      exec_pinDecF4 hn hp hpan⟩⟩

/-! ## Every outcome of PIN_ENC_F0 and PIN_DEC_F1 (R105, R112) -/

theorem pf16_padF {pin : Chars} {l : Nat} (h : pin.length = l) (f : Nat) :
    pf16 f pin (padF l) = hexchar f :: hexchar l :: (pin ++ List.replicate (14 - l) 0x46#8) := by
  subst h
  rfl

theorem panF16_eq (pan : Chars) :
    panF16 pan = List.replicate 4 0x30#8 ++ (pan.drop (pan.length - 13)).take 12 := rfl

theorem auxWord_zero (l : Nat) : auxWord 0 l = BitVec.ofNat 32 (256 * l) := by rw [auxWord, Nat.zero_add]

theorem nibble_eq (p : Chars) (i : Nat) : nibble p i = val (p.getD i 0x30#8) := rfl

/-- Settles O42: the rule is four tests in sequence, PIN before PAN and each length before its characters. -/
theorem pinEncF0EveryOutcome : Obligations.PinEncF0EveryOutcome := by
  refine ⟨rfl, fun s n hn => ?_⟩
  dsimp only
  rw [exec_of_snap_ne (by decide) hn, ruleOf, pinEncF0, pinChk_eq, panChk_eq]
  simp only [ite_error_bind, ok_bind, pure_eq_ok, complete_ite, complete_error, complete_ok, ite_not,
    Snap.chars_length, pf16_padF (Snap.chars_length _ _ _), panF16_eq, auxWord_zero]

/-- Settles O43: the block check, then the last steps of R110 on the block itself, as no PAN field is XORed in. -/
theorem pinDecF1EveryOutcome : Obligations.PinDecF1EveryOutcome := by
  refine ⟨rfl, fun s n hn => ?_⟩
  dsimp only
  rw [exec_of_snap_ne (by decide) hn, ruleOf, pinDecF1, blkChk_eq _ _ (by decide)]
  simp only [ite_error_bind, ok_bind, open16, openField_eq, nibble_eq, auxWord, complete_ite, complete_error,
    complete_ok, ne_eq, ite_not]

/-! ## The fields as hex strings (R100 to R102) -/

/-- `p` is a string of `k` hex characters. -/
def HexString (k : Nat) (p : Chars) : Prop := p.length = k ∧ ∀ c ∈ p, isHex c = true

/-- A block of the right length and characters, held in PINBLK, passes BLKchk (R103). -/
theorem HexString.legal {n : Snap} {k : Nat} {blk : Chars} (h : HexString k blk) (hblk : Holds n Slot.pinblk blk) :
    LegalOperand n Slot.pinblk k k isHex blk :=
  ⟨hblk, h.1.ge, h.1.le, h.2⟩

theorem HexString.xor {k : Nat} {p m : Chars} (hp : HexString k p) (hm : HexString k m) :
    HexString k (xorHex p m) :=
  ⟨by rw [xorHex_length, hp.1, hm.1, Nat.min_self], isHex_of_mem_xorHex hp.2 hm.2⟩

/-- What was XORed in is removed by XORing it in again. -/
theorem HexString.xor_cancel {k : Nat} {p m : Chars} (hp : HexString k p) (hm : HexString k m) :
    xorHex (xorHex p m) m = p :=
  xorHex_xorHex (hp.1.trans hm.1.symm).le hp.2 hm.2

theorem hexString_padF (l : Nat) : HexString (14 - l) (padF l) := ⟨padF_length l, padF_isHex l⟩

theorem hexString_padDraws (P : Params) (d k : Nat) : HexString k (padDraws P d k) :=
  ⟨padDraws_length P d k, padDraws_isHex P d k⟩

theorem hexString_pf16 {n : Snap} {pin pad : Chars} {f : Nat} (hf : f < 16)
    (hpin : LegalOperand n Slot.pin 4 12 isDec pin) (hpad : HexString (14 - pin.length) pad) :
    HexString 16 (pf16 f pin pad) := by
  have hp := PinDigits.of_legal hpin
  have h12 := hp.le_twelve
  exact ⟨by rw [pf16_length, hpad.1]; omega, pf16_isHex hf (by omega) hp.dec hpad.2⟩

theorem hexString_pf32 {n : Snap} {pin : Chars} (hpin : LegalOperand n Slot.pin 4 12 isDec pin) :
    HexString 32 (pf32 pin) := by
  have hp := PinDigits.of_legal hpin
  have h12 := hp.le_twelve
  exact ⟨pf32_length (by omega), pf32_isHex (by omega) hp.dec⟩

theorem hexString_panF16 {n : Snap} {pan : Chars} (hpan : LegalOperand n Slot.pan 13 19 isDec pan) :
    HexString 16 (panF16 pan) := by
  obtain ⟨-, h13, -, hdec⟩ := hpan
  exact ⟨panF16_length h13, panF16_isHex hdec⟩

theorem hexString_panF32 {n : Snap} {pan : Chars} (hpan : LegalOperand n Slot.pan 13 19 isDec pan) :
    HexString 32 (panF32 pan) := by
  obtain ⟨-, h13, -, hdec⟩ := hpan
  exact ⟨panF32_length h13, panF32_isHex hdec⟩

/-- Tag, length and PIN of a format 4 field: a length of at most 12 has the tens nibble 0. -/
theorem take_pf32 {pin : Chars} (h12 : pin.length ≤ 12) :
    (pf32 pin).take (3 + pin.length) = hexchar 4 :: hexchar 0 :: hexchar pin.length :: pin := by
  rw [pf32, Nat.div_eq_of_lt (by omega), Nat.mod_eq_of_lt (by omega), Nat.add_comm]
  simp

/-! ## Decoding undoes encoding (R116) -/

/-- A format round-trips when its encoder completes with a block of at most 32 characters on which its decoder, given
the same PAN, completes with the PIN. -/
theorem roundTrips_of_completes {enc dec : Instr} {f : Nat} {panRead : Bool}
    (h : ∀ {s s' : State} {n n' : Snap} {pin pan : Chars}, s.snap = some n → s'.snap = some n' →
      LegalOperand n Slot.pin 4 12 isDec pin →
      (panRead = true → LegalOperand n Slot.pan 13 19 isDec pan ∧ LegalOperand n' Slot.pan 13 19 isDec pan) →
      ∃ a : Answer, a.result.length ≤ 32 ∧ exec enc s = .next (s.completeOk a) ∧
        (Holds n' Slot.pinblk a.result →
          exec dec s' = .next (s'.completeOk { result := pin, aux := auxWord f pin.length }))) :
    RoundTrips enc dec f panRead := by
  intro s s' n n' pin pan t hm hm' hn hn' hpin hpan ht hblk
  obtain ⟨a, hlen, henc, hdec⟩ := h hn hn' hpin hpan
  cases henc.symm.trans ht
  rw [resultString_completeOk hm (by omega)] at hblk
  have h12 := (PinDigits.of_legal hpin).le_twelve
  exact ⟨_, hdec hblk, rfl, rfl, resultIs_completeOk hm' (h12.trans (by decide)), rfl⟩

/-- A format whose encoder XORs a PAN field over a field of the same length round-trips when its decoder completes with
the PIN on every block that is that field under the PAN field: XORing the PAN field in again removes it. -/
theorem roundTrips_of_masked {enc dec : Instr} {f k : Nat} (hk : k ≤ 32)
    (h : ∀ {s s' : State} {n n' : Snap} {pin pan : Chars}, s.snap = some n → s'.snap = some n' →
      LegalOperand n Slot.pin 4 12 isDec pin → LegalOperand n Slot.pan 13 19 isDec pan →
      LegalOperand n' Slot.pan 13 19 isDec pan →
      ∃ field mask drawn, HexString k field ∧ HexString k mask ∧
        exec enc s = .next (s.completeOk
          { result := xorHex field mask, aux := auxWord f pin.length, drawn := drawn }) ∧
        ∀ {blk}, LegalOperand n' Slot.pinblk k k isHex blk → xorHex blk mask = field →
          exec dec s' = .next (s'.completeOk { result := pin, aux := auxWord f pin.length })) :
    RoundTrips enc dec f true := by
  refine roundTrips_of_completes fun hn hn' hpin hpan => ?_
  obtain ⟨hpan, hpan'⟩ := hpan rfl
  obtain ⟨field, mask, drawn, hfield, hmask, henc, hdec⟩ := h hn hn' hpin hpan hpan'
  have hblock := hfield.xor hmask
  exact ⟨_, hblock.1.trans_le hk, henc, fun hblk => hdec (hblock.legal hblk) (hfield.xor_cancel hmask)⟩

theorem roundTrips_f0 : RoundTrips .pinEncF0 .pinDecF0 0 true :=
  roundTrips_of_masked (by decide) fun hn hn' hpin hpan hpan' =>
    ⟨_, _, _, hexString_pf16 (by decide) hpin (hexString_padF _), hexString_panF16 hpan, exec_pinEncF0 hn hpin hpan,
      exec_pinDecF0 hn' (.of_legal hpin) hpan'⟩

/-- Format 1 reads no PAN: the block is the field. -/
theorem roundTrips_f1 : RoundTrips .pinEncF1 .pinDecF1 1 false := by
  refine roundTrips_of_completes fun {s _ _ _ pin _} hn hn' hpin _ => ?_
  have hblock := hexString_pf16 (by decide : 1 < 16) hpin (hexString_padDraws Config.params s.draws (14 - pin.length))
  exact ⟨_, hblock.1.trans_le (by decide), exec_pinEncF1 hn hpin, fun hblk =>
    exec_pinDecF1 hn' (.of_legal hpin) (hblock.legal hblk) rfl⟩

theorem roundTrips_f2 : RoundTrips .pinEncF2 .pinDecF2 2 true :=
  roundTrips_of_masked (by decide) fun hn hn' hpin hpan hpan' =>
    ⟨_, _, _, hexString_pf16 (by decide) hpin (hexString_padF _), hexString_panF16 hpan, exec_pinEncF2 hn hpin hpan,
      exec_pinDecF2 hn' (.of_legal hpin) hpan'⟩

theorem roundTrips_f3 : RoundTrips .pinEncF3 .pinDecF3 3 true :=
  roundTrips_of_masked (by decide) fun hn hn' hpin hpan hpan' =>
    ⟨_, _, _, hexString_pf16 (by decide) hpin (hexString_padDraws _ _ _), hexString_panF16 hpan,
      exec_pinEncF3 hn hpin hpan, exec_pinDecF3 hn' (.of_legal hpin) hpan'⟩

/-- Format 4 decodes from what its field begins with. -/
theorem roundTrips_f4 : RoundTrips .pinEncF4 .pinDecF4 4 true :=
  roundTrips_of_masked (by decide) fun hn hn' hpin hpan hpan' =>
    have hp := PinDigits.of_legal hpin
    ⟨_, _, _, hexString_pf32 hpin, hexString_panF32 hpan, exec_pinEncF4 hn hpin hpan, fun hblk hfield =>
      exec_pinDecF4 hn' hp hpan' hblk (by rw [hfield, take_pf32 hp.le_twelve])⟩

/-- Settles O44, format by format. -/
theorem pinBlockRoundTrip : Obligations.PinBlockRoundTrip :=
  ⟨roundTrips_f0, roundTrips_f1, roundTrips_f2, roundTrips_f3, roundTrips_f4⟩

end Sys2Proof.Machine
end

section
/-! PROOFS. The DUKPT unit (R140 to R154): the counter of a KSN and its increment, the IPEK and the transaction key as
R142 and R144 build them, and the outcome of the eight commands. -/

namespace Sys2Proof.Machine

/-! ## The KSN: its counter and its identifier (R140, R151) -/

theorem ksnCounter_toNat {w : Nat} (K : BitVec w) : (ksnCounter K).toNat = K.toNat % 2 ^ 21 := by
  rw [ksnCounter, BitVec.extractLsb'_toNat, Nat.shiftRight_zero]

/-- The identifier above a cleared counter: the mask of R150 and R154 moves the KSN down to its identifier and back. -/
theorem and_not_counterMask {w : Nat} (K : BitVec w) :
    K &&& ~~~(BitVec.ofNat w 0x1FFFFF) = K >>> 21 <<< 21 := by
  have hmask : ∀ i, Nat.testBit 0x1FFFFF i = decide (i < 21) := Nat.testBit_two_pow_sub_one 21
  refine BitVec.eq_of_getLsbD_eq fun i hi => ?_
  rw [BitVec.getLsbD_and, BitVec.getLsbD_not, BitVec.getLsbD_ofNat, hmask, BitVec.getLsbD_shiftLeft,
    BitVec.getLsbD_ushiftRight]
  by_cases h : i < 21
  · simp [h]
  · simp [h, hi, Nat.add_sub_cancel' (Nat.le_of_not_lt h)]

/-- A counter that is not the last leaves room for one more, in a KSN of any length that holds a counter. -/
theorem toNat_add_one_of_counter {w : Nat} (hw : 21 ≤ w) {K : BitVec w} (h : K.toNat % 2 ^ 21 ≠ 0x1FFFFF) :
    (K + 1#w).toNat = K.toNat + 1 := by
  obtain ⟨q, hq⟩ : 2 ^ 21 ∣ 2 ^ w := Nat.pow_dvd_pow 2 hw
  have hK := K.isLt
  have hone : 1 < 2 ^ w := Nat.one_lt_two_pow (by omega)
  rw [BitVec.toNat_add, BitVec.toNat_ofNat, Nat.mod_eq_of_lt hone, Nat.mod_eq_of_lt]
  omega

/-- R150, R154: the identifier with the next counter written below it is the KSN plus 1. -/
theorem counter_replaced_eq_add_one {w : Nat} (hw : 21 ≤ w) {K : BitVec w} (h : K.toNat % 2 ^ 21 ≠ 0x1FFFFF) :
    (K &&& ~~~(BitVec.ofNat w 0x1FFFFF)) ||| BitVec.ofNat w ((ksnCounter K).toNat + 1) = K + 1#w := by
  have hlast : K.toNat % 2 ^ 21 + 1 < 2 ^ 21 := by omega
  have hwidth : 2 ^ 21 ≤ 2 ^ w := Nat.pow_le_pow_right (by decide) hw
  have hid : (K >>> 21 <<< 21).toNat = 2 ^ 21 * (K.toNat / 2 ^ 21) := by
    have hK := K.isLt
    rw [BitVec.toNat_shiftLeft, BitVec.toNat_ushiftRight, Nat.shiftRight_eq_div_pow, Nat.shiftLeft_eq, Nat.mul_comm,
      Nat.mod_eq_of_lt (by omega)]
  apply BitVec.eq_of_toNat_eq
  rw [toNat_add_one_of_counter hw h, and_not_counterMask, BitVec.toNat_or, hid, ksnCounter_toNat, BitVec.toNat_ofNat,
    Nat.mod_eq_of_lt (hlast.trans_le hwidth), ← Nat.two_pow_add_eq_or_of_lt hlast]
  omega

/-- The bits above the counter stay: the increment never carries into the identifier. -/
theorem identifier_add_one {w : Nat} (hw : 21 ≤ w) {K : BitVec w} (h : K.toNat % 2 ^ 21 ≠ 0x1FFFFF) (len : Nat) :
    (K + 1#w).extractLsb' 21 len = K.extractLsb' 21 len := by
  apply BitVec.eq_of_toNat_eq
  rw [BitVec.extractLsb'_toNat, BitVec.extractLsb'_toNat, toNat_add_one_of_counter hw h, Nat.shiftRight_eq_div_pow,
    Nat.shiftRight_eq_div_pow, show (K.toNat + 1) / 2 ^ 21 = K.toNat / 2 ^ 21 by omega]

/-- Every outcome of the increment. -/
theorem ksnIncrement_eq {w : Nat} (hw : 21 ≤ w) (ksn : Chars) :
    ksnIncrement w ksn =
      if (toBits w (bytes ksn)).toNat % 2 ^ 21 = 0x1FFFFF then .error .counterExhausted
      else .ok { result := hexBits (toBits w (bytes ksn) + 1#w) } := by
  have hcounter := ksnCounter_toNat (toBits w (bytes ksn))
  simp only [ksnIncrement, require_bind, decide_eq_true_eq, pure_eq_ok]
  by_cases h : (toBits w (bytes ksn)).toNat % 2 ^ 21 = 0x1FFFFF
  · rw [if_pos h, if_neg (by omega)]
  · rw [if_neg h, if_pos (by omega), counter_replaced_eq_add_one hw h]

/-! ## The operand checks (R143, R152) -/

/-- The check of R34 for one length within the capacity. -/
theorem field_oneOf_eq {P : Params} {k : Slot} {l : Nat} (hcap : l ≤ cap P k) (n : Snap) (set : Byte → Bool)
    (e : ErrCode) :
    field P n k (oneOf [l]) set e =
      if n.len k = l then
        if ∀ c ∈ n.chars k (n.len k), set c = true then .ok (n.chars k (n.len k)) else .error .invalidCharacter
      else .error e := by
  rw [field_eq fun h => (List.mem_singleton.1 (oneOf_iff.1 h)).trans_le hcap]
  simp only [oneOf_iff, List.mem_singleton, List.all_eq_true]

/-- The capacity of KSN is 24, the longer of the two KSN lengths. -/
theorem ksnChk_eq (P : Params) (n : Snap) {k : Nat} (hk : k ≤ 24) :
    ksnChk P n k =
      if n.len Slot.ksn = k then
        if ∀ c ∈ n.chars Slot.ksn (n.len Slot.ksn), isHex c = true then .ok (n.chars Slot.ksn (n.len Slot.ksn))
        else .error .invalidCharacter
      else .error .invalidKsnLength :=
  field_oneOf_eq hk n isHex .invalidKsnLength

theorem ksnChk_of_legal {n : Snap} {k : Nat} {ksn : Chars} (h : LegalOperand n Slot.ksn k k isHex ksn) :
    ksnChk Config.params n k = .ok ksn :=
  field_of_fixed h

theorem legacyKey_of_legal {n : Snap} {key : Chars} (h : LegalKey n [32] key) :
    legacyKey Config.params n = .ok key :=
  field_of_key h

theorem aesBdk_of_legal {n : Snap} {t : KeyType} {key : Chars} (h : LegalKey n [2 * t.keylen] key) :
    aesBdk Config.params n t = .ok key :=
  field_of_key h

theorem requireCode_some {α : Type} {o : Option α} {a : α} (h : o = some a) : requireCode o = .ok a :=
  requireCode_ok_iff.2 h

/-- R19 has the codes 0 to 2. -/
theorem usageOf_of_two_lt {code : Nat} (h : 2 < code) : usageOf code = none := by
  obtain ⟨k, rfl⟩ := Nat.exists_eq_add_of_lt h
  rw [show 2 + k + 1 = k + 3 by omega]
  rfl

/-! ## Every outcome of the increments (R150, R154) -/

/-- A KSN increment on a KSN of `k` characters, `w` bits: the two tests of the operand, then the test of the counter. -/
theorem complete_ksnIncrement (s : State) (n : Snap) {w k : Nat} (hw : 21 ≤ w) (hk : k ≤ 24) :
    s.complete (ksnChk Config.params n k >>= ksnIncrement w) =
      if n.len Slot.ksn ≠ k then s.completeErr .invalidKsnLength
      else if ¬ (∀ c ∈ n.chars Slot.ksn (n.len Slot.ksn), isHex c = true) then s.completeErr .invalidCharacter
      else if (toBits w (bytes (n.chars Slot.ksn (n.len Slot.ksn)))).toNat % 2 ^ 21 = 0x1FFFFF then
        s.completeErr .counterExhausted
      else s.completeOk { result := hexBits (toBits w (bytes (n.chars Slot.ksn (n.len Slot.ksn))) + 1#w) } := by
  rw [ksnChk_eq _ _ hk]
  simp only [ite_error_bind, ok_bind, ksnIncrement_eq hw, complete_ite, complete_error, complete_ok, ne_eq, ite_not]

theorem exec_dukptKsnInc {s : State} {n : Snap} (hn : s.snap = some n) :
    exec .dukptKsnInc s = .next (s.complete (ksnChk Config.params n 20 >>= ksnIncrement 80)) :=
  exec_of_snap_ne (by decide) hn

theorem exec_dukptAesKsnInc {s : State} {n : Snap} (hn : s.snap = some n) :
    exec .dukptAesKsnInc s = .next (s.complete (ksnChk Config.params n 24 >>= ksnIncrement 96)) :=
  exec_of_snap_ne (by decide) hn

/-- Settles O47: one chain of tests for both commands; above the counter nothing changes. -/
theorem ksnIncrementEveryOutcome : Obligations.KsnIncrementEveryOutcome := by
  refine ⟨rfl, rfl, fun s n hn => ?_, fun s n hn => ?_, fun K h => identifier_add_one (by decide) h _,
    fun K h => identifier_add_one (by decide) h _⟩
  · rw [exec_dukptKsnInc hn, complete_ksnIncrement s n (by decide) (by decide)]
  · rw [exec_dukptAesKsnInc hn, complete_ksnIncrement s n (by decide) (by decide)]

/-! ## The IPEK (R141, R142) -/

theorem ipekMask_eq : ipekMask = bytesOf 16 0xC0C0C0C000000000C0C0C0C000000000 := by decide

/-- The base of a KSN is its identifier with the 5 counter bits below it cleared. -/
theorem ksnBase_eq (K : BitVec 80) : ksnBase K = K.extractLsb' 21 59 ++ 0#5 := by
  have hmask : ∀ i, i < 64 → (0xFFFFFFFFFFFFFFE0#64).getLsbD i = decide (5 ≤ i) := by decide
  refine BitVec.eq_of_getLsbD_eq fun i hi => ?_
  rw [ksnBase, BitVec.getLsbD_and, hmask i hi, BitVec.getLsbD_append, BitVec.getLsbD_extractLsb',
    BitVec.getLsbD_extractLsb', BitVec.getLsbD_zero]
  by_cases h : i < 5
  · simp [h]
  · simp [h, hi, show i - 5 < 59 by omega, show 21 + (i - 5) = 16 + i by omega, Nat.le_of_not_lt h]

/-! ## The transaction key (R144) -/

/-- The counter bits below `i` are taken from the lowest up, and a bit that is not set is passed over. -/
theorem tkRight_eq_foldl (P : Params) (l : Block) (c : BitVec 21) (r : Block) (i : Nat) :
    tkRight P l c r i = ((List.range i).filter fun j => c.getLsbD j).foldl
      (fun r j => P.dukptStep (bytesOf 8 l.toNat ++ bytesOf 8 r.toNat) (r ^^^ BitVec.ofNat 64 (2 ^ j))) r := by
  induction i with
  | zero => rfl
  | succ i ih =>
    rw [tkRight, List.range_succ, List.filter_append, List.foldl_append, ← ih]
    cases hbit : c.getLsbD i
    · simp [hbit]
    · simp [hbit, ofBits]

theorem tkRight_counter_zero (P : Params) (l r : Block) (i : Nat) : tkRight P l 0#21 r i = r := by
  rw [tkRight_eq_foldl]
  simp

theorem transactionKey_append (P : Params) (l r : Block) (c : BitVec 21) :
    transactionKey P (l ++ r) c = l ++ tkRight P l c r 21 := by
  simp only [transactionKey, BitVec.extractLsb'_append_eq_left, BitVec.extractLsb'_append_eq_right]

/-- A 16-byte value is put together again from its halves. -/
theorem halves_append (I : Block16) : I.extractLsb' 64 64 ++ I.extractLsb' 0 64 = I := by
  rw [BitVec.extractLsb'_append_extractLsb'_eq_extractLsb' (by decide)]
  exact BitVec.extractLsb'_eq_self

/-- Settles O46: IPEK and transaction key as R142 and R144 write them; the IPEK sees the KSN's base alone, and counter 0
takes no step. -/
theorem legacyKeyDerivation : Obligations.LegacyKeyDerivation := by
  refine ⟨fun P bdk K => ?_, fun P l r c => ?_, fun P bdk K K' h => ?_, fun P I => ?_, fun P I c => ?_⟩
  · rw [ipek, ipekMask_eq, ksnBase]
  · rw [transactionKey_append, tkRight_eq_foldl]
  · rw [ipek, ipek, ksnBase_eq, ksnBase_eq, h]
  · rw [transactionKey, tkRight_counter_zero, halves_append]
  · rw [transactionKey, BitVec.extractLsb'_append_eq_left]

/-! ## The derivations on legal operands (R143, R146, R148, R149) -/

section
variable {s : State} {n : Snap} {key ksn : Chars} (hn : s.snap = some n) (hkey : LegalKey n [32] key)
  (hksn : LegalOperand n Slot.ksn 20 20 isHex ksn)
include hn hkey hksn

theorem exec_dukptIpek : exec .dukptIpek s = .next (s.completeOk
    { result := hexBits (ipek Config.params (bytes key) (toBits 80 (bytes ksn))) }) :=
  exec_of_ruleOf_ok (by decide) hn
    (by simp only [ruleOf, dukptIpek, legacyKey_of_legal hkey, ksnChk_of_legal hksn, ok_bind, pure_eq_ok])

theorem exec_dukptTk : exec .dukptTk s = .next (s.completeOk
    { result := hexBits (transactionKey Config.params (ipek Config.params (bytes key) (toBits 80 (bytes ksn)))
        (ksnCounter (toBits 80 (bytes ksn)))) }) :=
  exec_of_ruleOf_ok (by decide) hn
    (by simp only [ruleOf, dukptTk, legacyKey_of_legal hkey, ksnChk_of_legal hksn, ok_bind, pure_eq_ok])

theorem exec_dukptTkIpek : exec .dukptTkIpek s = .next (s.completeOk
    { result := hexBits (transactionKey Config.params (toBits 128 (bytes key))
        (ksnCounter (toBits 80 (bytes ksn)))) }) :=
  exec_of_ruleOf_ok (by decide) hn
    (by simp only [ruleOf, dukptTkIpek, legacyKey_of_legal hkey, ksnChk_of_legal hksn, ok_bind, pure_eq_ok])

theorem exec_dukptWk {u : Usage} (hu : usageOf n.usage = some u) : exec .dukptWk s = .next (s.completeOk
    { result := hexBits (transactionKey Config.params (ipek Config.params (bytes key) (toBits 80 (bytes ksn)))
        (ksnCounter (toBits 80 (bytes ksn))) ^^^ Config.params.variant u) }) :=
  exec_of_ruleOf_ok (by decide) hn (by simp only [ruleOf, dukptWk, legacyKey_of_legal hkey, ksnChk_of_legal hksn,
    requireCode_some hu, ok_bind, pure_eq_ok])

/-- USAGE is checked after both strings. -/
theorem exec_dukptWk_of_usage_illegal (hu : 2 < n.usage) :
    exec .dukptWk s = .next (s.completeErr .invalidParameter) := by
  rw [exec_of_snap_ne (by decide) hn]
  simp only [ruleOf, dukptWk, legacyKey_of_legal hkey, ksnChk_of_legal hksn, usageOf_of_two_lt hu, requireCode, ok_bind,
    error_bind, complete_error]

end

/-- Settles O45: each derivation's rule, once its checks have passed. -/
theorem legacyDukptCompletes : Obligations.LegacyDukptCompletes :=
  fun _ _ _ _ hn hkey hksn => ⟨exec_dukptIpek hn hkey hksn, exec_dukptTk hn hkey hksn, exec_dukptTkIpek hn hkey hksn,
    fun _ hu => exec_dukptWk hn hkey hksn hu, exec_dukptWk_of_usage_illegal hn hkey hksn⟩

/-! ## The AES derivations on legal operands (R152, R153) -/

section
variable {s : State} {n : Snap} {t : KeyType} {key ksn : Chars} (hn : s.snap = some n)
  (ht : aesTypeOf n.keytype = some t) (hkey : LegalKey n [2 * t.keylen] key)
  (hksn : LegalOperand n Slot.ksn 24 24 isHex ksn)
include hn ht hkey hksn

theorem exec_dukptAesIk : exec .dukptAesIk s = .next (s.completeOk
    { result := hex (Config.params.aesDukptIK (bytes key) t (bytes ksn)).toList }) :=
  exec_of_ruleOf_ok (by decide) hn (by simp only [ruleOf, dukptAesIk, requireCode_some ht, aesBdk_of_legal hkey,
    ksnChk_of_legal hksn, ok_bind, pure_eq_ok])

theorem exec_dukptAesWk {u : Usage} {w : KeyType} (hu : usageOf n.usage = some u) (hw : keyTypeOf n.wktype = some w) :
    exec .dukptAesWk s = .next (s.completeOk
      { result := hex (Config.params.aesDukptWK (bytes key) t (bytes ksn) u w).toList }) :=
  exec_of_ruleOf_ok (by decide) hn (by simp only [ruleOf, dukptAesWk, requireCode_some ht, aesBdk_of_legal hkey,
    ksnChk_of_legal hksn, requireCode_some hu, requireCode_some hw, ok_bind, pure_eq_ok])

end

/-- The bytes of a vector as hex characters, two for each byte. -/
theorem hex_toList_length {k : Nat} (v : Vector Byte k) : (hex v.toList).length = 2 * k := by
  rw [hex_length, Vector.length_toList]

/-- Settles O48: each derivation's rule, once its checks have passed; the parameter's own type gives the length. -/
theorem aesDukptCompletes : Obligations.AesDukptCompletes :=
  fun _ _ _ _ _ hn ht hkey hksn =>
    ⟨⟨_, exec_dukptAesIk hn ht hkey hksn, rfl, hex_toList_length _⟩, fun _ _ hu hw =>
      ⟨_, exec_dukptAesWk hn ht hkey hksn hu hw, rfl, hex_toList_length _⟩⟩

end Sys2Proof.Machine
end

section
/-! PROOFS. The MAC unit (R180 to R198): CBC, padding and CMAC block by block, Algorithm 3 as one function of its two
finalizations, the checks of R183 as one chain of tests, and what the ten commands answer. -/

namespace Sys2Proof.Machine

/-! ## CBC and the last block (R181) -/

/-- The blocks of whole blocks and one more. -/
theorem toBlocks_append_block (w : Nat) {b : Nat} (hb : 0 < b) {d last : Bytes} (hd : d.length % b = 0)
    (hlast : last.length = b) : toBlocks w b (d ++ last) = toBlocks w b d ++ [toBits w last] := by
  rw [toBlocks_append w b last hd, toBlocks_one w b hb hlast]

theorem cbc_append_block {w b : Nat} (E : BitVec w → BitVec w) (hb : 0 < b) {d last : Bytes}
    (hd : d.length % b = 0) (hlast : last.length = b) :
    cbc E (toBlocks w b (d ++ last)) = E (cbc E (toBlocks w b d) ^^^ toBits w last) := by
  rw [toBlocks_append_block w hb hd hlast, cbc_append_one]

/-- Settles O36: no block leaves the zero block, and the last block of a longer string is the last step of the chain. -/
theorem cbcChainsBlocks : Obligations.CbcChainsBlocks := by
  intro b E d last hb hd hlast
  refine ⟨?_, cbc_append_block E hb hd hlast⟩
  rw [toBlocks_nil, cbc_nil]

/-! ## CMAC (R192, R193) -/

theorem dbl_toNat {w : Nat} (rb x : BitVec w) :
    (dbl rb x).toNat = (2 * x.toNat % 2 ^ w) ^^^ (if x.getLsbD (w - 1) then rb.toNat else 0) := by
  have hshift : x.toNat <<< 1 = 2 * x.toNat := by rw [Nat.shiftLeft_eq, Nat.pow_one, Nat.mul_comm]
  rw [dbl, BitVec.toNat_xor, BitVec.toNat_shiftLeft, hshift, BitVec.msb_eq_getLsbD_last,
    apply_ite BitVec.toNat, BitVec.toNat_zero]

/-- The mask meets the last block alone. -/
theorem cbc_maskLast_append_block {w b : Nat} (E : BitVec w → BitVec w) (k : BitVec w) (hb : 0 < b)
    {d last : Bytes} (hd : d.length % b = 0) (hlast : last.length = b) :
    cbc E (maskLast k (toBlocks w b (d ++ last))) = E (cbc E (toBlocks w b d) ^^^ (toBits w last ^^^ k)) := by
  rw [toBlocks_append_block w hb hd hlast, maskLast_append_one, cbc_append_one]

theorem cmac_of_complete {w b : Nat} (rb : BitVec w) (E : BitVec w → BitVec w) (hb : 0 < b) {d last : Bytes}
    (hd : d.length % b = 0) (hlast : last.length = b) :
    cmac rb b E (d ++ last) = E (cbc E (toBlocks w b d) ^^^ (toBits w last ^^^ cmacK1 rb E)) := by
  have hcomplete : 0 < (d ++ last).length ∧ (d ++ last).length % b = 0 := by
    rw [List.length_append, hlast, Nat.add_mod_right]
    exact ⟨by omega, hd⟩
  rw [cmac, if_pos hcomplete, cbc_maskLast_append_block E _ hb hd hlast]

/-- The empty message has no complete last block either: `d = []` with `last = []` is such a message. -/
theorem cmac_of_incomplete {w b : Nat} (rb : BitVec w) (E : BitVec w → BitVec w) {d last : Bytes}
    (hd : d.length % b = 0) (hlast : last.length < b) (hne : d = [] ∨ 0 < last.length) :
    cmac rb b E (d ++ last) = E (cbc E (toBlocks w b d) ^^^
      (toBits w (last ++ [0x80#8] ++ List.replicate (b - last.length - 1) 0x00#8) ^^^ cmacK2 rb E)) := by
  have hmod : (d ++ last).length % b = last.length := by
    rw [List.length_append, Nat.add_mod, hd, Nat.zero_add, Nat.mod_mod, Nat.mod_eq_of_lt hlast]
  have hincomplete : ¬ (0 < (d ++ last).length ∧ (d ++ last).length % b = 0) := by
    rw [hmod]
    rintro ⟨hpos, hzero⟩
    rcases hne with rfl | hne
    · rw [List.nil_append] at hpos
      omega
    · omega
  have hblock : (last ++ [0x80#8] ++ List.replicate (b - last.length - 1) 0x00#8).length = b := by
    simp only [List.length_append, List.length_singleton, List.length_replicate]
    omega
  rw [cmac, if_neg hincomplete, pad2_append b hd hlast,
    cbc_maskLast_append_block E _ (Nat.zero_lt_of_lt hlast) hd hblock]

/-- Settles O38: a complete last block meets K1, a padded one K2. -/
theorem cmacFunction : Obligations.CmacFunction :=
  ⟨fun _ rb x => dbl_toNat rb x, fun _ rb E _ _ hb hd _ =>
    ⟨fun hlast => cmac_of_complete rb E hb hd hlast, fun hlast hne => cmac_of_incomplete rb E hd hlast hne⟩⟩

/-! ## Algorithm 3 and its finalizations (R186, R190, R196) -/

theorem alg1_append_block (P : Params) (k : Bytes) {d last : Bytes} (hd : d.length % 8 = 0)
    (hlast : last.length = 8) : alg1 P k (d ++ last) = desE P k (alg1 P k d ^^^ toBits 64 last) :=
  cbc_append_block (desE P k) (by decide) hd hlast

/-- Single DES does not see what follows the first key part. -/
theorem desE_append_eq (P : Params) {k : Bytes} (hk : k.length = 8) (r : Bytes) : desE P (k ++ r) = desE P k :=
  funext fun x => by rw [desE_append P hk, desE_part P hk]

theorem alg1_append_key (P : Params) {k : Bytes} (hk : k.length = 8) (r m : Bytes) :
    alg1 P (k ++ r) m = alg1 P k m := by
  rw [alg1, alg1, desE_append_eq P hk]

/-- R196: triple DES on the last block is single DES on it, which ends the chain, and then Algorithm 3's two calls. -/
theorem tdesE_last_block (P : Params) {k1 k2 d last : Bytes} (h1 : k1.length = 8) (h2 : k2.length = 8)
    (hd : d.length % 8 = 0) (hlast : last.length = 8) :
    tdesE P (k1 ++ k2) (alg1 P (k1 ++ k2) d ^^^ toBits 64 last) = alg3 P (k1 ++ k2) (d ++ last) := by
  rw [tdesE, thirdKey_two_parts h1 h2, alg3, alg1_append_block P _ hd hlast]

/-- With equal key parts the decryption of Algorithm 3 and the encryption after it cancel. -/
theorem alg3_equal_parts {P : Params} (h : P.CipherLawful) {k : Bytes} (hk : k.length = 8) (m : Bytes) :
    alg3 P (k ++ k) m = alg1 P k m := by
  rw [alg3, List.drop_left' hk, desE_append_eq P hk, desE_desD h, alg1_append_key P hk]

theorem tdesE_two_equal_parts {P : Params} (h : P.CipherLawful) {k : Bytes} (hk : k.length = 8) :
    tdesE P (k ++ k) = desE P k :=
  funext fun x => by rw [tdesE_two_parts P hk hk, h.1, desE_part P hk]

theorem tdesE_three_equal_parts {P : Params} (h : P.CipherLawful) {k : Bytes} (hk : k.length = 8) :
    tdesE P (k ++ k ++ k) = desE P k :=
  funext fun x => by rw [tdesE_three_parts P hk hk hk, h.1, desE_part P hk]

/-- A triple-DES key that acts as a single-DES key gives the Algorithm 1 value (R190). -/
theorem tdesCbc_eq_alg1 {P : Params} {k k' : Bytes} (h : tdesE P k' = desE P k) (m : Bytes) :
    tdesCbc P k' m = alg1 P k m := by
  rw [tdesCbc, h, alg1]

/-- Settles O39: the two finalizations by what triple DES of the last block is, the rest by cancelling equal parts. -/
theorem alg3ProfilesAgree : Obligations.Alg3ProfilesAgree :=
  fun P _ _ _ _ h h1 h2 hd hlast =>
    ⟨tdesE_last_block P h1 h2 hd hlast, alg3_equal_parts h h1 _, tdesCbc_eq_alg1 (tdesE_two_equal_parts h h1) _,
      tdesCbc_eq_alg1 (tdesE_three_equal_parts h h1) _⟩

/-! ## The checks of R183 -/

/-- The characters of a DATA string within the capacity. -/
theorem dataChars_of_le {P : Params} {n : Snap} (h : n.len Slot.data ≤ P.dataMax) :
    dataChars P n =
      if ∀ c ∈ n.chars Slot.data (n.len Slot.data), isHex c = true then .ok (n.chars Slot.data (n.len Slot.data))
      else .error .invalidCharacter := by
  have hslot : slot P n Slot.data = some (n.chars Slot.data (n.len Slot.data)) := slot_of_le h
  rw [dataChars, hslot]
  simp only [List.all_eq_true]

/-- Every outcome of the checks after the key: DATA's length before its characters, then PADMETHOD, then TRUNC. -/
theorem macChk_eq (P : Params) (n : Snap) (ls : List Nat) :
    macChk P n ls = field P n Slot.key (oneOf ls) isHex .invalidKeyLength >>= fun key =>
      if n.len Slot.data ≤ P.dataMax ∧ n.len Slot.data % 2 = 0 then
        if 0 < n.len Slot.data then
          if ∀ c ∈ n.chars Slot.data (n.len Slot.data), isHex c = true then
            if n.padmethod ∈ [1, 2, 3] then
              if 1 ≤ n.trunc ∧ n.trunc ≤ 8 then
                .ok ⟨bytes key, padMethod n.padmethod 8 (bytes (n.chars Slot.data (n.len Slot.data))), n.trunc⟩
              else .error .invalidTruncation
            else .error .invalidParameter
          else .error .invalidCharacter
        else .error .emptyData
      else .error .invalidDataLength := by
  simp only [macChk, dataLengthChk, require_bind, Bool.and_eq_true, decide_eq_true_eq, oneOf_iff, between_iff,
    pure_eq_ok]
  congr 1
  funext key
  by_cases hlen : n.len Slot.data ≤ P.dataMax ∧ n.len Slot.data % 2 = 0
  · rw [if_pos hlen, if_pos hlen, dataChars_of_le hlen.1, ite_error_bind, ok_bind]
  · rw [if_neg hlen, if_neg hlen]

/-- On a legal key and a legal message that is not empty, PADMETHOD and TRUNC decide. -/
theorem macChk_of_legal {n : Snap} {ls : List Nat} {key dat : Chars} (hkey : LegalKey n ls key)
    (hdat : LegalData n dat) (hne : 0 < dat.length) :
    macChk Config.params n ls =
      if n.padmethod ∈ [1, 2, 3] then
        if 1 ≤ n.trunc ∧ n.trunc ≤ 8 then .ok ⟨bytes key, padMethod n.padmethod 8 (bytes dat), n.trunc⟩
        else .error .invalidTruncation
      else .error .invalidParameter := by
  obtain ⟨hslot, heven, hhex⟩ := hdat
  obtain ⟨hle, rfl⟩ := slot_eq_some_iff.1 hslot
  rw [Snap.chars_length] at heven hne
  rw [macChk_eq, field_of_key hkey, ok_bind, if_pos ⟨hle, heven⟩, if_pos hne, if_pos hhex]

/-! ## Padding (R180) -/

theorem pad1_eq_append (b : Nat) (m : Bytes) (hb : 0 < b) :
    ∃ k, k < b ∧ pad1 b m = m ++ List.replicate k 0x00#8 ∧ (pad1 b m).length % b = 0 :=
  ⟨_, Nat.mod_lt _ hb, rfl, pad1_length_mod b m hb⟩

theorem pad2_eq_append (b : Nat) (m : Bytes) (hb : 0 < b) :
    ∃ k, k < b ∧ pad2 b m = m ++ [0x80#8] ++ List.replicate k 0x00#8 ∧ (pad2 b m).length % b = 0 :=
  ⟨_, Nat.mod_lt _ hb, List.append_cons .., pad2_length_mod b m hb⟩

theorem pad3_eq_append (b : Nat) (m : Bytes) :
    ∃ p, p.length = b ∧ intOf p = 8 * m.length % 256 ^ b ∧ pad3 b m = p ++ pad1 b m :=
  ⟨bytesOf b (8 * m.length), bytesOf_length b _, intOf_bytesOf b _, rfl⟩

section
variable {s : State} {n : Snap} {ls : List Nat} {key dat : Chars} (hn : s.snap = some n)
  (hkey : LegalKey n ls key) (hdat : LegalData n dat) (hne : 0 < dat.length) (mac : Bytes → Bytes → Block)
include hn hkey hdat hne

theorem command_desMac_of_padmethod_illegal (hpad : n.padmethod ∉ [1, 2, 3]) :
    command (desMac Config.params ls mac) s = .next (s.completeErr .invalidParameter) := by
  rw [command_of_snap hn, desMac, macChk_of_legal hkey hdat hne, if_neg hpad, error_bind, complete_error]

theorem command_desMac_of_legal (hpad : n.padmethod ∈ [1, 2, 3]) (hlo : 1 ≤ n.trunc) (hhi : n.trunc ≤ 8) :
    command (desMac Config.params ls mac) s = .next (s.completeOk
      { result := truncated (mac (bytes key) (padMethod n.padmethod 8 (bytes dat))) n.trunc }) := by
  rw [command_of_snap hn, desMac, macChk_of_legal hkey hdat hne, if_pos hpad, if_pos ⟨hlo, hhi⟩, ok_bind, pure_eq_ok,
    complete_ok]

end

/-- Settles O37: the shape of each padding, and the check of PADMETHOD that all eight commands share. -/
theorem paddingMethods : Obligations.PaddingMethods := by
  refine ⟨fun b m hb => ⟨rfl, rfl, rfl, pad1_eq_append b m hb, pad2_eq_append b m hb, pad3_eq_append b m⟩, ?_⟩
  intro i s n key dat hi hn hdat hne hpad
  obtain ⟨rfl | rfl, hkey⟩ | ⟨rfl | rfl | rfl | rfl | rfl, hkey⟩ | ⟨rfl, hkey⟩ := hi <;>
    exact command_desMac_of_padmethod_illegal hn hkey hdat hne _ hpad

/-! ## The commands on legal operands (R184 to R191, R194, R195) -/

/-- Settles O49: each command is the checks of R183 and its own function of key and padded message, so that `exec` of it
unfolds to the one shape of `command_desMac_of_legal`. -/
theorem desMacsComplete : Obligations.DesMacsComplete := by
  intro s n key dat hn hdat hne hpad hlo hhi
  refine ⟨fun hkey => ⟨?_, ?_⟩, fun hkey => ⟨?_, ?_, ?_, ?_, ?_⟩, fun hkey => ?_⟩ <;>
    exact command_desMac_of_legal hn hkey hdat hne _ hpad hlo hhi

theorem command_cmac_of_legal {w : Nat} {s : State} {n : Snap} {ls : List Nat} {key dat : Chars}
    (hn : s.snap = some n) (hkey : LegalKey n ls key) (hdat : LegalData n dat) (mac : Bytes → Bytes → BitVec w)
    (hlo : 1 ≤ n.trunc) {maxTrunc : Nat} (hhi : n.trunc ≤ maxTrunc) :
    command (cmacCommand Config.params ls maxTrunc mac) s = .next (s.completeOk
      { result := truncated (mac (bytes key) (bytes dat)) n.trunc }) := by
  obtain ⟨hslot, hlen, hhex⟩ := hkey
  obtain ⟨hdslot, heven, hdhex⟩ := hdat
  have hle : dat.length ≤ Config.params.dataMax := (slot_length hdslot).trans_le (slot_eq_some_iff.1 hdslot).1
  have hok : cmacCommand Config.params ls maxTrunc mac n =
      .ok { result := truncated (mac (bytes key) (bytes dat)) n.trunc } :=
    cmacCommand_ok_iff.2 ⟨key, dat, hslot, hlen, hhex, hdslot, hle, heven, hdhex, hlo, hhi, rfl⟩
  rw [command_of_snap hn, hok, complete_ok]

theorem LegalKey.mono {n : Snap} {ls ls' : List Nat} {key : Chars} (h : LegalKey n ls key) (hsub : ls ⊆ ls') :
    LegalKey n ls' key := by
  obtain ⟨hslot, hlen, hhex⟩ := h
  exact ⟨hslot, hsub hlen, hhex⟩

/-- The cipher of R195 under a key of one part is single DES. -/
theorem cmacTdes_of_one_part (P : Params) {k : Bytes} (hk : k.length = 8) (m : Bytes) :
    cmacTdes P k m = cmac 0x1B#64 8 (desE P k) m := by
  have hE : cmacDes P k = desE P k := funext fun _ => if_pos hk
  rw [cmacTdes, rb64, hE]

/-- Under a key of two or three parts it is triple DES. -/
theorem cmacTdes_of_more_parts (P : Params) {k : Bytes} (hk : k.length ≠ 8) (m : Bytes) :
    cmacTdes P k m = cmac 0x1B#64 8 (tdesE P k) m := by
  have hE : cmacDes P k = tdesE P k := funext fun _ => if_neg hk
  rw [cmacTdes, rb64, hE]

/-- Settles O50: the checks ask nothing of PADMETHOD or of an empty message; the key's length picks the cipher. -/
theorem cmacsComplete : Obligations.CmacsComplete := by
  intro s n key dat hn hdat hlo
  refine ⟨fun hkey hhi => command_cmac_of_legal hn hkey hdat _ hlo hhi, fun hkey hhi => ?_, fun hkey hhi => ?_⟩
  · have ⟨_, hlen, _⟩ := hkey
    have hpart : (bytes key).length = 8 := by
      rw [bytes_length, List.mem_singleton.1 hlen]
    rw [← cmacTdes_of_one_part Config.params hpart]
    exact command_cmac_of_legal hn (hkey.mono (by decide)) hdat _ hlo hhi
  · have ⟨_, hmem, _⟩ := hkey
    have hlen : key.length = 32 ∨ key.length = 48 := by simpa using hmem
    have hparts : (bytes key).length ≠ 8 := by
      rw [bytes_length]
      omega
    rw [← cmacTdes_of_more_parts Config.params hparts]
    exact command_cmac_of_legal hn (hkey.mono (by decide)) hdat _ hlo hhi

/-! ## Every outcome of MAC_ALG1 (R183, R184) -/

/-- The Algorithm 1 value under a key of exactly one part, as the block's DES parameter gives it. -/
theorem alg1_part (P : Params) {k : Bytes} (hk : k.length = 8) (m : Bytes) :
    alg1 P k m = cbc (P.desE (toBits 64 k)) (toBlocks 64 8 m) := by
  rw [alg1, funext (desE_part P hk)]

theorem truncated_block (g : Block) (t : Nat) : truncated g t = hex ((bytesOf 8 g.toNat).take t) := rfl

/-- Settles O51: the key's two tests, then the chain of `macChk_eq`; a key that passes is one DES key. -/
theorem macAlg1EveryOutcome : Obligations.MacAlg1EveryOutcome := by
  refine ⟨rfl, fun s n hn => ?_⟩
  dsimp only
  rw [exec_of_snap_ne (by decide) hn, ruleOf, desMac, macChk_eq, field_oneOf_eq (show 16 ≤ 64 by decide)]
  by_cases hlen : n.len Slot.key = 16
  · have hpart : (bytes (n.chars Slot.key (n.len Slot.key))).length = 8 := by
      rw [bytes_length, Snap.chars_length, hlen]
    simp only [ite_error_bind, ok_bind, pure_eq_ok, alg1_part _ hpart, truncated_block, complete_ite, complete_error,
      complete_ok, ne_eq, ite_not]
    simp only [Nat.pos_iff_ne_zero, ne_eq, ite_not]
  · rw [if_neg hlen, if_pos hlen, error_bind, error_bind, complete_error]

/-! ## Truncation (R182, R198) -/

/-- The two results are the leftmost TRUNC bytes of one MAC value, which has that many. -/
def ShareValue (n n' : Snap) (r r' : Chars) : Prop :=
  ∃ g : Bytes, n'.trunc ≤ g.length ∧ r = hex (g.take n.trunc) ∧ r' = hex (g.take n'.trunc)

/-- A shorter and a longer start of one value. -/
theorem ShareValue.take_eq {n n' : Snap} {r r' : Chars} (h : ShareValue n n' r r') (ht : n.trunc ≤ n'.trunc) :
    r = r'.take (2 * n.trunc) ∧ r'.length = 2 * n'.trunc ∧ ∀ c ∈ r', isHex c = true := by
  obtain ⟨g, hg, rfl, rfl⟩ := h
  refine ⟨?_, ?_, fun c hc => isHex_of_mem_hex hc⟩
  · rw [← hex_take, List.take_take, Nat.min_eq_left ht]
  · rw [hex_length, List.length_take, Nat.min_eq_left hg]

/-- PARAM0 is read by none of the checks but that of TRUNC. -/
theorem shareValue_desMac {P : Params} {ls : List Nat} {mac : Bytes → Bytes → Block} {n : Snap} {p : Word}
    {a a' : Answer} (h : desMac P ls mac n = .ok a) (h' : desMac P ls mac { n with param0 := p } = .ok a') :
    ShareValue n { n with param0 := p } a.result a'.result := by
  obtain ⟨_, hchk, rfl⟩ := desMac_ok_iff.1 h
  obtain ⟨_, hchk', rfl⟩ := desMac_ok_iff.1 h'
  obtain ⟨key, dat, hkey, -, -, hdat, -, -, -, -, -, -, -, rfl⟩ := macChk_ok_iff.1 hchk
  obtain ⟨key', dat', hkey', -, -, hdat', -, -, -, -, -, -, hhi, rfl⟩ := macChk_ok_iff.1 hchk'
  obtain rfl : key = key' := Option.some.inj (hkey.symm.trans hkey')
  obtain rfl : dat = dat' := Option.some.inj (hdat.symm.trans hdat')
  exact ⟨_, hhi.trans_eq (ofBits_length (w := 64) _).symm, rfl, rfl⟩

theorem shareValue_cmacCommand {P : Params} {w : Nat} {ls : List Nat} {maxTrunc : Nat}
    {mac : Bytes → Bytes → BitVec w} {n : Snap} {p : Word} {a a' : Answer}
    (h : cmacCommand P ls maxTrunc mac n = .ok a)
    (h' : cmacCommand P ls maxTrunc mac { n with param0 := p } = .ok a') (hw : maxTrunc = w / 8) :
    ShareValue n { n with param0 := p } a.result a'.result := by
  obtain ⟨key, dat, hkey, -, -, hdat, -, -, -, -, -, rfl⟩ := cmacCommand_ok_iff.1 h
  obtain ⟨key', dat', hkey', -, -, hdat', -, -, -, -, hhi, rfl⟩ := cmacCommand_ok_iff.1 h'
  obtain rfl : key = key' := Option.some.inj (hkey.symm.trans hkey')
  obtain rfl : dat = dat' := Option.some.inj (hdat.symm.trans hdat')
  exact ⟨_, hhi.trans_eq (hw.trans (ofBits_length _).symm), rfl, rfl⟩

/-- Every MAC command has one of the two shared shapes, and CMAC's TRUNC is at most its block. -/
theorem shareValue_ruleOf {i : Instr}
    (hi : i ∈ [Instr.macAlg1, .macAlg2, .macAlg3, .macX99, .macX919, .macRetail, .macTdesCbc, .macAs2805, .macCmacAes,
      .macCmacTdes]) {P : Params} {d d' : Nat} {n : Snap} {p : Word} {a a' : Answer} (h : ruleOf P i d n = .ok a)
    (h' : ruleOf P i d' { n with param0 := p } = .ok a') :
    ShareValue n { n with param0 := p } a.result a'.result := by
  cases i with
  | macAlg1 | macAlg2 | macAlg3 | macX99 | macX919 | macRetail | macTdesCbc | macAs2805 =>
    exact shareValue_desMac h h'
  | macCmacAes | macCmacTdes => exact shareValue_cmacCommand h h' rfl
  | _ => exact absurd hi (by decide)

/-- A command but ZEROIZE that left no error has an answer, and RESULT shows it. -/
theorem exec_next_without_error {i : Instr} (hi : i ≠ .zeroize) {s t : State} {n : Snap} (hm : s.mem.wf)
    (hn : s.snap = some n) (h : exec i s = .next t) (herr : t.status.err = false) :
    ∃ a, ruleOf Config.params i s.draws n = .ok a ∧ resultString t = a.result := by
  obtain rfl : s.complete (ruleOf Config.params i s.draws n) = t := by
    simpa [exec_of_snap_ne hi hn] using h
  cases hr : ruleOf Config.params i s.draws n with
  | error e => simp [hr] at herr
  | ok a =>
    obtain ⟨hlen, -⟩ := ruleOf_showable hr
    exact ⟨a, rfl, resultString_completeOk hm (hlen.trans (by decide))⟩

/-- Settles O52: both results are starts of one MAC value. -/
theorem truncationKeepsLeftmost : Obligations.TruncationKeepsLeftmost := by
  intro i s s' t t' n n' hi hm hm' hn hn' hsame ht hexec hexec' herr herr'
  have hne : i ≠ .zeroize := by
    rintro rfl
    exact absurd hi (by decide)
  obtain ⟨a, hrule, hresult⟩ := exec_next_without_error hne hm hn hexec herr
  obtain ⟨a', hrule', hresult'⟩ := exec_next_without_error hne hm' hn' hexec' herr'
  rw [hsame] at hrule' ht ⊢
  rw [hresult, hresult']
  exact (shareValue_ruleOf hi hrule hrule').take_eq ht

end Sys2Proof.Machine
end

section
/-! PROOFS. The card verification unit (R220 to R241): its checks pass exactly on the legal operands, what each of the
thirteen commands answers on them, and that the two PIN verification schemes give the PIN back. -/

namespace Sys2Proof.Machine

/-! ## The checks pass exactly on the legal operands (R34, R222, R230, R232) -/

theorem field_between_ok_iff {n : Snap} {k : Slot} {lo hi : Nat} {set : Byte → Bool} {e : ErrCode} {str : Chars} :
    field Config.params n k (between lo hi) set e = .ok str ↔ LegalOperand n k lo hi set str := by
  rw [field_ok_iff, between_iff, and_assoc]
  rfl

theorem field_oneOf_ok_iff {n : Snap} {k : Slot} {l : Nat} {set : Byte → Bool} {e : ErrCode} {str : Chars} :
    field Config.params n k (oneOf [l]) set e = .ok str ↔ LegalOperand n k l l set str := by
  refine ⟨fun h => ?_, field_of_fixed⟩
  obtain ⟨hslot, hlen, hset⟩ := field_ok_iff.1 h
  obtain rfl : str.length = l := by simpa using hlen
  exact ⟨hslot, le_rfl, le_rfl, hset⟩

theorem fixedField_ok_iff {n : Snap} {k : Slot} {l : Nat} {set : Byte → Bool} {str : Chars} :
    fixedField Config.params n k l set = .ok str ↔ LegalOperand n k l l set str :=
  field_oneOf_ok_iff

theorem cardKey_ok_iff {n : Snap} {key : Chars} : cardKey Config.params n = .ok key ↔ LegalKey n [32] key := by
  rw [cardKey, field_ok_iff, oneOf_iff]
  rfl

theorem pdkChk_ok_iff {n : Snap} {pdk : Chars} : pdkChk Config.params n = .ok pdk ↔ LegalKey n [32, 48] pdk := by
  rw [pdkChk, field_ok_iff, oneOf_iff]
  rfl

theorem cardPan_ok_iff {n : Snap} {pan : Chars} :
    cardPan Config.params n = .ok pan ↔ LegalOperand n Slot.pan 12 19 isDec pan :=
  field_between_ok_iff

/-- The table check delivers the table in force and nothing else. -/
theorem decChk_ok_iff {n : Snap} {t : Chars} : decChk Config.params n = .ok t ↔ TableInForce n t := by
  refine ⟨fun h => ?_, decChk_of_inForce⟩
  obtain ⟨hlen, hdec⟩ := decChk_ok h
  unfold decChk at h
  split at h
  case isTrue h0 => exact .inl ⟨h0, (Except.ok.inj h).symm⟩
  case isFalse =>
    split at h
    case isFalse => cases h
    case isTrue =>
      cases hslot : slot Config.params n Slot.dectab with
      | none => simp [hslot] at h
      | some d =>
        simp only [hslot] at h
        split at h
        · cases h
          exact .inr ⟨hslot, hlen.ge, hlen.le, hdec⟩
        · cases h

theorem maskChk_ok_iff_legal {n : Snap} {m : Chars} :
    maskChk Config.params n = .ok m ↔ LegalOperand n Slot.mask 4 12 isMask m :=
  maskChk_ok_iff

theorem LegalOperand.length_eq {n : Snap} {k : Slot} {l : Nat} {set : Byte → Bool} {str : Chars}
    (h : LegalOperand n k l l set str) : str.length = l := by
  obtain ⟨-, hlo, hhi, -⟩ := h
  omega

theorem LegalOperand.mem_set {n : Snap} {k : Slot} {lo hi : Nat} {set : Byte → Bool} {str : Chars}
    (h : LegalOperand n k lo hi set str) : ∀ c ∈ str, set c = true := by
  obtain ⟨-, -, -, hset⟩ := h
  exact hset

theorem LegalOperand.eq_of_holds {n : Snap} {k : Slot} {lo hi : Nat} {set : Byte → Bool} {str str' : Chars}
    (h : LegalOperand n k lo hi set str) (h' : Holds n k str') : str' = str := by
  obtain ⟨hslot, -, -, -⟩ := h
  exact Option.some.inj (h'.symm.trans hslot)

theorem LegalOperand.of_sameSlot {n n' : Snap} {k : Slot} {lo hi : Nat} {set : Byte → Bool} {str : Chars}
    (h : LegalOperand n k lo hi set str) (hk : SameSlot n' n k) : LegalOperand n' k lo hi set str := by
  simpa only [LegalOperand, Holds, hk.str] using h

/-! ## CVV and CSC (R222 to R227) -/

section
variable {s : State} {n : Snap} {key pan exp svc atc check : Chars} (hn : s.snap = some n) (hkey : LegalKey n [32] key)
  (hexp : LegalOperand n Slot.exp 4 4 isDec exp) (hsvc : LegalOperand n Slot.svc 3 3 isDec svc)

section
include hkey hexp hsvc

theorem cvvInput_of_legal (hpan : LegalOperand n Slot.pan 12 19 isDec pan) :
    cvvInput Config.params n = .ok (bytes key, fill32 (right 16 pan ++ exp ++ svc)) := by
  simp only [cvvInput, cardKey_ok_iff.2 hkey, cardPan_ok_iff.2 hpan, fixedField_ok_iff.2 hexp, fixedField_ok_iff.2 hsvc,
    ok_bind, pure_eq_ok]

theorem cvvAtcInput_of_legal (hpan : LegalOperand n Slot.pan 12 19 isDec pan)
    (hatc : LegalOperand n Slot.atc 4 4 isDec atc) :
    cvvAtcInput Config.params n = .ok (bytes key, fill32 (right 16 pan ++ exp ++ svc ++ atc)) := by
  simp only [cvvAtcInput, cardKey_ok_iff.2 hkey, cardPan_ok_iff.2 hpan, fixedField_ok_iff.2 hexp,
    fixedField_ok_iff.2 hsvc, fixedField_ok_iff.2 hatc, ok_bind, pure_eq_ok]

theorem cscInput_of_legal (hpan : LegalOperand n Slot.pan 15 15 isDec pan) :
    cscInput Config.params n = .ok (bytes key, fill32 (pan ++ exp ++ svc)) := by
  simp only [cscInput, cardKey_ok_iff.2 hkey, field_oneOf_ok_iff.2 hpan, fixedField_ok_iff.2 hexp,
    fixedField_ok_iff.2 hsvc, ok_bind, pure_eq_ok]

end

variable {k : Bytes} {block : Chars}
include hn

theorem exec_cvvGen (hi : cvvInput Config.params n = .ok (k, block)) :
    exec .cvvGen s = .next (s.completeOk { result := digitsOf (cvEnc Config.params k block) 3 }) :=
  exec_of_ruleOf_ok (by decide) hn (by simp only [ruleOf, cvvGen, hi, cardCode, ok_bind, pure_eq_ok])

theorem exec_cvvGenAtc (hi : cvvAtcInput Config.params n = .ok (k, block)) :
    exec .cvvGenAtc s = .next (s.completeOk { result := digitsOf (cvEnc Config.params k block) 3 }) :=
  exec_of_ruleOf_ok (by decide) hn (by simp only [ruleOf, cvvGenAtc, hi, cardCode, ok_bind, pure_eq_ok])

theorem exec_cvvVerify (hi : cvvInput Config.params n = .ok (k, block))
    (hcheck : LegalOperand n Slot.check 3 3 isDec check) :
    exec .cvvVerify s =
      .next (s.completeOk { result := [], matched := decide (check = cardCode Config.params 3 (k, block)) }) :=
  exec_of_ruleOf_ok (by decide) hn
    (by simp only [ruleOf, cvvVerify, hi, fixedField_ok_iff.2 hcheck, ok_bind, pure_eq_ok])

theorem exec_cvvVerifyAtc (hi : cvvAtcInput Config.params n = .ok (k, block))
    (hcheck : LegalOperand n Slot.check 3 3 isDec check) :
    exec .cvvVerifyAtc s =
      .next (s.completeOk { result := [], matched := decide (check = cardCode Config.params 3 (k, block)) }) :=
  exec_of_ruleOf_ok (by decide) hn
    (by simp only [ruleOf, cvvVerifyAtc, hi, fixedField_ok_iff.2 hcheck, ok_bind, pure_eq_ok])

theorem exec_cscV1 (hi : cscInput Config.params n = .ok (k, block)) :
    exec .cscV1 s = .next (s.completeOk { result := digitsOf (cvEnc Config.params k block) 4 }) :=
  exec_of_ruleOf_ok (by decide) hn (by simp only [ruleOf, cscV1, hi, cardCode, ok_bind, pure_eq_ok])

theorem exec_cscV2 (hi : cscInput Config.params n = .ok (k, block)) :
    exec .cscV2 s = .next (s.completeOk { result := digitsOf (cvEnc Config.params k block) 12 }) :=
  exec_of_ruleOf_ok (by decide) hn (by simp only [ruleOf, cscV2, hi, cardCode, ok_bind, pure_eq_ok])

end

/-- Settles O53: each command's code of the block that its checks deliver on legal operands. -/
theorem cvvAndCscComplete : Obligations.CvvAndCscComplete :=
  fun _ _ _ _ _ _ hn hkey hexp hsvc =>
    ⟨fun hpan => ⟨exec_cvvGen hn (cvvInput_of_legal hkey hexp hsvc hpan),
        fun _ hatc => exec_cvvGenAtc hn (cvvAtcInput_of_legal hkey hexp hsvc hpan hatc)⟩,
      fun hpan => ⟨exec_cscV1 hn (cscInput_of_legal hkey hexp hsvc hpan),
        exec_cscV2 hn (cscInput_of_legal hkey hexp hsvc hpan)⟩⟩

/-- Settles O54: a verify command has the input of its generating command and compares CHECK with the code of it. -/
theorem cvvVerifyMatchesGenerated : Obligations.CvvVerifyMatchesGenerated := by
  intro s n key pan exp svc check hn hkey hpan hexp hsvc hcheck
  refine ⟨?_, fun atc hatc => ?_⟩
  · have hi := cvvInput_of_legal hkey hexp hsvc hpan
    exact ⟨_, exec_cvvGen hn hi, exec_cvvVerify hn hi hcheck⟩
  · have hi := cvvAtcInput_of_legal hkey hexp hsvc hpan hatc
    exact ⟨_, exec_cvvGenAtc hn hi, exec_cvvVerifyAtc hn hi hcheck⟩

/-! ## DIGITS (R221) -/

theorem digitsOf_eq_append (h : Chars) (k : Nat) :
    digitsOf h k = (h.filter isDec).take k ++ List.replicate (k - (h.filter isDec).length) (dchar 0) := by
  rw [digitsOf, List.take_append, List.take_replicate, Nat.min_eq_left (Nat.sub_le k _)]

theorem digitsOf_of_enough {h : Chars} {k : Nat} (hk : k ≤ (h.filter isDec).length) :
    digitsOf h k = (h.filter isDec).take k := by
  rw [digitsOf_eq_append, Nat.sub_eq_zero_of_le hk, List.replicate_zero, List.append_nil]

theorem digitsOf_of_too_few {h : Chars} {k : Nat} (hk : (h.filter isDec).length ≤ k) :
    digitsOf h k = h.filter isDec ++ List.replicate (k - (h.filter isDec).length) (dchar 0) := by
  rw [digitsOf_eq_append, List.take_of_length_le hk]

/-- A shorter extraction is the start of a longer one. -/
theorem take_digitsOf (h : Chars) {j k : Nat} (hjk : j ≤ k) : (digitsOf h k).take j = digitsOf h j := by
  rw [digitsOf_eq_append, digitsOf_eq_append, List.take_append, List.take_take, List.take_replicate, List.length_take,
    Nat.min_eq_left hjk, show min (j - min k (h.filter isDec).length) (k - (h.filter isDec).length) =
      j - (h.filter isDec).length by omega]

theorem take_cardCode (P : Params) (i : Bytes × Chars) {j k : Nat} (hjk : j ≤ k) :
    (cardCode P k i).take j = cardCode P j i :=
  take_digitsOf _ hjk

/-- Settles O55: the two cases of DIGITS, and both CSC commands show a code of the one input of R226. -/
theorem digitExtraction : Obligations.DigitExtraction := by
  refine ⟨fun h k => ⟨digitsOf_length h k, fun c hc => isDec_of_mem_digitsOf hc, digitsOf_of_enough,
    digitsOf_of_too_few⟩, fun s a b hm hv1 hv2 => ?_⟩
  obtain ⟨n, hn, -⟩ := exec_next hv1
  obtain ⟨a', ha', hra⟩ := exec_next_without_error (by decide) hm hn hv1 rfl
  obtain ⟨b', hb', hrb⟩ := exec_next_without_error (by decide) hm hn hv2 rfl
  simp only [ruleOf, cscV1, cscV2, bind_ok_iff, pure_eq_ok, Except.ok.injEq] at ha' hb'
  obtain ⟨i, hi, rfl⟩ := ha'
  obtain ⟨j, hj, rfl⟩ := hb'
  obtain rfl : i = j := Except.ok.inj (hi.symm.trans hj)
  rw [hra, hrb]
  exact (take_cardCode Config.params i (by decide)).symm

/-! ## CVC3 (R228, R229) -/

/-- CV_ENC under a key of two parts, on a block of exactly 32 characters. -/
theorem cvEnc_two_parts (P : Params) {k1 : Bytes} (h1 : k1.length = 8) (k2 : Bytes) {block : Chars}
    (hb : block.length = 32) :
    cvEnc P (k1 ++ k2) block =
      hexBits (tdesE P (k1 ++ k2)
        (P.desE (toBits 64 k1) (toBits 64 (bytes (block.take 16))) ^^^ toBits 64 (bytes (block.drop 16)))) := by
  rw [cvEnc, desE_append P h1, List.take_of_length_le (l := block.drop 16) (by rw [List.length_drop]; omega)]

theorem cvc3Block_length {trk un atc : Chars} (hun : un.length = 8) (hatc : atc.length = 4) :
    (cvc3Block trk un atc).length = 32 := by
  simp [cvc3Block, hun, hatc]

theorem exec_cvc3Gen {s : State} {n : Snap} {imk pan psn trk un atc : Chars} (hn : s.snap = some n)
    (hkey : LegalKey n [32] imk) (hpan : LegalOperand n Slot.pan 12 19 isDec pan)
    (hpsn : LegalOperand n Slot.psn 2 2 isDec psn) (htrk : LegalOperand n Slot.track 1 64 isHex trk)
    (hun : LegalOperand n Slot.un 8 8 isHex un) (hatc : LegalOperand n Slot.atc 4 4 isHex atc) :
    exec .cvc3Gen s = .next (s.completeOk
      { result := cardCode Config.params 3
          (cvc3MasterKey Config.params (bytes imk) pan psn, cvc3Block trk un atc) }) :=
  exec_of_ruleOf_ok (by decide) hn (by simp only [ruleOf, cvc3Gen, cardKey_ok_iff.2 hkey, cardPan_ok_iff.2 hpan,
    fixedField_ok_iff.2 hpsn, field_between_ok_iff.2 htrk, fixedField_ok_iff.2 hun, fixedField_ok_iff.2 hatc, ok_bind,
    pure_eq_ok])

/-- Settles O56: the master key is two DES keys of 8 bytes, and the block has 32 characters. -/
theorem cvc3Completes : Obligations.Cvc3Completes := by
  intro s n imk pan psn trk un atc hn hkey hpan hpsn htrk hun hatc
  rw [exec_cvc3Gen hn hkey hpan hpsn htrk hun hatc, cardCode, cvc3MasterKey,
    cvEnc_two_parts _ (ofBits_length _) _ (cvc3Block_length hun.length_eq hatc.length_eq)]
  rfl

/-! ## The operands of the natural digits (R230, R231) -/

/-- The operands that the PVV and the IBM 3624 commands make the natural digits of: PDK, PAN and the table in force. -/
structure NaturalOperands (n : Snap) (pdk pan t : Chars) : Prop where
  key : LegalKey n [32, 48] pdk
  pan : LegalOperand n Slot.pan 12 19 isDec pan
  table : TableInForce n t

theorem NaturalOperands.isDec_naturalDigits {n : Snap} {pdk pan t : Chars} (h : NaturalOperands n pdk pan t) :
    ∀ c ∈ naturalDigits Config.params (bytes pdk) pan t, isDec c = true := by
  obtain ⟨-, hdec⟩ := decChk_ok (decChk_of_inForce h.table)
  exact fun c hc => isDec_of_mem_naturalDigits hdec hc

/-- Snapshots with the same KEY, PAN and DECTAB give the same natural digits. -/
theorem NaturalOperands.of_sameSlot {n n' : Snap} {pdk pan t : Chars} (h : NaturalOperands n pdk pan t)
    (hkey : SameSlot n' n Slot.key) (hpan : SameSlot n' n Slot.pan) (htab : SameSlot n' n Slot.dectab) :
    NaturalOperands n' pdk pan t where
  key := by simpa only [LegalKey, Holds, hkey.str] using h.key
  pan := h.pan.of_sameSlot hpan
  table := by simpa only [TableInForce, LegalOperand, Holds, htab.len, htab.str] using h.table

/-! ## Visa PVV (R232, R233) -/

section
variable {n : Snap} {pdk pan t : Chars} (hnat : NaturalOperands n pdk pan t)
include hnat

/-- On legal strings PVKI decides (R232). -/
theorem pvvGen_of_legal {pin : Chars} (hpin : LegalOperand n Slot.pin 4 4 isDec pin) :
    pvvGen Config.params n =
      if n.pvki ≤ 9 then
        .ok { result := addDigits pin (tsp (naturalDigits Config.params (bytes pdk) pan t) n.pvki) }
      else .error .invalidPvki := by
  simp only [pvvGen, pdkChk_ok_iff.2 hnat.key, cardPan_ok_iff.2 hnat.pan, field_oneOf_ok_iff.2 hpin,
    decChk_of_inForce hnat.table, ok_bind, require_bind, decide_eq_true_eq, pure_eq_ok]

/-- On legal strings PVKI decides (R233). -/
theorem pvvPin_of_legal {pvv : Chars} (hpvv : LegalOperand n Slot.check 4 4 isDec pvv) :
    pvvPin Config.params n =
      if n.pvki ≤ 9 then
        .ok { result := subDigits pvv (tsp (naturalDigits Config.params (bytes pdk) pan t) n.pvki) }
      else .error .invalidPvki := by
  simp only [pvvPin, pdkChk_ok_iff.2 hnat.key, cardPan_ok_iff.2 hnat.pan, fixedField_ok_iff.2 hpvv,
    decChk_of_inForce hnat.table, ok_bind, require_bind, decide_eq_true_eq, pure_eq_ok]

end

theorem exec_pvvGen {s : State} {n : Snap} (hn : s.snap = some n) :
    exec .pvvGen s = .next (s.complete (pvvGen Config.params n)) :=
  exec_of_snap_ne (by decide) hn

theorem exec_pvvPin {s : State} {n : Snap} (hn : s.snap = some n) :
    exec .pvvPin s = .next (s.complete (pvvPin Config.params n)) :=
  exec_of_snap_ne (by decide) hn

/-- Settles O57: both commands by PVKI, once their strings are legal. -/
theorem pvvCommandsComplete : Obligations.PvvCommandsComplete := by
  intro s n pdk pan t hn hkey hpan ht
  have hnat : NaturalOperands n pdk pan t := ⟨hkey, hpan, ht⟩
  refine ⟨fun pin hpin => ?_, fun pvv hpvv => ?_⟩
  · rw [exec_pvvGen hn, pvvGen_of_legal hnat hpin]
    exact ⟨fun hv => by rw [if_pos hv]; rfl, fun hv => by rw [if_neg (by omega)]; rfl⟩
  · rw [exec_pvvPin hn, pvvPin_of_legal hnat hpvv]
    exact ⟨fun hv => by rw [if_pos hv]; rfl, fun hv => by rw [if_neg (by omega)]; rfl⟩

/-! ## IBM 3624 (R234 to R239) -/

theorem vdParamsChk_of_legal {n : Snap} (h : LegalVdParams n) : vdParamsChk n = .ok () :=
  vdParamsChk_ok_iff.2 h

section
variable {n : Snap} {pdk pan t : Chars} (hnat : NaturalOperands n pdk pan t)
include hnat

theorem ibmOffset_of_legal (hv : LegalVdParams n) {pin : Chars}
    (hpin : LegalOperand n Slot.pin n.pinlen n.pinlen isDec pin) :
    ibmOffset Config.params n =
      .ok { result := subDigits pin (vdParams n (naturalDigits Config.params (bytes pdk) pan t)) } := by
  simp only [ibmOffset, pdkChk_ok_iff.2 hnat.key, cardPan_ok_iff.2 hnat.pan, decChk_of_inForce hnat.table,
    vdParamsChk_of_legal hv, field_oneOf_ok_iff.2 hpin, ok_bind, pure_eq_ok]

theorem ibmPin_of_legal (hv : LegalVdParams n) {off : Chars}
    (hoff : LegalOperand n Slot.check n.pinlen n.pinlen isDec off) :
    ibmPin Config.params n =
      .ok { result := addDigits (vdParams n (naturalDigits Config.params (bytes pdk) pan t)) off } := by
  simp only [ibmPin, pdkChk_ok_iff.2 hnat.key, cardPan_ok_iff.2 hnat.pan, decChk_of_inForce hnat.table,
    vdParamsChk_of_legal hv, fixedField_ok_iff.2 hoff, ok_bind, pure_eq_ok]

variable {m : Chars} (hm : LegalOperand n Slot.mask 4 12 isMask m)
include hm

theorem ibmOffsetMask_of_legal {pin : Chars} (hpin : LegalOperand n Slot.pin m.length m.length isDec pin) :
    ibmOffsetMask Config.params n =
      .ok { result := subDigits pin (vdMask m (naturalDigits Config.params (bytes pdk) pan t)) } := by
  simp only [ibmOffsetMask, pdkChk_ok_iff.2 hnat.key, cardPan_ok_iff.2 hnat.pan, decChk_of_inForce hnat.table,
    maskChk_ok_iff_legal.2 hm, field_oneOf_ok_iff.2 hpin, ok_bind, pure_eq_ok]

theorem ibmPinMask_of_legal {off : Chars} (hoff : LegalOperand n Slot.check m.length m.length isDec off) :
    ibmPinMask Config.params n =
      .ok { result := addDigits (vdMask m (naturalDigits Config.params (bytes pdk) pan t)) off } := by
  simp only [ibmPinMask, pdkChk_ok_iff.2 hnat.key, cardPan_ok_iff.2 hnat.pan, decChk_of_inForce hnat.table,
    maskChk_ok_iff_legal.2 hm, fixedField_ok_iff.2 hoff, ok_bind, pure_eq_ok]

end

/-- Settles O58: each command's rule, once its checks have passed. -/
theorem ibmCommandsComplete : Obligations.IbmCommandsComplete := by
  intro s n pdk pan t hn hkey hpan ht
  have hnat : NaturalOperands n pdk pan t := ⟨hkey, hpan, ht⟩
  exact ⟨fun hv => ⟨fun _ hpin => exec_of_ruleOf_ok (by decide) hn (ibmOffset_of_legal hnat hv hpin),
      fun _ hoff => exec_of_ruleOf_ok (by decide) hn (ibmPin_of_legal hnat hv hoff)⟩,
    fun _ hm => ⟨fun _ hpin => exec_of_ruleOf_ok (by decide) hn (ibmOffsetMask_of_legal hnat hm hpin),
      fun _ hoff => exec_of_ruleOf_ok (by decide) hn (ibmPinMask_of_legal hnat hm hoff)⟩⟩

/-! ## The digits that are added and subtracted (R232, R234, R235) -/

/-- PVKI at most 9 leaves 4 of the 16 natural digits. -/
theorem tsp_length {nat : Chars} (hlen : nat.length = 16) {k : Nat} (hk : k ≤ 9) : (tsp nat k).length = 4 := by
  rw [tsp, List.length_take, List.length_drop]
  omega

theorem isDec_of_mem_tsp {nat : Chars} (hdec : ∀ c ∈ nat, isDec c = true) {k : Nat} {c : Byte} (hc : c ∈ tsp nat k) :
    isDec c = true :=
  hdec c (List.mem_of_mem_drop (List.mem_of_mem_take hc))

/-- START plus LENGTH within the 16 natural digits gives PINLEN digits of validation data. -/
theorem vdParams_length {n : Snap} (h : LegalVdParams n) {nat : Chars} (hlen : nat.length = 16) :
    (vdParams n nat).length = n.pinlen := by
  obtain ⟨-, -, -, -, hle, hsum, -⟩ := h
  rw [vdParams, List.length_append, List.length_take, List.length_drop, List.length_replicate]
  omega

theorem isDec_of_mem_vdParams {n : Snap} (h : LegalVdParams n) {nat : Chars} (hdec : ∀ c ∈ nat, isDec c = true)
    {c : Byte} (hc : c ∈ vdParams n nat) : isDec c = true := by
  obtain ⟨-, -, -, -, -, -, hpad⟩ := h
  rcases List.mem_append.1 hc with hc | hc
  · exact hdec c (List.mem_of_mem_drop (List.mem_of_mem_take hc))
  · rwa [List.eq_of_mem_replicate hc]

theorem vdMask_length {m nat : Chars} (hle : m.length ≤ nat.length) : (vdMask m nat).length = m.length := by
  rw [vdMask, List.length_zipWith, Nat.min_eq_left hle]

/-- A mask character is a digit, or it is `N` and a natural digit stands in its place. -/
theorem isDec_of_mem_vdMask {m nat : Chars} (hm : ∀ c ∈ m, isMask c = true) (hdec : ∀ c ∈ nat, isDec c = true)
    {c : Byte} (hc : c ∈ vdMask m nat) : isDec c = true := by
  obtain ⟨i, hi, rfl⟩ := List.mem_iff_getElem.1 hc
  rw [vdMask, List.length_zipWith] at hi
  have him : i < m.length := by omega
  have hin : i < nat.length := by omega
  have hmask := hm _ (List.getElem_mem him)
  simp only [vdMask, List.getElem_zipWith]
  split
  case isTrue => exact hdec _ (List.getElem_mem hin)
  case isFalse hne => simpa [isMask, hne] using hmask

/-! ## The PIN comes back (R240, R241) -/

/-- Where the inverse command, given in CHECK any result of the generating one, answers with the PIN, a run of the two
returns the PIN. -/
theorem exec_returns_pin {gen inv : Instr} (hgen : gen ≠ .zeroize) (hinv : inv ≠ .zeroize) {s s' t : State}
    {n n' : Snap} {pin : Chars} (hm : s.mem.wf) (hm' : s'.mem.wf) (hn : s.snap = some n) (hn' : s'.snap = some n')
    (ht : exec gen s = .next t) (herr : t.status.err = false) (hcheck : Holds n' Slot.check (resultString t))
    (h : ∀ a, ruleOf Config.params gen s.draws n = .ok a → Holds n' Slot.check a.result →
      ruleOf Config.params inv s'.draws n' = .ok { result := pin }) :
    ∃ t', exec inv s' = .next t' ∧ t'.status.err = false ∧ ResultIs t' pin := by
  obtain ⟨a, ha, hres⟩ := exec_next_without_error hgen hm hn ht herr
  have hok := h a ha (hres ▸ hcheck)
  obtain ⟨hlen, -⟩ := ruleOf_showable hok
  exact ⟨_, exec_of_ruleOf_ok hinv hn' hok, rfl, resultIs_completeOk hm' (hlen.trans (by decide))⟩

/-- A digit-wise sum that stands in CHECK is a legal operand there. -/
theorem legalOperand_addDigits {n : Snap} {l : Nat} {x y : Chars} (h : Holds n Slot.check (addDigits x y))
    (hx : x.length = l) (hy : y.length = l) : LegalOperand n Slot.check l l isDec (addDigits x y) := by
  have hlen : (addDigits x y).length = l := by rw [addDigits_length, hx, hy, Nat.min_self]
  exact ⟨h, hlen.ge, hlen.le, fun _ hc => isDec_of_mem_addDigits hc⟩

theorem legalOperand_subDigits {n : Snap} {l : Nat} {x y : Chars} (h : Holds n Slot.check (subDigits x y))
    (hx : x.length = l) (hy : y.length = l) : LegalOperand n Slot.check l l isDec (subDigits x y) := by
  have hlen : (subDigits x y).length = l := by rw [subDigits_length, hx, hy, Nat.min_self]
  exact ⟨h, hlen.ge, hlen.le, fun _ hc => isDec_of_mem_subDigits hc⟩

section
variable {n n' : Snap} {pin : Chars} {a : Answer} (hpin : Holds n Slot.pin pin) (hkey : SameSlot n' n Slot.key)
  (hpan : SameSlot n' n Slot.pan) (htab : SameSlot n' n Slot.dectab) (hcheck : Holds n' Slot.check a.result)
include hpin hkey hpan htab hcheck

/-- R240: the TSP of the two commands is the same, and subtracting it undoes adding it. -/
theorem pvvPin_of_pvvGen (hpvki : n'.pvki = n.pvki) (h : pvvGen Config.params n = .ok a) :
    pvvPin Config.params n' = .ok { result := pin } := by
  simp only [pvvGen, bind_ok_iff, pdkChk_ok_iff, cardPan_ok_iff, field_oneOf_ok_iff, decChk_ok_iff, require_ok_iff,
    decide_eq_true_eq, pure_eq_ok, Except.ok.injEq] at h
  obtain ⟨pdk, hlkey, pan, hlpan, pin', hlpin, t, ht, -, hv, rfl⟩ := h
  obtain rfl : pin = pin' := hlpin.eq_of_holds hpin
  have hnat : NaturalOperands n pdk pan t := ⟨hlkey, hlpan, ht⟩
  have hlen := tsp_length (naturalDigits_length Config.params (bytes pdk) pan t) hv
  rw [pvvPin_of_legal (hnat.of_sameSlot hkey hpan htab) (legalOperand_addDigits hcheck hlpin.length_eq hlen), hpvki,
    if_pos hv, subDigits_addDigits (hlpin.length_eq.trans hlen.symm).le hlpin.mem_set
      fun _ hc => isDec_of_mem_tsp hnat.isDec_naturalDigits hc]

/-- R241 in parameter mode: the validation data of the two commands is the same, and adding it undoes subtracting it. -/
theorem ibmPin_of_ibmOffset (hvd : SameVdFields n' n) (h : ibmOffset Config.params n = .ok a) :
    ibmPin Config.params n' = .ok { result := pin } := by
  simp only [ibmOffset, bind_ok_iff, pdkChk_ok_iff, cardPan_ok_iff, field_oneOf_ok_iff, decChk_ok_iff,
    vdParamsChk_ok_iff, pure_eq_ok, Except.ok.injEq] at h
  obtain ⟨pdk, hlkey, pan, hlpan, t, ht, -, hv, pin', hlpin, rfl⟩ := h
  obtain rfl : pin = pin' := hlpin.eq_of_holds hpin
  have hnat : NaturalOperands n pdk pan t := ⟨hlkey, hlpan, ht⟩
  have hlen := vdParams_length hv (naturalDigits_length Config.params (bytes pdk) pan t)
  have hoff := legalOperand_subDigits hcheck hlpin.length_eq hlen
  rw [← hvd.pinlen] at hoff
  have hv' : LegalVdParams n' := vdParamsChk_ok_iff.1 ((vdParamsChk_congr hvd).trans (vdParamsChk_of_legal hv))
  rw [ibmPin_of_legal (hnat.of_sameSlot hkey hpan htab) hv' hoff, vdParams_congr hvd,
    addDigits_subDigits (hlpin.length_eq.trans hlen.symm).le hlpin.mem_set
      fun _ hc => isDec_of_mem_vdParams hv hnat.isDec_naturalDigits hc]

/-- R241 in mask mode. -/
theorem ibmPinMask_of_ibmOffsetMask (hmask : SameSlot n' n Slot.mask) (h : ibmOffsetMask Config.params n = .ok a) :
    ibmPinMask Config.params n' = .ok { result := pin } := by
  simp only [ibmOffsetMask, bind_ok_iff, pdkChk_ok_iff, cardPan_ok_iff, field_oneOf_ok_iff, decChk_ok_iff,
    maskChk_ok_iff_legal, pure_eq_ok, Except.ok.injEq] at h
  obtain ⟨pdk, hlkey, pan, hlpan, t, ht, m, hm, pin', hlpin, rfl⟩ := h
  obtain rfl : pin = pin' := hlpin.eq_of_holds hpin
  have hnat : NaturalOperands n pdk pan t := ⟨hlkey, hlpan, ht⟩
  have ⟨_, _, h12, _⟩ := hm
  have hlen : (vdMask m (naturalDigits Config.params (bytes pdk) pan t)).length = m.length :=
    vdMask_length (by rw [naturalDigits_length]; omega)
  rw [ibmPinMask_of_legal (hnat.of_sameSlot hkey hpan htab) (hm.of_sameSlot hmask)
      (legalOperand_subDigits hcheck hlpin.length_eq hlen),
    addDigits_subDigits (hlpin.length_eq.trans hlen.symm).le hlpin.mem_set
      fun _ hc => isDec_of_mem_vdMask hm.mem_set hnat.isDec_naturalDigits hc]

end

/-- The fields of the parameter mode stand in PARAM0 and PARAM1 (R25, R26). -/
theorem SameVdFields.of_params {n n' : Snap} (h0 : n'.param0 = n.param0) (h1 : n'.param1 = n.param1) :
    SameVdFields n' n where
  pinlen := by rw [Snap.pinlen, Snap.pinlen, h1]
  start := by rw [Snap.start, Snap.start, h0]
  length := by rw [Snap.length, Snap.length, h0]
  padchar := by rw [Snap.padchar, Snap.padchar, h1]

/-- Settles O59: the accepted operands are legal ones, and they are the inverse command's operands too. -/
theorem pvvSymmetry : Obligations.PvvSymmetry := by
  intro s s' t n n' pin hm hm' hn hn' hpin ht herr hcheck hsame h0
  have same (k : Slot) (hk : k ∈ [Slot.key, Slot.pan, Slot.dectab] := by decide) : SameSlot n' n k :=
    ⟨(hsame k hk).1, (hsame k hk).2⟩
  have hpvki : n'.pvki = n.pvki := by rw [Snap.pvki, Snap.pvki, h0]
  exact exec_returns_pin (by decide) (by decide) hm hm' hn hn' ht herr hcheck fun a ha hc =>
    pvvPin_of_pvvGen hpin (same Slot.key) (same Slot.pan) (same Slot.dectab) hc hpvki ha

/-- Settles O60: as O59, for the two modes of R241. -/
theorem offsetSymmetry : Obligations.OffsetSymmetry := by
  intro gen inv s s' t n n' pin hmode hm hm' hn hn' hpin ht herr hcheck hsame h0 h1
  have same (k : Slot) (hk : k ∈ [Slot.key, Slot.pan, Slot.dectab, Slot.mask] := by decide) : SameSlot n' n k :=
    ⟨(hsame k hk).1, (hsame k hk).2⟩
  rcases hmode with ⟨rfl, rfl⟩ | ⟨rfl, rfl⟩
  · exact exec_returns_pin (by decide) (by decide) hm hm' hn hn' ht herr hcheck fun a ha hc =>
      ibmPin_of_ibmOffset hpin (same Slot.key) (same Slot.pan) (same Slot.dectab) hc (.of_params h0 h1) ha
  · exact exec_returns_pin (by decide) (by decide) hm hm' hn hn' ht herr hcheck fun a ha hc =>
      ibmPinMask_of_ibmOffsetMask hpin (same Slot.key) (same Slot.pan) (same Slot.dectab) hc (same Slot.mask) ha

end Sys2Proof.Machine
end

section
/-! PROOFS. The control commands and the life of a command (R270 to R280): the issue, the CMD write that is dropped, what
every completion writes and leaves, NOP, ZEROIZE, the illegal command, and that every command ends. -/

namespace Sys2Proof.Machine

/-! ## What both outcomes of a completion leave (R272, R302) -/

section

variable (s : State) (r : Except ErrCode Answer)

@[simp] theorem State.complete_snap : (s.complete r).snap = none := by cases r <;> rfl

@[simp] theorem State.complete_busy : (s.complete r).status.busy = false := by cases r <;> rfl

@[simp] theorem State.complete_done : (s.complete r).status.done = true := by cases r <;> rfl

@[simp] theorem State.complete_overrun : (s.complete r).status.overrun = s.status.overrun := by cases r <;> rfl

@[simp] theorem State.complete_lastOp : (s.complete r).status.lastOp = s.status.lastOp := by cases r <;> rfl

@[simp] theorem State.complete_events : (s.complete r).events = s.events := by cases r <;> rfl

@[simp] theorem State.complete_response : (s.complete r).response = s.response := by cases r <;> rfl

@[simp] theorem completionBase_status (i : Instr) : (completionBase i s).status = s.status := by
  unfold completionBase
  split <;> rfl

end

theorem sameOperands_completeOk (s : State) (a : Answer) : SameOperands s (s.completeOk a) :=
  ⟨rfl, rfl, rfl, rfl, rfl, fun _ hx => Memory.read_setResult_other _ _ hx⟩

theorem sameOperands_completeErr (s : State) (e : ErrCode) : SameOperands s (s.completeErr e) :=
  ⟨rfl, rfl, rfl, rfl, rfl, fun _ hx => Memory.read_setResult_other _ _ hx⟩

theorem sameOperands_complete (s : State) (r : Except ErrCode Answer) : SameOperands s (s.complete r) := by
  cases r with
  | ok a => exact sameOperands_completeOk s a
  | error e => exact sameOperands_completeErr s e

/-- What a completion with an error and one with an empty result leave alike, in a memory of any form (R29). -/
theorem resultCleared_of_setResult_nil {t : State} {m : Memory} (hlen : t.resultLen = 0#32) (haux : t.resultAux = 0#32)
    (hmem : t.mem = m.setResult []) : ResultCleared t :=
  ⟨hlen, haux, fun _ hk => by rw [hmem, Memory.read_setResult_nil _ (resultByte_of_lt hk)]⟩

theorem resultCleared_completeErr (s : State) (e : ErrCode) : ResultCleared (s.completeErr e) :=
  resultCleared_of_setResult_nil rfl rfl rfl

theorem resultCleared_completeOk_nil (s : State) : ResultCleared (s.completeOk { result := [] }) :=
  resultCleared_of_setResult_nil rfl rfl rfl

/-- Settles O12: the two completions field by field, RESULT by the law of the memory. -/
theorem completionWritesOutcome : Obligations.CompletionWritesOutcome :=
  ⟨fun s a hm hl => ⟨resultIs_completeOk hm hl, rfl, sameOperands_completeOk s a, rfl, rfl⟩,
    fun s e => ⟨resultCleared_completeErr s e, sameOperands_completeErr s e, rfl, rfl⟩⟩

/-! ## What every command does and leaves (R272, R279, R280) -/

/-- Settles O11: the rule of the command in flight answers a showable result or an error, and `MATCH` comes of a
verify command's answer alone. -/
theorem everyCommandCompletes : Obligations.EveryCommandCompletes := by
  intro i s n hn
  refine ⟨_, exec_of_snap i hn, by simp, by simp, by simp, by simp, by simp, ?_⟩
  cases hr : ruleOf Config.params i s.draws n with
  | error e => exact ⟨.inl ⟨rfl, e.code_ne_zero, rfl, resultCleared_completeErr _ e⟩, nofun⟩
  | ok a =>
    obtain ⟨hmatched, -⟩ := ruleOf_matched_drawn hr
    obtain ⟨hlen, -⟩ := ruleOf_showable hr
    refine ⟨.inr ⟨rfl, rfl, ?_⟩, hmatched⟩
    rw [complete_ok, State.completeOk_resultLen, BitVec.toNat_ofNat]
    omega

/-- No command but the two encoders with a drawn pad draws a nibble (R104, R279). -/
theorem exec_draws {i : Instr} (h1 : i ≠ .pinEncF1) (h3 : i ≠ .pinEncF3) {s t : State} (ht : exec i s = .next t) :
    t.draws = s.draws := by
  obtain ⟨n, -, rfl⟩ := exec_next ht
  cases hr : ruleOf Config.params i s.draws n with
  | error e => simp
  | ok a =>
    obtain ⟨-, hdrawn⟩ := ruleOf_matched_drawn hr
    have h0 : a.drawn = 0 := by simpa [h1, h3] using hdrawn
    simp [h0]

/-- No command but ZEROIZE writes an operand (R280). -/
theorem exec_sameOperands {i : Instr} (hi : i ≠ .zeroize) {s t : State} (ht : exec i s = .next t) :
    SameOperands s t := by
  obtain ⟨n, -, rfl⟩ := exec_next ht
  rw [completionBase_of_ne hi]
  exact sameOperands_complete s _

/-- Settles O16: the operands, the flags and the model's own fields, one frame lemma each. -/
theorem commandFrame : Obligations.CommandFrame := by
  intro i s t hi ht
  have hoperands := exec_sameOperands hi ht
  have hdraws (h1 : i ≠ .pinEncF1) (h3 : i ≠ .pinEncF3) := exec_draws h1 h3 ht
  obtain ⟨n, -, rfl⟩ := exec_next ht
  rw [completionBase_of_ne hi] at hoperands hdraws ⊢
  exact ⟨hoperands, State.complete_overrun s _, State.complete_lastOp s _, State.complete_events s _,
    State.complete_response s _, hdraws⟩

/-- Settles O14: one snapshot gives one rule, so the drawn nibbles alone can tell the two outcomes apart. -/
theorem outcomeDependsOnSnapshotAndDraws : Obligations.OutcomeDependsOnSnapshotAndDraws := by
  refine ⟨fun i s s' n hm hm' hn hn' => ?_, fun i s t hi ht => exec_sameOperands hi ht⟩
  obtain ⟨t, t', ht, ht', hdrawn, hsame⟩ := exec_sameOutcome_of_ruleOf_eq hm hm' hn hn' fun _ => rfl
  exact ⟨t, t', ht, ht', hdrawn, fun h1 h3 => exec_draws h1 h3 ht, hsame⟩

/-- After a completion the next issue takes the snapshot it would have taken before it (R270, R280). -/
theorem State.snapshot_complete (P : Params) (s : State) (r : Except ErrCode Answer) (w : Word) :
    (s.complete r).snapshot P w = s.snapshot P w := by
  cases r <;> simp [State.snapshot, Memory.keep_setResult]

theorem complete_wf {s : State} (hm : s.mem.wf) (r : Except ErrCode Answer) : (s.complete r).mem.wf := by
  cases r <;> exact Memory.wf_setResult hm _

/-- A command's rule gives the same on the snapshot of its second run: ZEROIZE reads none, and the completion of any
other command leaves what the first run's snapshot was taken from (R280). -/
theorem ruleOf_second_snapshot {i : Instr} {s t : State} {w : Word}
    (ht : exec i (s.issue Config.params w) = .next t) (d : Nat) :
    ruleOf Config.params i d (s.snapshot Config.params w) = ruleOf Config.params i d (t.snapshot Config.params w) := by
  by_cases hi : i = .zeroize
  · subst hi
    rfl
  · obtain ⟨n, -, rfl⟩ := exec_next ht
    rw [completionBase_of_ne hi, State.snapshot_complete]
    rfl

/-- Settles O15: the second run has the rule's answer of the first, as no nibble is drawn. -/
theorem sameCommandTwiceSameOutcome : Obligations.SameCommandTwiceSameOutcome := by
  refine ⟨fun i s h1 h3 hm => ?_, fun i s t hi ht => exec_sameOperands hi ht⟩
  obtain ⟨t, ht⟩ : ∃ t, exec i (s.issue Config.params (encodeWord i)) = .next t := ⟨_, exec_of_snap i rfl⟩
  have hmt : t.mem.wf := by
    obtain ⟨n, -, rfl⟩ := exec_next ht
    exact complete_wf (completionBase_wf (s := s.issue Config.params (encodeWord i)) i hm) _
  obtain ⟨t', u, ht', hu, -, hsame⟩ := exec_sameOutcome_of_ruleOf_eq (i := i)
    (s := s.issue Config.params (encodeWord i)) (s' := t.issue Config.params (encodeWord i)) hm hmt rfl rfl
    (ruleOf_second_snapshot ht)
  obtain rfl : t = t' := Host.Outcome.next.inj (ht.symm.trans ht')
  have hdraws := exec_draws h1 h3 ht
  exact ⟨t, u, ht, hu, hsame fun j hj => by omega⟩

/-! ## NOP and ZEROIZE (R276, R277) -/

theorem exec_nop {s : State} {n : Snap} (h : s.snap = some n) : exec .nop s = .next (s.completeOk { result := [] }) :=
  exec_of_snap .nop h

theorem exec_zeroize {s : State} {n : Snap} (h : s.snap = some n) :
    exec .zeroize s = .next ((s.zeroizeOperands Config.params).completeOk { result := [] }) :=
  exec_of_snap .zeroize h

/-- The memory after ZEROIZE, outside RESULT: no slot data, the rest as before. -/
theorem read_zeroized (s : State) {x : Nat} (h : isResultByte x = false) :
    Memory.read ((s.zeroizeOperands Config.params).completeOk { result := [] }).mem x =
      if isSlotByte Config.params x then 0x00#8 else Memory.read s.mem x := by
  rw [State.completeOk_mem, Memory.read_setResult_other _ _ h, State.zeroizeOperands_mem, Memory.read_clear]

theorem not_isResultByte_of_isSlotByte {P : Params} {x : Nat} (h : isSlotByte P x = true) : isResultByte x = false := by
  by_contra hr
  rw [isSlotByte_of_isResultByte (eq_true_of_ne_false hr)] at h
  cases h

theorem slotLen_zeroize (P : Params) (s : State) (k : Slot) : (s.zeroizeOperands P).slotLen.get k = 0#32 :=
  slotLen_reset k

/-- Settles O17: the live operands are cleared, then the empty result is written. -/
theorem zeroizeClearsOperands : Obligations.ZeroizeClearsOperands := by
  intro s n hn
  refine ⟨_, exec_zeroize hn, fun k i hi => ?_, slotLen_zeroize Config.params s, rfl, rfl, rfl,
    resultCleared_completeOk_nil _, rfl, rfl, rfl, rfl, rfl, rfl, fun x hr hs => ?_⟩
  · obtain ⟨hslot, -⟩ := slot_offset Config.params k hi
    rw [read_zeroized s (not_isResultByte_of_isSlotByte hslot), if_pos hslot]
  · rw [read_zeroized s hr, hs, if_neg Bool.false_ne_true]

/-! ## STATUS as a word (R24) -/

/-- Bits 7:0 of STATUS (R24). -/
def Status.flagByte (t : Status) : Byte :=
  0#3 ++ BitVec.ofBool t.overrun ++ BitVec.ofBool t.matched ++ BitVec.ofBool t.err ++ BitVec.ofBool t.done
    ++ BitVec.ofBool t.busy

theorem Status.toWord_eq_bytes (t : Status) : t.toWord = 0x00#8 ++ t.lastOp ++ t.errcode ++ t.flagByte := by
  simp only [Status.toWord, Status.flagByte, BitVec.append_assoc, BitVec.cast_eq]

theorem Status.toWord_issued (op : Byte) : (Status.issued op).toWord = 0x00#8 ++ op ++ 0x00#8 ++ 0x01#8 := by
  simp [Status.toWord_eq_bytes, Status.flagByte]

theorem Status.toWord_issued_completedErr (op : Byte) (e : ErrCode) :
    ((Status.issued op).completedErr e).toWord = 0x00#8 ++ op ++ e.code ++ 0x06#8 := by
  simp [Status.toWord_eq_bytes, Status.flagByte]

/-! ## The CMD write (R270, R274) -/

theorem State.access_cmd (P : Params) (s : State) (w : Word) :
    State.access P s (wr 0x000#16 w) = (s.writeCmd P w).respond .written :=
  State.access_wr P s w rfl

theorem State.writeCmd_idle (P : Params) {s : State} (w : Word) (h : s.status.busy = false) :
    s.writeCmd P w = s.issue P w := by
  rw [State.writeCmd, h, if_neg Bool.false_ne_true]

theorem State.writeCmd_busy (P : Params) {s : State} (w : Word) (h : s.status.busy = true) :
    s.writeCmd P w = { s with status := s.status.overran } := if_pos h

/-- The CMD write while no command is in flight is an issue (R270). -/
theorem step_of_issue {s : State} {w : Word} {rest : List Event} (h : s.events = .access (wr 0x000#16 w) :: rest)
    (hb : s.status.busy = false) :
    step s = .next ((({ s with events := rest } : State).issue Config.params w).respond .written) := by
  rw [step_of_access h, State.access_cmd, State.writeCmd_idle (s := { s with events := rest }) _ w hb]

/-- Settles O9: the step is the issue, whose snapshot holds every byte within a slot's capacity. -/
theorem cmdWriteIssuesCommand : Obligations.CmdWriteIssuesCommand := by
  intro s w rest h hb
  refine ⟨_, _, step_of_issue h hb, rfl, rfl, rfl, rfl, rfl, rfl, rfl, fun k i hi => ?_, Status.toWord_issued _,
    rfl, rfl, rfl, rfl, rfl, rfl, rfl⟩
  obtain ⟨-, hop⟩ := slot_offset Config.params k hi
  rw [State.snapshot_data, Memory.read_keep, if_pos hop]

/-- The state after a CMD write that is not accepted: OVERRUN is set, and the model has taken the event and given its
answer (R274, log entries 1 and 11). -/
def State.dropCmdWrite (s : State) (rest : List Event) : State :=
  { s with status := s.status.overran, events := rest, response := some .written }

theorem step_of_dropped {s : State} {w : Word} {rest : List Event} (h : s.events = .access (wr 0x000#16 w) :: rest)
    (hb : s.status.busy = true) : step s = .next (s.dropCmdWrite rest) := by
  rw [step_of_access h, State.access_cmd, State.writeCmd_busy (s := { s with events := rest }) _ w hb]
  rfl

theorem completionBase_dropCmdWrite (i : Instr) (s : State) (rest : List Event) :
    completionBase i (s.dropCmdWrite rest) = (completionBase i s).dropCmdWrite rest := by
  unfold completionBase
  split <;> rfl

theorem complete_dropCmdWrite (s : State) (rest : List Event) (r : Except ErrCode Answer) :
    (s.dropCmdWrite rest).complete r = (s.complete r).dropCmdWrite rest := by
  cases r <;> rfl

/-- The dropped write and the completion commute (R274). -/
theorem exec_dropCmdWrite {i : Instr} {s u : State} (rest : List Event) (h : exec i s = .next u) :
    exec i (s.dropCmdWrite rest) = .next (u.dropCmdWrite rest) := by
  obtain ⟨n, hn, rfl⟩ := exec_next h
  rw [exec_of_snap (s := s.dropCmdWrite rest) i hn, completionBase_dropCmdWrite, complete_dropCmdWrite]
  rfl

/-- An accepted write at offset 0 is the CMD write. -/
theorem eq_wr_of_accepted {a : Access} {v : Word} (h : a.accepted = true) (hk : a.kind = .write v)
    (h0 : a.offset.toNat = 0) : a = wr 0x000#16 v := by
  obtain ⟨width, off, kind⟩ := a
  obtain ⟨rfl, -⟩ := accepted_iff.1 h
  obtain rfl : kind = .write v := hk
  obtain rfl : off = 0x000#16 := BitVec.eq_of_toNat_eq h0
  rfl

/-- OVERRUN, once set, is cleared by no access but the accepted CMD write (R274). -/
theorem State.access_overrun {P : Params} {s : State} {a : Access} (ho : s.status.overrun = true) :
    (State.access P s a).status.overrun = true ∨ ∃ w, a = wr 0x000#16 w ∧ s.status.busy = false := by
  rcases State.access_cases P s a with ⟨-, e⟩ | ⟨-, -, e⟩ | ⟨v, ha, hk, e⟩
  · exact .inl (by rw [e]; exact ho)
  · exact .inl (by rw [e]; exact ho)
  · rw [e, State.respond_status]
    rcases State.writeWord_cases P s a.offset.toNat v with ⟨h0, e⟩ | ⟨-, e⟩ | ⟨-, e⟩ | ⟨-, e⟩ | ⟨k, -, e⟩ | ⟨-, e⟩ | e
    case inl =>
      cases hb : s.status.busy with
      | false => exact .inr ⟨v, eq_wr_of_accepted ha hk h0, rfl⟩
      | true => exact .inl (by rw [e, State.writeCmd_busy P v hb]; rfl)
    all_goals exact .inl (by rw [e]; exact ho)

theorem engineTurn_overrun {s t : State} (h : engineTurn s = .next t) : t.status.overrun = s.status.overrun := by
  rcases engineTurn_next h with ⟨-, rfl⟩ | ⟨-, n, -, ⟨i, -, rfl⟩ | ⟨-, rfl⟩⟩ <;> simp

/-- Settles O10: the dropped write commutes with the completion, and no step but an issue or a reset clears OVERRUN. -/
theorem cmdWriteWhileBusyIsDropped : Obligations.CmdWriteWhileBusyIsDropped := by
  refine ⟨fun s w rest h hb => ?_, fun s t ho ht => ?_⟩
  · refine ⟨_, step_of_dropped h hb, rfl, rfl, rfl, rfl, rfl, rfl, rfl, rfl, rfl, rfl, rfl, fun i u hu => ?_⟩
    exact ⟨_, exec_dropCmdWrite rest hu, ⟨rfl, rfl, rfl, rfl, rfl, rfl, fun _ _ => rfl⟩,
      ⟨rfl, rfl, rfl, rfl, rfl, fun _ _ => rfl⟩, rfl⟩
  · rcases step_next ht with ⟨-, ht⟩ | ⟨rest, -, ht⟩ | ⟨a, rest, hev, rfl⟩ | ⟨rest, hev, -⟩
    · exact .inl ((engineTurn_overrun ht).trans ho)
    · exact .inl ((engineTurn_overrun ht).trans ho)
    · rcases State.access_overrun (P := Config.params) (s := { s with events := rest }) (a := a) ho with
        hover | ⟨w, rfl, hb⟩
      · exact .inl hover
      · exact .inr (.inr ⟨w, rest, hev, hb⟩)
    · exact .inr (.inl ⟨rest, hev⟩)

/-! ## The engine's turn (R272, R273, R278) -/

theorem decodeWord_of_decode {w : Word} {i : Instr} (h : decode (bytesOfWord w) = .ok (i, [])) :
    decodeWord w = .ok i := by
  have hdec := decode_bytesOfWord w []
  rw [List.append_nil, h] at hdec
  cases hw : decodeWord w with
  | ok j => simpa [hw] using hdec.symm
  | error e => simp [hw] at hdec

/-- Settles O3: the engine's turn on a fetched command, at each of its two places. -/
theorem stepRunsDecodedCommand : Obligations.StepRunsDecodedCommand := by
  intro s w i hf hd
  have hw := decodeWord_of_decode hd
  refine ⟨fun h => ?_, fun rest h => ?_⟩
  · rw [step_of_no_event h, engineTurn_ok hf hw]
  · rw [step_of_engine h]
    exact engineTurn_ok (s := { s with events := rest }) hf hw

theorem engineTurn_illegal {s : State} {w : Word} (hf : s.fetch = some w) (hl : legalCommandWord w = false) :
    engineTurn s = .next (s.completeErr .illegalCommand) := by
  obtain ⟨-, n, hn, -⟩ := fetch_eq_some.1 hf
  cases hd : decodeWord w with
  | ok i =>
    rw [legalCommandWord_iff.2 ⟨i, decodeWord_ok_iff.1 hd⟩] at hl
    cases hl
  | error e => rw [engineTurn_error hf hd, execIllegal_of_snap hn]

/-- The state after the issue of `w`, when the engine's turn is the event taken next. -/
def State.afterIssue (s : State) (w : Word) (rest : List Event) : State :=
  { (s.issue Config.params w).respond .written with events := rest }

theorem fetch_afterIssue (s : State) (w : Word) (rest : List Event) : (s.afterIssue w rest).fetch = some w := rfl

/-- The CMD write that issues a command, and the engine's turn that follows it. -/
theorem run_issue_engine {s : State} {w : Word} {rest : List Event}
    (h : s.events = .access (wr 0x000#16 w) :: .engine :: rest) (hb : s.status.busy = false) {t : State}
    (ht : engineTurn (s.afterIssue w rest) = .next t) : core.run 2 s = .next t := by
  rw [run_next (step_of_issue h hb)]
  exact run_next (k := 0) ((step_of_engine (rest := rest) rfl).trans ht)

/-- Settles O5: the engine's turn on an illegal word, in flight at either place or just issued. -/
theorem illegalWordCompletesWithError : Obligations.IllegalWordCompletesWithError := by
  refine ⟨fun s w rest hf hl h => ?_, fun s w rest h hb hl => ?_⟩
  · have hturn := engineTurn_illegal (s := { s with events := rest }) hf hl
    rcases h with ⟨hev, rfl⟩ | hev
    · rw [step_of_no_event hev, ← hturn, ← hev]
    · rw [step_of_engine hev, hturn]
  · obtain ⟨hcmd, h0, h1, h2, hlen, hmem⟩ := sameOperands_completeErr (s.afterIssue w rest) .illegalCommand
    exact ⟨_, run_issue_engine h hb (engineTurn_illegal (fetch_afterIssue s w rest) hl), rfl, hcmd, rfl,
      Status.toWord_issued_completedErr _ _, resultCleared_completeErr _ _, h0, h1, h2, hlen, hmem⟩

/-- Settles O18: NOP is the completion with the empty result; from reset it is issued and completed in two steps. -/
theorem nopClearsResult : Obligations.NopClearsResult := by
  refine ⟨fun s n hn =>
    ⟨_, exec_nop hn, resultCleared_completeOk_nil s, sameOperands_completeOk s _, rfl, rfl, rfl⟩, ?_⟩
  exact ⟨_, run_issue_engine rfl rfl ((engineTurn_ok (i := .nop) (fetch_afterIssue _ _ _) rfl).trans (exec_nop rfl)),
    by decide⟩

/-! ## Every command ends (R271, R275) -/

/-- With SNAP present exactly while BUSY = 1 the engine's turn never stops, and no command is in flight after it. -/
theorem engineTurn_completes {s : State} (hfl : FlightInv s) :
    ∃ t, engineTurn s = .next t ∧ t.status.busy = false := by
  obtain ⟨hsnap, -, -⟩ := hfl
  cases hb : s.status.busy with
  | false => exact ⟨s, engineTurn_idle hb, hb⟩
  | true =>
    obtain ⟨n, hn⟩ := Option.isSome_iff_exists.1 (hsnap.1 hb)
    have hf : s.fetch = some n.word := fetch_eq_some.2 ⟨hb, n, hn, rfl⟩
    cases hd : decodeWord n.word with
    | ok i => exact ⟨_, (engineTurn_ok hf hd).trans (exec_of_snap i hn), State.complete_busy _ _⟩
    | error e => exact ⟨_, (engineTurn_error hf hd).trans (execIllegal_of_snap hn), rfl⟩

/-- Under the invariant of R36 every step has a next state: the engine's turn and a reset leave no command in flight,
and an access takes one event from the list. -/
theorem step_ends_or_takes_event {s : State} (hfl : FlightInv s) :
    ∃ t, step s = .next t ∧ (t.status.busy = false ∨ ∃ e, s.events = e :: t.events) := by
  cases hev : s.events with
  | nil =>
    obtain ⟨t, ht, hb⟩ := engineTurn_completes hfl
    exact ⟨t, (step_of_no_event hev).trans ht, .inl hb⟩
  | cons e rest =>
    cases e with
    | engine =>
      obtain ⟨t, ht, hb⟩ := engineTurn_completes (s := { s with events := rest }) hfl
      exact ⟨t, (step_of_engine hev).trans ht, .inl hb⟩
    | access a =>
      obtain ⟨-, -, -, hevents, -⟩ := State.access_frame Config.params { s with events := rest } a
      exact ⟨_, step_of_access hev, .inr ⟨.access a, by rw [hevents]⟩⟩
    | reset => exact ⟨_, step_of_reset hev, .inl rfl⟩

/-- Settles O25: an access and a reset always have a next state, and so has the engine's turn under the invariant. -/
theorem everyStepHasNextState : Obligations.EveryStepHasNextState := fun _ hfl =>
  let ⟨t, ht, _⟩ := step_ends_or_takes_event hfl
  ⟨t, ht⟩

/-- Induction over the events to come: each step ends the command or leaves one event fewer, and the invariant. -/
theorem run_ends {s : State} (hfl : FlightInv s) {es : List Event} (hev : s.events = es) :
    ∃ (k : Nat) (t : State), k ≤ es.length + 1 ∧ core.run k s = .next t ∧ t.status.busy = false := by
  induction es generalizing s with
  | nil =>
    obtain ⟨t, ht, hb | ⟨e, he⟩⟩ := step_ends_or_takes_event hfl
    · exact ⟨1, t, le_rfl, run_next (k := 0) ht, hb⟩
    · cases hev.symm.trans he
  | cons e rest ih =>
    obtain ⟨t, ht, hb | ⟨e', he⟩⟩ := step_ends_or_takes_event hfl
    · exact ⟨1, t, by omega, run_next (k := 0) ht, hb⟩
    · obtain ⟨-, hrest⟩ := List.cons.inj (hev.symm.trans he)
      obtain ⟨k, u, hk, hrun, hb⟩ := ih (flightInv_kept.step hfl ht) hrest.symm
      exact ⟨k + 1, u, Nat.succ_le_succ hk, (run_next ht).trans hrun, hb⟩

/-- Settles O20: a command in flight ends with the events to come. -/
theorem everyCommandEnds : Obligations.EveryCommandEnds := fun _ hfl _ => run_ends hfl rfl

end Sys2Proof.Machine
end

section
/-! PROOFS. The error codes and what a command that ends with an error leaves (R300, R302). -/

namespace Sys2Proof.Machine

/-! ## The error codes (R300) -/

/-- The 18 errors of R300, in the order of its table. -/
def ErrCode.all : List ErrCode :=
  [.invalidPinLength, .invalidPanLength, .invalidFormatTag, .invalidPinBlockLength, .invalidKeyLength,
    .invalidKsnLength, .emptyData, .invalidTruncation, .invalidPvki, .invalidDecimalizationTable, .invalidMask,
    .invalidCharacter, .invalidParameter, .invalidFieldLength, .invalidDataLength, .invalidPinDigit,
    .counterExhausted, .illegalCommand]

/-- The error that ERRCODE stands for: the first of the table with that code. -/
def ErrCode.ofCode (b : Byte) : Option ErrCode := ErrCode.all.find? (·.code == b)

/-- No code is taken by an earlier error of the table. -/
theorem ErrCode.ofCode_code (e : ErrCode) : ErrCode.ofCode e.code = some e := by cases e <;> rfl

theorem ErrCode.code_injective : Function.Injective ErrCode.code := fun d e h =>
  Option.some.inj (calc
    some d = ErrCode.ofCode d.code := d.ofCode_code.symm
    _ = ErrCode.ofCode e.code := congrArg _ h
    _ = some e := e.ofCode_code)

/-- Settles O34: the numbers are those of `ErrCode.code`, which names each error apart. -/
theorem errorCodeNumbers : Obligations.ErrorCodeNumbers :=
  ⟨rfl, rfl, rfl, rfl, rfl, rfl, rfl, rfl, rfl, rfl, rfl, rfl, rfl, rfl, rfl, rfl, rfl, rfl,
    fun _ _ h => ErrCode.code_injective h⟩

/-! ## The completion with an error (R302) -/

/-- A completion shows ERR exactly when the rule raised an error. -/
theorem State.complete_err_iff {s : State} {r : Except ErrCode Answer} :
    (s.complete r).status.err = true ↔ ∃ e, r = .error e := by
  cases r with
  | ok a => simp
  | error e => simp

/-- The rule of ZEROIZE raises no error, so a command that ends with one completes from the state it started in. -/
theorem exec_next_with_error {i : Instr} {s t : State} (ht : exec i s = .next t) (herr : t.status.err = true) :
    ∃ e, t = s.completeErr e := by
  obtain ⟨n, -, rfl⟩ := exec_next ht
  obtain ⟨e, he⟩ := State.complete_err_iff.1 herr
  have hi : i ≠ .zeroize := by
    rintro rfl
    cases he
  exact ⟨e, by rw [he, completionBase_of_ne hi, complete_error]⟩

/-- Settles O13: an error ends every command with `completeErr` alone, and with BUSY = 0 the next CMD write is issued. -/
theorem errorCompletionChangesNothingElse : Obligations.ErrorCompletionChangesNothingElse := by
  intro i s t ht herr
  obtain ⟨e, rfl⟩ := exec_next_with_error ht herr
  exact ⟨⟨e, rfl⟩, resultCleared_completeErr s e, sameOperands_completeErr s e,
    fun w rest hev => ⟨_, _, step_of_issue hev rfl, rfl, rfl, rfl⟩⟩

end Sys2Proof.Machine
end

section
/-! PROOFS. The reset (R340 to R342): what the window reads after it, and what it makes of any state. -/

namespace Sys2Proof.Machine

/-! ## The window after a reset (R340) -/

theorem Status.toWord_reset : Status.reset.toWord = 0x00000000#32 := rfl

/-- Where no byte is stored a buffer reads 0, whatever DATA_MAX. -/
theorem State.bufferWord_of_mem_nil (P : Params) {s : State} (h : s.mem = []) (a : Nat) :
    s.bufferWord P a = 0x00000000#32 := by
  have hbyte (x : Nat) : s.windowByte P x = 0x00#8 := by simp [State.windowByte, h]
  rw [State.bufferWord, hbyte, hbyte, hbyte, hbyte]
  rfl

/-- ID is hard-wired (R27), so it is the one offset that does not read 0. -/
theorem State.readWord_reset (P : Params) (off : Nat) :
    State.reset.readWord P off = if off = 0x01C then idValue else 0x00000000#32 := by
  by_cases hoff : off = 0x01C
  · rw [if_pos hoff, State.readWord, targetOf_id.2 hoff]
  · rw [if_neg hoff, State.readWord]
    cases ht : targetOf off with
    | id => exact absurd (targetOf_id.1 ht) hoff
    | status => exact Status.toWord_reset
    | slotLen k => exact slotLen_reset k
    | buffer => exact State.bufferWord_of_mem_nil P rfl off
    | cmd | param0 | param1 | param2 | resultLen | resultAux | reserved => rfl

/-- Settles O6: the alignment of the offset plays no part, since a reserved offset reads 0 as well. -/
theorem resetStateReads : Obligations.ResetStateReads :=
  ⟨fun off _ _ => State.readWord_reset Config.params off, rfl, rfl⟩

/-! ## A reset at any time (R342) -/

theorem State.resetBlock_slotLen_get (s : State) (k : Slot) : s.resetBlock.slotLen.get k = 0x00000000#32 := by
  rw [State.resetBlock_slotLen]
  exact slotLen_reset k

theorem State.read_resetBlock_mem (s : State) (a : Nat) : Memory.read s.resetBlock.mem a = 0x00#8 := by
  rw [State.resetBlock_mem, Memory.read_nil]

/-- Settles O7: the step is `resetBlock` whether or not a command is in flight; the snapshot goes with the rest, so
nothing is left to complete. -/
theorem resetDiscardsCommandInFlight : Obligations.ResetDiscardsCommandInFlight := by
  intro s rest hev
  refine ⟨_, step_of_reset hev, ?_⟩
  simp only [State.resetBlock_cmd, State.resetBlock_status, Status.toWord_reset, State.resetBlock_param0,
    State.resetBlock_param1, State.resetBlock_param2, State.resetBlock_resultLen, State.resetBlock_resultAux,
    State.resetBlock_slotLen_get, State.read_resetBlock_mem, State.resetBlock_snap, implies_true, and_self]

end Sys2Proof.Machine
end
